-- ==== Sys2Proof/Word.lean ====
section
/-! DEFINITION. Bytes, words and the symbols of the two bus wires. -/

namespace Sys2Proof

/-- One byte of a packet or of the source memory. -/
abbrev Byte := BitVec 8

/-- `WORD` = 32 bits: counters, lengths, source addresses, cycle counts and `OSC_CTL`
(spec/00_scope.md R7, spec/10_state.md R22 to R51). -/
abbrev Word := BitVec 32

/-- A differential level of the line, the only values `rx_prev` and `tx_level` take
(spec/10_state.md R46, R47). -/
inductive LineLevel where
  | J
  | K
  deriving DecidableEq, Repr, Inhabited

/-- What the line shows in one bit time (spec/30_encoding.md R80). -/
inductive LineSymbol where
  | J
  | K
  | SE0
  | SE1
  deriving DecidableEq, Repr, Inhabited

/-- The other differential level: a transition (spec/30_encoding.md R81). -/
def LineLevel.flip : LineLevel → LineLevel
  | .J => .K
  | .K => .J

/-- A level as the symbol the line shows. -/
def LineLevel.sym : LineLevel → LineSymbol
  | .J => .J
  | .K => .K

end Sys2Proof
end

