-- ==== Sys2Proof/Config.lean ====
section
/-! DEFINITION. The configuration of spec/00_scope.md R7: the record of the parameters that have a value with the values this
hardware takes, the record of those that have none (OPEN) together with what the collaborators of R8 supply, and the free values. -/

namespace Sys2Proof.Config

/-! ## Parameters with a value (R7) -/

/-- The half of the configuration record that has values: one field per row of R7's table that gives one
(notes/assumptions/27.md). -/
structure Settings where
  /-- `ENDPOINTS`: entries of the endpoint file after reset. -/
  endpoints : Nat
  /-- `ENDPOINT0_SIZE`: bytes of one packet of the built-in drain. -/
  endpoint0Size : Nat
  /-- `MAX_PAYLOAD`: most payload bytes of a data packet. -/
  maxPayload : Nat
  /-- `PACKET_BUF_CAP`: bytes of the packet buffer. -/
  packetBufCap : Nat
  /-- `BIT_RATE`: bits a second on the wire. No rule depends on it, nor on the next four. -/
  bitRate : Nat
  /-- `BIT_TIME`: nanoseconds of one bit, about. -/
  bitTimeNs : Nat
  /-- `CORE_CLOCK`: nominal hertz. -/
  coreClock : Nat
  /-- `CYCLES_PER_BIT`: core clock cycles in one bit time. -/
  cyclesPerBit : Nat
  /-- `TX_JITTER`: the transmitter's tolerance on a bit time to either side, in thousandths, about. -/
  txJitterPermille : Nat
  /-- `EOP_SE0_BITS`: bit times of SE0 in a transmitted end of packet. -/
  eopSe0Bits : Nat
  /-- `STUFF_RUN`: consecutive 1 bits after which a 0 is stuffed. -/
  stuffRun : Nat
  pidAck : Byte
  pidData0 : Byte
  pidData1 : Byte
  pidIn : Byte
  pidOut : Byte
  pidSetup : Byte
  crc16Poly : BitVec 16
  crc16Init : BitVec 16
  crc16Residual : BitVec 16
  crc5Poly : BitVec 5
  crc5Init : BitVec 5
  /-- `CRC5_GOOD`, of the normalised residual of spec/42_crc.md R197. -/
  crc5Good : BitVec 5
  /-- `REQ_GET_DESCRIPTOR` as a `req_key` (spec/30_encoding.md R97). -/
  reqGetDescriptor : BitVec 16
  /-- `REQ_SET_ADDRESS` as a `req_key`. -/
  reqSetAddress : BitVec 16
  /-- `REQ_CLASS_SET_REPORT` as a `req_key`. -/
  reqClassSetReport : BitVec 16
  /-- `BOOT_SELECTOR_MAGIC`: the selector that arms stage 1 of the bootloader latch. -/
  bootSelectorMagic : Word
  /-- `BOOT_COOKIE`: the OUT payload that arms stage 2. -/
  bootCookie : List Byte
  /-- `DEVICE_DESC_LEN`: length of the Device descriptor. -/
  deviceDescLen : Nat
  /-- `KEEPALIVE_NOMINAL`: cycles of the nominal clock in one keepalive interval. -/
  keepaliveNominal : Word
  /-- `PREAMBLE_MIN`: symbols of the sync pattern that must be seen. -/
  preambleMin : Nat
  /-- `WORD`: bits of a word; `Sys2Proof.Word` is the type. -/
  wordBits : Nat
  deriving DecidableEq, Repr

/-- The values this hardware takes (the column "value" of R7's table). -/
def hardware : Settings where
  endpoints := 3
  endpoint0Size := 8
  maxPayload := 8
  packetBufCap := 12
  bitRate := 1500000
  bitTimeNs := 666
  coreClock := 48000000
  cyclesPerBit := 32
  txJitterPermille := 15
  eopSe0Bits := 2
  stuffRun := 6
  pidAck := 0xD2#8
  pidData0 := 0xC3#8
  pidData1 := 0x4B#8
  pidIn := 0x69#8
  pidOut := 0xE1#8
  pidSetup := 0x2D#8
  crc16Poly := 0xA001#16
  crc16Init := 0xFFFF#16
  crc16Residual := 0xB001#16
  crc5Poly := 0x14#5
  crc5Init := 0x1F#5
  crc5Good := 0#5
  reqGetDescriptor := 0x0680#16
  reqSetAddress := 0x0500#16
  reqClassSetReport := 0x0920#16
  bootSelectorMagic := 0x000003FD#32
  bootCookie := [0xFD#8, 0x12#8, 0x34#8, 0xAA#8, 0xBB#8, 0xCC#8, 0xDD#8, 0x00#8]
  deviceDescLen := 18
  keepaliveNominal := 48000#32
  preambleMin := 8
  wordBits := 32

/-! The names of R7, each the field of the record. -/

def ENDPOINTS : Nat := hardware.endpoints
def ENDPOINT0_SIZE : Nat := hardware.endpoint0Size
def MAX_PAYLOAD : Nat := hardware.maxPayload
def PACKET_BUF_CAP : Nat := hardware.packetBufCap
def EOP_SE0_BITS : Nat := hardware.eopSe0Bits
def STUFF_RUN : Nat := hardware.stuffRun
def PID_ACK : Byte := hardware.pidAck
def PID_DATA0 : Byte := hardware.pidData0
def PID_DATA1 : Byte := hardware.pidData1
def PID_IN : Byte := hardware.pidIn
def PID_OUT : Byte := hardware.pidOut
def PID_SETUP : Byte := hardware.pidSetup
def CRC16_POLY : BitVec 16 := hardware.crc16Poly
def CRC16_INIT : BitVec 16 := hardware.crc16Init
def CRC16_RESIDUAL : BitVec 16 := hardware.crc16Residual
def CRC5_POLY : BitVec 5 := hardware.crc5Poly
def CRC5_INIT : BitVec 5 := hardware.crc5Init
def CRC5_GOOD : BitVec 5 := hardware.crc5Good
def REQ_GET_DESCRIPTOR : BitVec 16 := hardware.reqGetDescriptor
def REQ_SET_ADDRESS : BitVec 16 := hardware.reqSetAddress
def REQ_CLASS_SET_REPORT : BitVec 16 := hardware.reqClassSetReport
def BOOT_SELECTOR_MAGIC : Word := hardware.bootSelectorMagic
def BOOT_COOKIE : List Byte := hardware.bootCookie
def DEVICE_DESC_LEN : Nat := hardware.deviceDescLen
def KEEPALIVE_NOMINAL : Word := hardware.keepaliveNominal
def PREAMBLE_MIN : Nat := hardware.preambleMin
def BIT_RATE : Nat := hardware.bitRate
def BIT_TIME : Nat := hardware.bitTimeNs
def CORE_CLOCK : Nat := hardware.coreClock
def CYCLES_PER_BIT : Nat := hardware.cyclesPerBit
def TX_JITTER : Nat := hardware.txJitterPermille
def WORD : Nat := hardware.wordBits

/-! Constants that are no row of R7. -/

/-- The most entries a legal configuration has: a token's endpoint field has 4 bits (R7, decision D44). -/
def ENDPOINTS_MAX : Nat := 16
/-- The raw residual of a good token (spec/42_crc.md R196), against which R197 normalises. -/
def CRC5_RAW_RESIDUAL : BitVec 5 := 0x06#5
/-- The selector of the Device descriptor (spec/30_encoding.md R106). -/
def DEVICE_SELECTOR : Word := 0x00000100#32
/-- The selector of the product string, index 2 in language 0x0409 (R106, spec/70_reset_and_hazards.md R367). -/
def PRODUCT_SELECTOR : Word := 0x04090302#32
/-- The "ERR" string descriptor (R367): length, type 3, "ERR" in UTF-16LE. PRESUMED, the layout is general knowledge
(notes/assumptions/32.md). -/
def ERR_STRING : List Byte := [0x08#8, 0x03#8, 0x45#8, 0x00#8, 0x52#8, 0x00#8, 0x52#8, 0x00#8]

/-! ## Free values
No body: nothing in Lean can evaluate one or prove a value of it. -/

/-- Source of `TRIM_BAND` in `State.reset` (notes/assumptions/9.md). -/
opaque trimBandFree : Nat
/-- Source of `TRIM_THRESHOLD` in `State.reset` (notes/assumptions/9.md). -/
opaque trimThresholdFree : Nat
/-- Source of `TRIM_W` in `State.reset` (notes/assumptions/9.md). -/
opaque trimWFree : Nat
/-- Source of `TRIM_SHIFT` in `State.reset` (notes/assumptions/9.md). -/
opaque trimShiftFree : Nat
/-- `TRIM_UP_IS_FASTER` in `State.reset` (notes/assumptions/9.md). -/
opaque trimUpFree : Bool
/-- Source of `SCRATCH_BASE` in `State.reset` (notes/assumptions/10.md). -/
opaque scratchBaseFree : Nat
/-- Source of `ZERO2` in `State.reset`: its distance from the end of the packet buffer (notes/assumptions/10.md). -/
opaque zero2Free : Nat
/-- What the source memory holds at an address the model's list does not name
(spec/20_memory.md R63: `Mem` is total and its contents are the environment's; notes/assumptions/5.md). -/
opaque memFree : Nat → Byte
/-- The pointer of the Device descriptor in `State.reset` (notes/assumptions/6.md). -/
opaque deviceDescFree : Word
/-- Pointer and length of the product string in `State.reset` (notes/assumptions/6.md). -/
opaque productStringFree : Word × Word
/-- The declared lengths of the HID report descriptors in `State.reset` (notes/assumptions/6.md). -/
opaque hidDeclaredFree : List Nat
/-- Their generated lengths in `State.reset` (notes/assumptions/6.md). -/
opaque hidActualFree : List Nat
/-- Source of the pointer of the "ERR" string in `State.reset` (notes/assumptions/32.md). -/
opaque errStringFree : Word
/-- What `DescLookup` answers for a selector the model's table does not name
(spec/20_memory.md R66; notes/assumptions/6.md). -/
opaque descLookupFree : Word → Option (Word × Word)
/-- A byte of the packet buffer that no rule has given a value
(spec/10_state.md R40; notes/assumptions/4.md). The first argument is the model's counter of invocations. -/
opaque scratchFree : Nat → Nat → Byte

/-! ## The record of parameters without a value -/

/-- One row of the descriptor table: a selector and `DescLookup`'s answer, `none` for an unknown selector
(spec/20_memory.md R66). -/
structure DescRow where
  sel : Word
  answer : Option (Word × Word)
  deriving DecidableEq, Repr

/-- The OPEN parameters of R7 and what the collaborators hold constant (R8). State carries the record because
`exec` takes nothing but the state; no step changes it. -/
structure Params where
  /-- `TRIM_BAND`: half-width of the band of accepted interval errors (spec/45_se0_trim.md R304). -/
  trimBand : Nat
  /-- `TRIM_THRESHOLD`: accumulated error that triggers one trim step (R305). -/
  trimThreshold : Nat
  /-- `TRIM_W`: width of the trim field in `OSC_CTL` (R307). -/
  trimW : Nat
  /-- `TRIM_SHIFT`: position of the trim field (R307). -/
  trimShift : Nat
  /-- `TRIM_UP_IS_FASTER` (R306). -/
  trimUpIsFaster : Bool
  /-- `SCRATCH_BASE`: where the packet buffer appears in the source memory space (spec/20_memory.md R64). -/
  scratchBase : Word
  /-- `ZERO2`: the address of two bytes that both hold 0x00 (spec/40_transmit.md R130). -/
  zero2 : Word
  /-- The configuration writes of the initialisation: entry `i` is written to `ep[i].custom`, and an endpoint
  beyond the list is not written (spec/70_reset_and_hazards.md R366). -/
  customInit : List Bool
  /-- Where the Device descriptor lies (spec/20_memory.md R66). -/
  deviceDesc : Word
  /-- Pointer and length of the product string, string index 2 (R66). -/
  productString : Word × Word
  /-- The statically declared lengths of the HID report descriptors (R66, spec/70_reset_and_hazards.md R367). -/
  hidDeclared : List Nat
  /-- The lengths of the HID report descriptors as generated. -/
  hidActual : List Nat
  /-- Where the "ERR" string lies if the self-test substitutes it. -/
  errString : Word
  /-- The known part of the descriptor table beyond the Device descriptor and the product string. -/
  descTable : List DescRow
  deriving DecidableEq, Repr

/-- The descriptor self-test has substituted the "ERR" string (spec/70_reset_and_hazards.md R367). -/
def Params.errSubstituted (p : Params) : Bool := p.hidDeclared != p.hidActual

/-- The `n` bytes at `a` and the `m` bytes at `b` have no address in common. -/
def apart (a : Word) (n : Nat) (b : Word) (m : Nat) : Bool := decide (n ≤ (b - a).toNat) && decide (m ≤ (a - b).toNat)

/-- The constraints of spec/92_eei_decisions.md section 2 and spec/45_se0_trim.md R311. The last three say that the two bytes at
`ZERO2`, the packet buffer and the "ERR" string lie apart, as they must if the first two bytes always hold 0x00 and the string is
constant (DEDUCED, notes/assumptions/10.md, 32.md). -/
def Params.wf (p : Params) : Bool :=
  decide (0 < p.trimBand) && decide (0 < p.trimThreshold) && decide (p.trimBand + p.trimThreshold < 2 ^ 31)
    && decide (1 ≤ p.trimW) && decide (p.trimW + p.trimShift ≤ 32)
    && apart p.scratchBase PACKET_BUF_CAP p.zero2 2 && apart p.errString ERR_STRING.length p.scratchBase PACKET_BUF_CAP
    && apart p.errString ERR_STRING.length p.zero2 2

/-- `SCRATCH_BASE` in `State.reset`. -/
def scratchBaseReset : Word := BitVec.ofNat 32 scratchBaseFree

/-- `ZERO2` in `State.reset`: any address outside the packet buffer. -/
def zero2Reset : Word := scratchBaseReset + BitVec.ofNat 32 (PACKET_BUF_CAP + zero2Free % (2 ^ 32 - 1 - PACKET_BUF_CAP))

/-- The "ERR" string lies apart from the packet buffer and the two zero bytes. -/
def errFits (a scratch zero : Word) : Bool :=
  apart a ERR_STRING.length scratch PACKET_BUF_CAP && apart a ERR_STRING.length zero 2

/-- The pointer of the "ERR" string in `State.reset`: any that fits; should the free value not, one of two behind the packet buffer
(notes/assumptions/32.md). -/
def errStringReset : Word :=
  if errFits errStringFree scratchBaseReset zero2Reset then errStringFree
  else if errFits (scratchBaseReset + 16) scratchBaseReset zero2Reset then scratchBaseReset + 16
  else scratchBaseReset + 32

/-- The parameters of `State.reset`: the OPEN ones are free within their constraints (every legal value is one of
theirs), no configuration write has been made, and no descriptor is known beyond what spec/20_memory.md R66 says of every table. -/
def Params.reset : Params where
  trimBand := 1 + trimBandFree % (2 ^ 31 - 2)
  trimThreshold := 1 + trimThresholdFree % (2 ^ 31 - 1 - (1 + trimBandFree % (2 ^ 31 - 2)))
  trimW := 1 + trimWFree % 32
  trimShift := trimShiftFree % (33 - (1 + trimWFree % 32))
  trimUpIsFaster := trimUpFree
  scratchBase := scratchBaseReset
  zero2 := zero2Reset
  customInit := []
  deviceDesc := deviceDescFree
  productString := productStringFree
  hidDeclared := hidDeclaredFree
  hidActual := hidActualFree
  errString := errStringReset
  descTable := []

end Sys2Proof.Config
end

