-- ==== Sys2Proof/Syntax.lean ====
section
/-! DEFINITION. The instructions: one constructor per row of spec/opcode_table.json, in the table's order, and the
encoding spaces they are fetched from. spec/30_encoding.md: the engine's "instructions" are the things it decodes and
acts on, namely packets, control requests, OUT payloads, `send` commands and line symbols. -/

namespace Sys2Proof

/-- A call of the transmit unit: `send(token, ptr, len, poly)`, `ptr` a byte address of the source memory
(spec/30_encoding.md R98, spec/40_transmit.md R120). -/
structure SendCmd where
  token : Byte
  ptr : Word
  len : Nat
  poly : Byte
  deriving DecidableEq, Repr

/-- The causes of a silent drop (spec/60_exceptions.md R325). They are labels: the hardware stores none of them
(R320, R330). `N_DUPLICATE`, `N_DESC_ERR` and `N_BOOT` of the same table are no drops and have no constructor. -/
inductive Cause where
  | eGlitch | eSe1 | ePreamble | eStuff | eOverlen | eAlign
  | ePid | eLength | eUrbLen | eCrc5 | eCrc16 | eAddr | eEndp
  deriving DecidableEq, Repr

/-- Why the decoder gives no instruction. -/
inductive Reject where
  /-- The engine drops the bus event in silence (spec/60_exceptions.md R330). -/
  | drop (c : Cause)
  /-- A `send` whose `poly` is neither 0 nor 2 (spec/30_encoding.md R99). -/
  | reservedPoly
  /-- A `send` of more than `MAX_PAYLOAD` bytes (spec/40_transmit.md R133). -/
  | sendTooLong
  deriving DecidableEq, Repr

/-- What the machine fetches: the next thing one of its units decodes, in that unit's own encoding space. -/
inductive Code where
  /-- The first symbols of a bus event, matched against the sync pattern (spec/41_receive.md R152 to R154). -/
  | preamble (syms : List LineSymbol)
  /-- One further symbol against the level before it (spec/30_encoding.md R81, spec/41_receive.md R157, R161, R163). -/
  | line (prev : LineLevel) (sym : LineSymbol)
  /-- The bytes of a received packet, PID first (spec/43_dispatch.md R211). -/
  | packet (bytes : List Byte)
  /-- The payload of a data packet taken as the URB (spec/44_endpoint.md R251). -/
  | urb (bytes : List Byte)
  /-- The payload of any other accepted data packet (spec/44_endpoint.md R252). -/
  | payload (bytes : List Byte)
  /-- A command of the internal `send` interface (spec/30_encoding.md R98, R99). -/
  | send (cmd : SendCmd)
  deriving DecidableEq, Repr

/-- The rows of spec/opcode_table.json. -/
inductive Instr where
  /-- `ACK`: a handshake (spec/43_dispatch.md R212). -/
  | ack
  /-- `DATA0`: payload and CRC16 field (spec/30_encoding.md R91). -/
  | data0 (payload : List Byte) (crc : BitVec 16)
  /-- `DATA1`. -/
  | data1 (payload : List Byte) (crc : BitVec 16)
  /-- `IN`: device address, endpoint, CRC5 field (spec/30_encoding.md R89). -/
  | inTok (addr : BitVec 7) (endp : BitVec 4) (crc : BitVec 5)
  /-- `OUT`. -/
  | outTok (addr : BitVec 7) (endp : BitVec 4) (crc : BitVec 5)
  /-- `SETUP`. -/
  | setup (addr : BitVec 7) (endp : BitVec 4) (crc : BitVec 5)
  /-- `UNKNOWN_PID`: a first byte that is none of the six, and the bytes after it (spec/43_dispatch.md R220). -/
  | unknownPid (pid : Byte) (rest : List Byte)
  /-- `GET_DESCRIPTOR`: the recipient bits the key ignores, `wValue`, `wIndex`, `wLength`. -/
  | getDescriptor (recipient : BitVec 5) (wValue wIndex wLength : BitVec 16)
  /-- `SET_ADDRESS`. -/
  | setAddress (recipient : BitVec 5) (wValue wIndex wLength : BitVec 16)
  /-- `SET_REPORT_BOOT`: the class request whose selector is the boot magic. -/
  | setReportBoot (recipient : BitVec 5) (wLength : BitVec 16)
  /-- `UNRECOGNISED_REQUEST`: every other URB. -/
  | unrecognisedRequest (bmRequestType bRequest : Byte) (wValue wIndex wLength : BitVec 16)
  /-- `OUT_PAYLOAD_COOKIE`: the eight bytes of `BOOT_COOKIE`. -/
  | outPayloadCookie
  /-- `OUT_PAYLOAD_OTHER`: every other payload. -/
  | outPayloadOther (payload : List Byte)
  /-- `SEND_NOCRC`: `send` with `poly` = 0. -/
  | sendNoCrc (token : Byte) (ptr : Word) (len : Nat)
  /-- `SEND_CRC16`: `send` with `poly` = 2. -/
  | sendCrc16 (token : Byte) (ptr : Word) (len : Nat)
  /-- `SYNC`: the eight symbols that open a packet. -/
  | sync
  /-- `EOP`: end of packet. -/
  | eop
  /-- `KEEPALIVE`: SE0 before the sync pattern has completed. -/
  | keepalive
  /-- `BIT0`: a transition. -/
  | bit0
  /-- `BIT1`: no transition. -/
  | bit1
  deriving DecidableEq, Repr

end Sys2Proof
end

