-- ==== Sys2Proof/Decode.lean ====
section
/-! DEFINITION. Field assembly, the decoder (total, rejecting by name), the encoder, and the numbering of
spec/opcode_table.json. -/

namespace Sys2Proof

open Config

/-! ## Bits and bytes -/

/-- `bits_lsb` of one byte: bit 0 travels first (spec/00_scope.md R10, spec/20_memory.md R67). -/
def byteBits (b : Byte) : List Bool :=
  [b.getLsbD 0, b.getLsbD 1, b.getLsbD 2, b.getLsbD 3, b.getLsbD 4, b.getLsbD 5, b.getLsbD 6, b.getLsbD 7]

/-- `bits_lsb` of a byte sequence (spec/00_scope.md R10). -/
def bitsLsb (bytes : List Byte) : List Bool := bytes.flatMap byteBits

/-- Two bytes as a little-endian 16-bit field (spec/20_memory.md R68). -/
def le16 (lo hi : Byte) : BitVec 16 := (hi.setWidth 16 <<< 8) ||| lo.setWidth 16

/-- The byte of a 16-bit field sent first. -/
def lo8 (v : BitVec 16) : Byte := v.extractLsb' 0 8

/-- The byte of a 16-bit field sent second. -/
def hi8 (v : BitVec 16) : Byte := v.extractLsb' 8 8

/-! ## Line symbols -/

/-- The wire pair (D+, D-) of a symbol (spec/30_encoding.md R80). -/
def LineSymbol.wires : LineSymbol → Bool × Bool
  | .J => (false, true)
  | .K => (true, false)
  | .SE0 => (false, false)
  | .SE1 => (true, true)

/-- The symbol a wire pair shows. -/
def LineSymbol.ofWires : Bool → Bool → LineSymbol
  | false, true => .J
  | true, false => .K
  | false, false => .SE0
  | true, true => .SE1

/-- The sync pattern `K J K J K J K K` (spec/30_encoding.md R82). -/
def syncPattern : List LineSymbol := [.K, .J, .K, .J, .K, .J, .K, .K]

/-- The symbol that carries bit `b` after the level `prev` (spec/30_encoding.md R81). -/
def nrziSymbol (prev : LineLevel) (b : Bool) : LineSymbol := if b then prev.sym else prev.flip.sym

/-! ## Token fields (spec/30_encoding.md R89, R90) -/

/-- `T = {crc5, endp, addr}`. -/
def tokenField (addr : BitVec 7) (endp : BitVec 4) (crc : BitVec 5) : BitVec 16 :=
  (crc.setWidth 16 <<< 11) ||| (endp.setWidth 16 <<< 7) ||| addr.setWidth 16

/-- `addr = T[6:0]`. -/
def tokenAddr (t : BitVec 16) : BitVec 7 := t.extractLsb' 0 7

/-- `endp = T[10:7]`. -/
def tokenEndp (t : BitVec 16) : BitVec 4 := t.extractLsb' 7 4

/-- `crc5 = T[15:11]`. -/
def tokenCrc (t : BitVec 16) : BitVec 5 := t.extractLsb' 11 5

/-! ## URB fields (spec/30_encoding.md R93 to R97) -/

/-- One of the six PID bytes of spec/30_encoding.md R87. -/
def isKnownPid (pid : Byte) : Bool :=
  pid == PID_ACK || pid == PID_DATA0 || pid == PID_DATA1 || pid == PID_IN || pid == PID_OUT || pid == PID_SETUP

/-- The request key `{bRequest, bmRequestType & 0xE0}` (spec/30_encoding.md R95). -/
def reqKey (bmRequestType bRequest : Byte) : BitVec 16 := le16 (bmRequestType &&& 0xE0#8) bRequest

/-- The composite selector `{wIndex, wValue}` (spec/30_encoding.md R96). -/
def selector (wValue wIndex : BitVec 16) : Word := (wIndex.setWidth 32 <<< 16) ||| wValue.setWidth 32

/-- The recipient bits, which the key ignores (spec/30_encoding.md R94). -/
def recipientOf (bmRequestType : Byte) : BitVec 5 := bmRequestType.extractLsb' 0 5

/-- A URB that matches one of the first three rows of spec/30_encoding.md R97. -/
def isRecognisedRequest (bmRequestType bRequest : Byte) (wValue wIndex : BitVec 16) : Bool :=
  reqKey bmRequestType bRequest == REQ_GET_DESCRIPTOR || reqKey bmRequestType bRequest == REQ_SET_ADDRESS
    || (reqKey bmRequestType bRequest == REQ_CLASS_SET_REPORT && selector wValue wIndex == BOOT_SELECTOR_MAGIC)

/-- The rows of spec/30_encoding.md R97 in order, the first match winning. -/
def decodeRequest (bmRequestType bRequest : Byte) (wValue wIndex wLength : BitVec 16) : Instr :=
  let key := reqKey bmRequestType bRequest
  if key = REQ_GET_DESCRIPTOR then .getDescriptor (recipientOf bmRequestType) wValue wIndex wLength
  else if key = REQ_SET_ADDRESS then .setAddress (recipientOf bmRequestType) wValue wIndex wLength
  else if key = REQ_CLASS_SET_REPORT ∧ selector wValue wIndex = BOOT_SELECTOR_MAGIC then
    .setReportBoot (recipientOf bmRequestType) wLength
  else .unrecognisedRequest bmRequestType bRequest wValue wIndex wLength

/-! ## The decoder -/

/-- The sync pattern matched symbol by symbol, in the order of tests of spec/41_receive.md R169. `first` is true for
`s[0]`. A list that ends early is continued by idle J (R151). -/
def matchPreamble : (expected : List LineSymbol) → (first : Bool) → (syms : List LineSymbol) → Except Reject Instr
  | [], _, _ => .ok .sync
  | e :: es, first, syms =>
    match syms.headD .J with
    | .SE0 => .ok .keepalive
    | .SE1 => .error (.drop .eSe1)
    | .J => if first then .error (.drop .eGlitch)
            else if e = .J then matchPreamble es false syms.tail else .error (.drop .ePreamble)
    | .K => if e = .K then matchPreamble es false syms.tail else .error (.drop .ePreamble)

/-- One symbol of the data loop (spec/41_receive.md R157, R161, R163). -/
def decodeLine (prev : LineLevel) : LineSymbol → Except Reject Instr
  | .SE0 => .ok .eop
  | .SE1 => .error (.drop .eSe1)
  | .J => .ok (if prev = .J then .bit1 else .bit0)
  | .K => .ok (if prev = .K then .bit1 else .bit0)

/-- A token's two bytes after the PID; any other number is `E_LENGTH` (spec/43_dispatch.md R213). -/
def decodeToken (mk : BitVec 7 → BitVec 4 → BitVec 5 → Instr) : List Byte → Except Reject Instr
  | [b1, b2] => .ok (mk (tokenAddr (le16 b1 b2)) (tokenEndp (le16 b1 b2)) (tokenCrc (le16 b1 b2)))
  | _ => .error (.drop .eLength)

/-- A data packet's bytes after the PID: 0 to 8 of payload, then the CRC16, low byte first
(spec/30_encoding.md R91, R92, spec/43_dispatch.md R219). -/
def decodeData (mk : List Byte → BitVec 16 → Instr) (rest : List Byte) : Except Reject Instr :=
  let n := rest.length - 2
  if rest.length < 2 ∨ MAX_PAYLOAD < n then .error (.drop .eLength)
  else .ok (mk (rest.take n) (le16 (rest.getD n 0) (rest.getD (n + 1) 0)))

/-- Classification by the whole PID byte, then the byte count of the format (spec/43_dispatch.md R211, R221). -/
def decodePacket : List Byte → Except Reject Instr
  | [] => .error (.drop .eAlign)
  | pid :: rest =>
    if pid = PID_ACK then if rest = [] then .ok .ack else .error (.drop .eLength)
    else if pid = PID_IN then decodeToken .inTok rest
    else if pid = PID_OUT then decodeToken .outTok rest
    else if pid = PID_SETUP then decodeToken .setup rest
    else if pid = PID_DATA0 then decodeData .data0 rest
    else if pid = PID_DATA1 then decodeData .data1 rest
    else if rest.length < PACKET_BUF_CAP then .ok (.unknownPid pid rest)
    else .error (.drop .eOverlen)

/-- The URB: exactly eight bytes (spec/44_endpoint.md R251, R260, spec/30_encoding.md R94). -/
def decodeUrb : List Byte → Except Reject Instr
  | [b0, b1, b2, b3, b4, b5, b6, b7] => .ok (decodeRequest b0 b1 (le16 b2 b3) (le16 b4 b5) (le16 b6 b7))
  | _ => .error (.drop .eUrbLen)

/-- An ordinary OUT payload (spec/44_endpoint.md R252). -/
def decodePayload (bytes : List Byte) : Except Reject Instr :=
  if bytes = BOOT_COOKIE then .ok .outPayloadCookie
  else if bytes.length ≤ MAX_PAYLOAD then .ok (.outPayloadOther bytes)
  else .error (.drop .eLength)

/-- A `send` command: `poly` 0 or 2, at most `MAX_PAYLOAD` bytes (spec/30_encoding.md R99, spec/40_transmit.md R133). -/
def decodeSend (c : SendCmd) : Except Reject Instr :=
  if c.poly = 0#8 then if c.len ≤ MAX_PAYLOAD then .ok (.sendNoCrc c.token c.ptr c.len) else .error .sendTooLong
  else if c.poly = 2#8 then if c.len ≤ MAX_PAYLOAD then .ok (.sendCrc16 c.token c.ptr c.len) else .error .sendTooLong
  else .error .reservedPoly

/-- The decoder. -/
def decode : Code → Except Reject Instr
  | .preamble syms => matchPreamble syncPattern true syms
  | .line prev sym => decodeLine prev sym
  | .packet bytes => decodePacket bytes
  | .urb bytes => decodeUrb bytes
  | .payload bytes => decodePayload bytes
  | .send cmd => decodeSend cmd

/-! ## The encoder -/

/-- A token packet: PID, then `T` low byte first (spec/30_encoding.md R89). -/
def encodeToken (pid : Byte) (addr : BitVec 7) (endp : BitVec 4) (crc : BitVec 5) : Code :=
  .packet [pid, lo8 (tokenField addr endp crc), hi8 (tokenField addr endp crc)]

/-- A data packet: PID, payload, CRC16 low byte first (spec/30_encoding.md R91, R92). -/
def encodeData (pid : Byte) (payload : List Byte) (crc : BitVec 16) : Code :=
  .packet (pid :: (payload ++ [lo8 crc, hi8 crc]))

/-- A URB (spec/30_encoding.md R93). -/
def encodeUrb (bmRequestType bRequest : Byte) (wValue wIndex wLength : BitVec 16) : Code :=
  .urb [bmRequestType, bRequest, lo8 wValue, hi8 wValue, lo8 wIndex, hi8 wIndex, lo8 wLength, hi8 wLength]

/-- The encoder. A bit is encoded after the idle level J, as spec/opcode_table.json's transition flag. -/
def encode : Instr → Code
  | .ack => .packet [PID_ACK]
  | .data0 payload crc => encodeData PID_DATA0 payload crc
  | .data1 payload crc => encodeData PID_DATA1 payload crc
  | .inTok addr endp crc => encodeToken PID_IN addr endp crc
  | .outTok addr endp crc => encodeToken PID_OUT addr endp crc
  | .setup addr endp crc => encodeToken PID_SETUP addr endp crc
  | .unknownPid pid rest => .packet (pid :: rest)
  | .getDescriptor recipient wValue wIndex wLength => encodeUrb (0x80#8 ||| recipient.setWidth 8) 0x06#8 wValue wIndex wLength
  | .setAddress recipient wValue wIndex wLength => encodeUrb (0x00#8 ||| recipient.setWidth 8) 0x05#8 wValue wIndex wLength
  | .setReportBoot recipient wLength => encodeUrb (0x20#8 ||| recipient.setWidth 8) 0x09#8 0x03FD#16 0x0000#16 wLength
  | .unrecognisedRequest rt rq wValue wIndex wLength => encodeUrb rt rq wValue wIndex wLength
  | .outPayloadCookie => .payload BOOT_COOKIE
  | .outPayloadOther payload => .payload payload
  | .sendNoCrc token ptr len => .send ⟨token, ptr, len, 0#8⟩
  | .sendCrc16 token ptr len => .send ⟨token, ptr, len, 2#8⟩
  | .sync => .preamble syncPattern
  | .eop => .line .J .SE0
  | .keepalive => .preamble [.SE0]
  | .bit0 => .line .J .K
  | .bit1 => .line .J .J

/-! ## The table's numbering
The rows of spec/opcode_table.json stand in five encoding spaces, and a word does not say which space it is in.
notes/assumptions/2.md gives the choice made here. -/

/-- The `n` low bytes of a number, first byte first. -/
def bytesOfNat (n w : Nat) : List Byte := (List.range n).map fun k => BitVec.ofNat 8 (w / 256 ^ k)

/-- `n` symbols of two bits {D+, D-} each, the first leftmost (the rows SYNC, EOP and KEEPALIVE). -/
def symbolsOfNat (n w : Nat) : List LineSymbol :=
  (List.range n).map fun k => LineSymbol.ofWires ((w / 4 ^ (n - 1 - k) / 2) % 2 == 1) ((w / 4 ^ (n - 1 - k)) % 2 == 1)

/-- A transition flag as one line symbol after idle J (the rows BIT0 and BIT1). -/
def transitionCode (t : Bool) : Code := .line .J (nrziSymbol .J (!t))

/-- The packet whose first byte is given and whose operand bytes are zero. -/
def zeroOperandPacket (pid : Byte) : Code :=
  if pid = PID_ACK then .packet [pid] else if isKnownPid pid then .packet [pid, 0, 0] else .packet [pid]

/-- One byte: a PID, or the `poly` of a `send` of nothing with the token byte zero, or the transition flag 1. -/
def byteCode (b : Byte) : Code :=
  if b = 0#8 ∨ b = 2#8 then .send ⟨0, 0, 0, b⟩
  else if b = 1#8 then transitionCode true
  else zeroOperandPacket b

/-- What is fetched for `nbits` bits `w` of a table row, every bit above them zero. -/
def tableCode (nbits w : Nat) : Code :=
  if nbits = 0 then .payload []
  else if nbits = 1 then transitionCode (w % 2 == 1)
  else if nbits = 2 then .preamble (symbolsOfNat 1 w)
  else if nbits = 6 then .line .J ((symbolsOfNat 3 w).headD .J)
  else if nbits ≤ 8 then byteCode (BitVec.ofNat 8 w)
  else if nbits ≤ 16 then
    if symbolsOfNat 8 w = syncPattern then .preamble syncPattern else .urb (bytesOfNat 8 w)
  else if nbits = 48 ∨ nbits = 64 then
    if bytesOfNat 8 w = BOOT_COOKIE then .payload BOOT_COOKIE else .urb (bytesOfNat 8 w)
  else .packet (bytesOfNat ((nbits + 7) / 8) w)

/-- The instruction the decoder reads from a table word. -/
def decodeTableWord (nbits w : Nat) : Option Instr :=
  match decode (tableCode nbits w) with
  | .ok i => some i
  | .error _ => none

end Sys2Proof
end

