-- ==== Sys2Proof/Machine/Crc.lean ====
section
/-! DEFINITION. The CRC unit (spec/42_crc.md): one step used with two polynomials, the generators, and the checks. -/

namespace Sys2Proof.Machine

open Config

/-- One step of the reflected register (spec/42_crc.md R191). -/
def crcStep {w : Nat} (poly reg : BitVec w) (bit : Bool) : BitVec w :=
  if (reg.getLsbD 0 ^^ bit) = true then (reg >>> 1) ^^^ poly else reg >>> 1

/-- `crc16_reg` (R192). -/
def crc16Reg (bits : List Bool) : BitVec 16 := bits.foldl (crcStep CRC16_POLY) CRC16_INIT

/-- `crc16` (R192). -/
def crc16 (payload : List Byte) : BitVec 16 := crc16Reg (bitsLsb payload) ^^^ 0xFFFF#16

/-- `crc5_reg` (R195). -/
def crc5Reg (bits : List Bool) : BitVec 5 := bits.foldl (crcStep CRC5_POLY) CRC5_INIT

/-- The low `n` bits of a token field in wire order. -/
def tokenBits (n : Nat) (t : BitVec 16) : List Bool := (List.range n).map t.getLsbD

/-- `crc5` of an address and an endpoint (R195). -/
def crc5 (addr : BitVec 7) (endp : BitVec 4) : BitVec 5 :=
  crc5Reg (tokenBits 11 (tokenField addr endp 0)) ^^^ 0x1F#5

/-- The normalised residual (R197). -/
def crc5Norm (t : BitVec 16) : BitVec 5 := crc5Reg (tokenBits 16 t) ^^^ CRC5_RAW_RESIDUAL

end Sys2Proof.Machine
end

