-- ==== Sys2Proof/Machine/State.lean ====
section
/-! DEFINITION. The state of the machine: everything spec/10_state.md names, what the outside presents to it, and the
model's own sequencing. Plain data. -/

namespace Sys2Proof

/-- `pkt.poly` (spec/10_state.md R44). -/
inductive Poly where
  | none
  | crc5
  | crc16
  deriving DecidableEq, Repr, Inhabited

/-- The packet record (spec/10_state.md R40 to R44). -/
structure Pkt where
  /-- `pkt.buf[0 ..]`: the bytes stored so far in this invocation, in arrival order, at most `PACKET_BUF_CAP`.
  A byte not yet stored holds no defined value (R40) and is not represented. -/
  buf : List Byte
  /-- `pkt.nbits`: data bits stored so far, 0 to 96. -/
  nbits : Nat
  /-- `pkt.pid`. -/
  pid : Byte
  /-- `pkt.crc`; the low 5 bits are used with CRC-5. -/
  crc : BitVec 16
  /-- `pkt.poly`. -/
  poly : Poly
  /-- The byte being assembled (`cur` of spec/41_receive.md R169). -/
  cur : Byte
  deriving DecidableEq, Repr, Inhabited

/-- The hidden state of the receive unit (spec/10_state.md R46). -/
structure Rx where
  /-- `rx_prev`. -/
  prev : LineLevel
  /-- `rx_ones`, 0 to 6. -/
  ones : Nat
  deriving DecidableEq, Repr, Inhabited

/-- The packet record, unspecified after reset. DESIGN CHOICE (notes/assumptions/4.md): empty and zero. -/
def Pkt.reset : Pkt where
  buf := []
  nbits := 0
  pid := 0
  crc := 0
  poly := .none
  cur := 0

/-- The packet record at the start of an invocation: it holds no defined value (spec/10_state.md R40,
spec/60_exceptions.md R323). A free value; the argument is the model's counter of invocations. -/
opaque Config.freePkt : Nat → Pkt

/-- `rx_prev` and `rx_ones` at the start of an invocation: no defined value (R323). A free value. -/
opaque Config.freeRx : Nat → Rx

namespace Machine

/-- One entry of the endpoint file (spec/10_state.md R21 to R27). -/
structure EpEntry where
  /-- `count` (R22). -/
  count : Word
  /-- `toggle_in` (R23). -/
  toggleIn : Bool
  /-- `toggle_out` (R24). -/
  toggleOut : Bool
  /-- `custom` (R25). -/
  custom : Bool
  /-- `max_len` (R26). -/
  maxLen : Word
  /-- `opaque`, the address of the transfer's source (R27). -/
  source : Word
  deriving DecidableEq, Repr, Inhabited

/-- The device state singleton `dev` (spec/10_state.md R30 to R37). -/
structure Dev where
  /-- `current_endpoint`, 4 bits (R31). -/
  currentEndpoint : BitVec 4
  /-- `my_address`, 16 bits (R32). -/
  myAddress : BitVec 16
  /-- `setup_request` (R33): the control-transfer state, false `Idle`, true `SetupPending` (R49). -/
  setupRequest : Bool
  /-- `last_se0_cyccount` (R34). -/
  lastSe0 : Word
  /-- `delta_se0_cyccount` (R35). -/
  deltaSe0 : Word
  /-- `se0_windup`, two's complement (R36). -/
  se0Windup : Word
  /-- `reboot_armed`, 2 bits, legal values 0, 1, 2 (R37). -/
  rebootArmed : BitVec 2
  deriving DecidableEq, Repr, Inhabited

/-- `rx_phase` (spec/10_state.md R45). -/
inductive RxPhase where
  | idle
  | preamble
  | data
  | dispatch
  | transmit
  deriving DecidableEq, Repr

/-- Which part of the dispatcher and the handlers is reached while `rx_phase` is `Dispatch`: the packet itself, its payload
taken as the URB, or its payload taken as an ordinary OUT payload. The model's own. -/
inductive Stage where
  | packet
  | request
  | payload
  deriving DecidableEq, Repr

/-- The transmit unit: the hidden state of spec/10_state.md R47, then the model's own sequencing of one `send`. -/
structure Tx where
  /-- `tx_level`. -/
  level : LineLevel
  /-- `tx_ones`, 0 to 6. -/
  ones : Nat
  /-- `tx_oe`. -/
  oe : Bool
  /-- A `send` the invocation has called and that has not started yet. -/
  cmd : Option SendCmd
  /-- The sync pattern of the current `send` has been driven. -/
  synced : Bool
  /-- The bits of the current `send` still to be driven, before stuffing (spec/40_transmit.md R122). -/
  bits : List Bool
  /-- `boot_reset()` follows the current `send` (spec/44_endpoint.md R243, R244). -/
  boot : Bool
  deriving DecidableEq, Repr

/-- The registers of the chip that the engine reaches (spec/10_state.md R50, R51). -/
structure Chip where
  /-- `OSC_CTL`. In an invocation only KEEPALIVE changes it; between invocations another agent of the chip may. DESIGN CHOICE, the
  spec is silent on both (notes/assumptions/31.md). -/
  oscCtl : Word
  /-- `CYCCNT`, as it stands in the current invocation. -/
  cycCnt : Word
  deriving DecidableEq, Repr

/-- What the engine puts out, in time order (spec/10_state.md R53). -/
inductive Output where
  /-- A symbol driven on `line_out`. -/
  | sym (s : LineSymbol)
  /-- The event `BOOT_RESET`. -/
  | bootReset
  /-- A bit time of the gap before a response: the line is idle at J and the engine does not drive it
  (spec/70_reset_and_hazards.md R381). -/
  | idle
  /-- A write of `OSC_CTL`: `osc_ctl_we` with the value on `osc_ctl_wr`. -/
  | oscCtl (v : Word)
  deriving DecidableEq, Repr

/-- The source memory (spec/20_memory.md R63): address and byte, addresses strictly rising below 2^32.
An address it does not list has no byte here; `memRead` in Machine/Memory.lean says what it reads as. -/
abbrev Memory := List Host.Cell

/-- The action of the callback (spec/44_endpoint.md R262). -/
inductive UserAction where
  /-- `Silent`. -/
  | silent
  /-- A call of `send` on `len` bytes at `ptr`, which may point into the scratch buffer (R263 (5)) or anywhere else in the source
  memory space. `poly` = 2 is R262's `Data`; `poly` = 0 is the other form R263 (1) allows. `none` passes the token the callback was
  given, `some` another byte. -/
  | send (token : Option Byte) (ptr : Word) (len : Nat) (poly : Byte)
  /-- `Empty`: a call of `send_empty`. -/
  | empty (token : Option Byte)
  deriving DecidableEq, Repr

/-- What the callback answers if it is called in an invocation: its action, the entry it writes (`none`: it leaves its entry
alone), and the bytes of the scratch buffer it writes, in order, each with its index (spec/44_endpoint.md R262, R263,
spec/20_memory.md R64). -/
structure UserAnswer where
  action : UserAction
  entry : Option EpEntry
  scratch : List (Fin Config.PACKET_BUF_CAP × Byte)
  deriving DecidableEq, Repr

/-- One bus event with the free inputs of the invocation it starts (spec/00_scope.md R8, R16). -/
structure BusEvent where
  /-- The symbols of `line_in`, one per bit time, continued by idle J (spec/41_receive.md R151). -/
  line : List LineSymbol
  /-- The value `CycCnt()` returns in the invocation (spec/45_se0_trim.md R301). -/
  cycCnt : Word
  /-- The callback's answer, if the invocation calls it. -/
  userIn : UserAnswer
  /-- Bytes of the source memory the application has rewritten since the invocation before (spec/20_memory.md R73). -/
  memWrites : List (Word × Byte)
  /-- The value another agent of the chip has left in `OSC_CTL` since the invocation before (`none`: it is as the engine left it).
  DESIGN CHOICE (notes/assumptions/31.md). -/
  oscCtl : Option Word
  /-- The gap: how many idle symbols stand before the response of the invocation, if it responds. OPEN, any finite number
  (spec/70_reset_and_hazards.md R381, spec/92_eei_decisions.md section 2; notes/assumptions/16.md). -/
  gap : Nat
  deriving DecidableEq, Repr

/-- The interfaces of spec/10_state.md R53 towards the outside. -/
structure Io where
  /-- Bus events still to come, the next first. -/
  events : List BusEvent
  /-- The symbols of the current bus event not yet consumed. -/
  lineIn : List LineSymbol
  /-- The callback's answer in the current invocation. -/
  userIn : UserAnswer
  /-- The gap before the response of the current invocation (spec/70_reset_and_hazards.md R381). -/
  gap : Nat
  /-- The input `rst` is asserted (spec/70_reset_and_hazards.md R360). -/
  rst : Bool
  /-- Everything put out so far, with the gaps before responses. No rule reads it (spec/10_state.md R55). -/
  out : List Output
  deriving DecidableEq, Repr

/-- Why the machine stops with a fault. -/
inductive Fault where
  /-- The ACK handler, the DATA handlers or the four control requests and two OUT payloads they lead to address an endpoint
  `dev.current_endpoint` that the endpoint file does not have. spec/10_state.md R31: every value written has passed the
  bound check, so no run reaches it. Safe: the machine stops. -/
  | noEndpoint
  deriving DecidableEq, Repr

/-- Why the machine refuses to go on. -/
inductive Refusal where
  /-- Raised by `exec` for an instruction that has no meaning yet. Safe. -/
  | notModelled (mnemonic : String)
  /-- Raised by the step for a `send` whose `poly` is neither 0 nor 2; only the callback can make such a call
  (spec/40_transmit.md R133: outside the spec, a model refuses it). Safe. -/
  | reservedPoly
  /-- Raised by the step and by SEND_NOCRC and SEND_CRC16 for more than `MAX_PAYLOAD` bytes; only the callback can make such a
  call (R133). Safe. -/
  | sendTooLong
  deriving DecidableEq, Repr

/-- The machine's state. -/
structure State where
  /-- The endpoint file; it has `ENDPOINTS` entries (spec/10_state.md R21). -/
  ep : List EpEntry
  /-- The device state. -/
  dev : Dev
  /-- The packet record. -/
  pkt : Pkt
  /-- The hidden state of the receive unit. -/
  rx : Rx
  /-- The transmit unit. -/
  tx : Tx
  /-- `rx_phase`. -/
  rxPhase : RxPhase
  /-- The model's position inside `Dispatch`. -/
  stage : Stage
  /-- `halted` (R48). -/
  halted : Bool
  /-- `OSC_CTL` and `CYCCNT`. -/
  chip : Chip
  /-- The source memory. -/
  mem : Memory
  /-- The interfaces. -/
  io : Io
  /-- The OPEN parameters and the collaborators' constants. -/
  cfg : Config.Params
  /-- The model's own counter of invocations, to which the free values are applied. -/
  freeCount : Nat
  deriving DecidableEq, Repr

/-! ## Reset (spec/10_state.md R54, spec/70_reset_and_hazards.md R361) -/

/-- An entry "initialized empty at device reset". -/
def EpEntry.reset : EpEntry where
  count := 0
  toggleIn := false
  toggleOut := false
  custom := false
  maxLen := 0
  source := 0

/-- Every field of `dev` is 0. -/
def Dev.reset : Dev where
  currentEndpoint := 0
  myAddress := 0
  setupRequest := false
  lastSe0 := 0
  deltaSe0 := 0
  se0Windup := 0
  rebootArmed := 0

/-- The transmit unit: `tx_oe` = 0 (R54); the rest is unspecified, DESIGN CHOICE (notes/assumptions/4.md): J and 0. -/
def Tx.reset : Tx where
  level := .J
  ones := 0
  oe := false
  cmd := none
  synced := false
  bits := []
  boot := false

/-- The machine right after reset and the initialisation of spec/70_reset_and_hazards.md R365, with `ENDPOINTS` = 3, no
configuration write made, nothing on the bus and no memory listed. `OSC_CTL` and `CYCCNT` have no reset value in the
spec: DESIGN CHOICE 0 (notes/assumptions/8.md). -/
def State.reset : State where
  ep := List.replicate Config.ENDPOINTS EpEntry.reset
  dev := Dev.reset
  pkt := Pkt.reset
  rx := { prev := .J, ones := 0 }
  tx := Tx.reset
  rxPhase := .idle
  stage := .packet
  halted := false
  chip := { oscCtl := 0, cycCnt := 0 }
  mem := []
  io := { events := [], lineIn := [], userIn := { action := .silent, entry := none, scratch := [] }, gap := 0, rst := false, out := [] }
  cfg := Config.Params.reset
  freeCount := 0

end Machine

end Sys2Proof
end

