-- ==== Sys2Proof/Machine/Memory.lean ====
section
/-! DEFINITION. The source memory (spec/20_memory.md R63): a sparse list in one canonical form. -/

namespace Sys2Proof.Machine

/-- The canonical form: addresses strictly rising and inside the 32-bit space. An address not listed has no byte of its own, so
no entry can equal what an unlisted address holds. -/
abbrev Memory.wf (m : Memory) : Prop := m.Pairwise (fun x y => x.1 < y.1) ∧ ∀ c ∈ m, c.1 < 2 ^ 32

/-- The byte listed for an address. -/
def memLookup : Memory → Nat → Option Byte
  | [], _ => none
  | (b, v) :: r, a => if a = b then some v else memLookup r a

/-- One byte of the source memory. What an unlisted address reads as is a free value (notes/assumptions/5.md). -/
def memRead (m : Memory) (a : Nat) : Byte := (memLookup m a).getD (Config.memFree a)

/-- A byte rewritten by the application; the engine itself never writes the source memory (R63, R73). -/
def memWrite : Memory → Nat → Byte → Memory
  | [], a, v => [(a, v)]
  | (b, w) :: r, a, v =>
    if a < b then (a, v) :: (b, w) :: r else if a = b then (a, v) :: r else (b, w) :: memWrite r a v

/-- Several bytes rewritten, in order. -/
def memWrites (m : Memory) (ws : List (Word × Byte)) : Memory :=
  ws.foldl (fun m w => memWrite m w.1.toNat w.2) m

end Sys2Proof.Machine
end

