-- ==== Sys2Proof/Machine/Operands.lean ====
section
/-! DEFINITION. Operand forms: the endpoint a handler acts on, the data PID a sequence bit selects, the descriptor a selector
names, the bytes read through a pointer, and the bytes a `send` puts on the bus. -/

namespace Sys2Proof.Machine

open Config

/-- `ep[i]`, if the endpoint file has that entry (spec/10_state.md R21). -/
def State.endpoint? (s : State) (i : Nat) : Option EpEntry := s.ep[i]?

/-- `ep[dev.current_endpoint]` (spec/44_endpoint.md R265). -/
def State.currentEp? (s : State) : Option EpEntry := s.endpoint? s.dev.currentEndpoint.toNat

/-- `data_pid(t)` (spec/30_encoding.md R105). -/
def dataPid (toggle : Bool) : Byte := if toggle then PID_DATA1 else PID_DATA0

/-- `DescLookup(sel)` (spec/20_memory.md R66): the Device descriptor has 18 bytes; string index 2 is the product string, or the "ERR"
string where the self-test has substituted it (spec/70_reset_and_hazards.md R367); any other selector gets the first row of the table
for it, and one the table does not name a free answer, the same one always (notes/assumptions/6.md). No answer is excluded: one longer
than 65535 or whose range wraps, for which spec/93_implementation_defined.md U22 says `refuse`, is used like any other (DESIGN CHOICE,
notes/assumptions/33.md). -/
def descLookup (p : Params) (sel : Word) : Option (Word × Word) :=
  if sel = DEVICE_SELECTOR then some (p.deviceDesc, BitVec.ofNat 32 DEVICE_DESC_LEN)
  else if sel = PRODUCT_SELECTOR then
    some (if p.errSubstituted then (p.errString, BitVec.ofNat 32 ERR_STRING.length) else p.productString)
  else
    match p.descTable.find? (fun r => r.sel == sel) with
    | some r => r.answer
    | none => descLookupFree sel

/-- A byte of the packet buffer; one that no rule has given a value in this invocation is free (spec/10_state.md R40). -/
def scratchByte (s : State) (k : Nat) : Byte := (s.pkt.buf[k]?).getD (scratchFree s.freeCount k)

/-- One byte of the source memory as the transmit unit reads it: at `ZERO2` the two zero bytes (spec/40_transmit.md R130), at
`SCRATCH_BASE` the packet buffer (spec/20_memory.md R64), at the "ERR" string its bytes where it is substituted (R66), elsewhere
`Mem`. -/
def sourceRead (s : State) (a : Word) : Byte :=
  if (a - s.cfg.zero2).toNat < 2 then 0x00#8
  else if (a - s.cfg.scratchBase).toNat < PACKET_BUF_CAP then
    scratchByte s (a - s.cfg.scratchBase).toNat
  else if s.cfg.errSubstituted ∧ (a - s.cfg.errString).toNat < ERR_STRING.length then
    ERR_STRING.getD (a - s.cfg.errString).toNat 0x00#8
  else memRead s.mem a.toNat

/-- `MemRead(addr, n)`: the bytes at `addr`, `addr + 1`, …, each sum modulo 2^32, lowest first (spec/20_memory.md R63). -/
def sourceReadN (s : State) (addr : Word) (n : Nat) : List Byte :=
  (List.range n).map fun k => sourceRead s (addr + BitVec.ofNat 32 k)

/-- `tx_bytes` with `poly` = 0 (spec/40_transmit.md R121). -/
def txBytesNoCrc (token : Byte) (payload : List Byte) : List Byte := token :: payload

/-- `tx_bytes` with `poly` = 2: the CRC16 over the payload, low byte first (R121). -/
def txBytesCrc16 (token : Byte) (payload : List Byte) : List Byte :=
  token :: (payload ++ [lo8 (crc16 payload), hi8 (crc16 payload)])

end Sys2Proof.Machine
end

