-- ==== Sys2Proof/Machine/Flags.lean ====
section
/-! DEFINITION. The conditions the dispatcher and the handlers test. The block has no arithmetic flags
(spec/44_endpoint.md R264); what it computes instead are these. -/

namespace Sys2Proof.Machine

open Config

/-- The address filter: ignore if and only if `addr` is not zero and differs from `dev.my_address`
(spec/43_dispatch.md R214). -/
def addrIgnored (addr : BitVec 7) (myAddress : BitVec 16) : Bool := addr != 0 && addr.setWidth 16 != myAddress

/-- The first of a token's tests that fails, in the order of spec/43_dispatch.md R213: CRC5, address, endpoint bound. -/
def tokenFault (addr : BitVec 7) (endp : BitVec 4) (crc : BitVec 5) (s : State) : Option Cause :=
  if crc5Norm (tokenField addr endp crc) ≠ CRC5_GOOD then some .eCrc5
  else if addrIgnored addr s.dev.myAddress then some .eAddr
  else if s.ep.length ≤ endp.toNat then some .eEndp
  else none

/-- The CRC16 check on the running register (spec/42_crc.md R193). -/
def crc16Good (p : Pkt) : Bool := p.crc == CRC16_RESIDUAL

/-- The data packet is a duplicate: its PID is not the one `toggle_out` expects (spec/44_endpoint.md R250). -/
def isDuplicate (pid : Byte) (e : EpEntry) : Bool := pid != dataPid e.toggleOut

/-- The bootloader latch fires (spec/44_endpoint.md R244). -/
def latchFires (d : Dev) (endp : BitVec 4) : Bool := d.rebootArmed == 2#2 && endp == 0#4

/-- The callback handles the IN token (spec/44_endpoint.md R246). -/
def isCallback (endp : BitVec 4) (e : EpEntry) : Bool := endp != 0#4 || e.custom

/-- `dev.reboot_armed` after an OUT payload equal to the cookie (spec/44_endpoint.md R252, R259). -/
def latchAfterCookie (latch : BitVec 2) : BitVec 2 := if latch = 1#2 ∨ latch = 2#2 then 2#2 else 0#2

/-- The byte offset of the drain's next packet (spec/44_endpoint.md R247). -/
def drainOffset (e : EpEntry) : Word := e.count * BitVec.ofNat 32 ENDPOINT0_SIZE

/-- The drain has nothing left to send. -/
def drainDone (e : EpEntry) : Bool := decide (e.maxLen.toNat ≤ (drainOffset e).toNat)

/-- How many bytes the drain's next packet carries. -/
def drainLen (e : EpEntry) : Nat := min ENDPOINT0_SIZE (e.maxLen.toNat - (drainOffset e).toNat)

/-- The entry armed by GET_DESCRIPTOR; a lookup miss arms nothing (spec/44_endpoint.md R255). -/
def armEntry (answer : Option (Word × Word)) (wLength : BitVec 16) (e : EpEntry) : EpEntry :=
  match answer with
  | some (ptr, len) =>
    { e with source := ptr, maxLen := BitVec.ofNat 32 (min wLength.toNat len.toNat), count := 0 }
  | none => e

end Sys2Proof.Machine
end

