-- ==== Sys2Proof/Machine/Ops.lean ====
section
/-! DEFINITION. The shared operations: the writes of the register files, taking the interrupt and returning from it, `drop`,
the calls of the transmit unit, and reset. -/

namespace Sys2Proof.Machine

open Config

/-- The outcome of one instruction or step. -/
abbrev Out := Host.Outcome State Fault Refusal

/-! ## Register files -/

/-- `ep[i] <- e`; an index the file does not have is written nowhere. -/
def setEp (s : State) (i : Nat) (e : EpEntry) : State := { s with ep := s.ep.set i e }

/-- `ep[dev.current_endpoint] <- e`. -/
def setCurrentEp (s : State) (e : EpEntry) : State := setEp s s.dev.currentEndpoint.toNat e

/-- The device state rewritten. -/
def setDev (s : State) (d : Dev) : State := { s with dev := d }

/-- Symbols driven on `line_out`, in time order. -/
def drive (s : State) (syms : List LineSymbol) : State :=
  { s with io := { s.io with out := s.io.out ++ syms.map Output.sym } }

/-- `OSC_CTL <- v` (spec/45_se0_trim.md R307): the register, and the write on `osc_ctl_wr` and `osc_ctl_we` (spec/10_state.md R53),
which takes place even where the value is the one the register holds (R308). -/
def writeOscCtl (s : State) (v : Word) : State :=
  { s with chip := { s.chip with oscCtl := v }, io := { s.io with out := s.io.out ++ [Output.oscCtl v] } }

/-- A byte of the packet buffer written by the callback (spec/20_memory.md R64). The bytes before it that no rule has given a value
keep the free values they read as (notes/assumptions/13.md). -/
def writeScratch (s : State) (w : Fin PACKET_BUF_CAP × Byte) : State :=
  { s with pkt := { s.pkt with
      buf := (s.pkt.buf ++ (List.range (w.1 + 1 - s.pkt.buf.length)).map fun i => scratchFree s.freeCount (s.pkt.buf.length + i)).set
        w.1 w.2 } }

/-- Several bytes of the packet buffer written, in order. -/
def writesScratch (s : State) (ws : List (Fin PACKET_BUF_CAP × Byte)) : State := ws.foldl writeScratch s

/-! ## The interrupt (spec/60_exceptions.md R321 to R324, R330) -/

/-- Entry: the event is taken. `rx_phase` goes from `Idle` to `Preamble`; `pkt` and the hidden receive state hold no defined
value; `tx_oe` = 0; no register of `ep` or `dev` is touched (R323). The event brings the free inputs of the invocation, and
what the application has rewritten of the source memory. What another agent of the chip has made of `OSC_CTL` comes with the event
too: the spec does not say whether one can change it (DESIGN CHOICE, notes/assumptions/31.md). -/
def enterInvocation (ev : BusEvent) (later : List BusEvent) (s : State) : State :=
  { s with
    rxPhase := .preamble
    pkt := freePkt s.freeCount
    rx := freeRx s.freeCount
    tx := { s.tx with oe := false }
    chip := { oscCtl := ev.oscCtl.getD s.chip.oscCtl, cycCnt := ev.cycCnt }
    mem := memWrites s.mem ev.memWrites
    io := { s.io with events := later, lineIn := ev.line, userIn := ev.userIn, gap := ev.gap }
    freeCount := s.freeCount + 1 }

/-- Return: `rx_phase <- Idle`, `tx_oe` = 0 (R324). What is left of the bus event is consumed (spec/41_receive.md R170). -/
def endInvocation (s : State) : State :=
  { s with rxPhase := .idle, tx := { s.tx with oe := false }, io := { s.io with lineIn := [] } }

/-- `drop(cause)`: the invocation ends at once, nothing is transmitted, no register is written, the cause is recorded
nowhere (R330). -/
def drop (_cause : Cause) (s : State) : Out := .next (endInvocation s)

/-! ## Calls of the transmit unit (spec/40_transmit.md) -/

/-- A handler calls `send`: the invocation goes to `Transmit` with the command waiting to be decoded. -/
def callSend (c : SendCmd) (s : State) : State := { s with rxPhase := .transmit, tx := { s.tx with cmd := some c } }

/-- `send_empty(token)` (R130). -/
def sendEmpty (token : Byte) (s : State) : State := callSend ⟨token, s.cfg.zero2, 2, 0#8⟩ s

/-- `send_ack()` (R131); no byte is read through the pointer (R129). -/
def sendAck (s : State) : State := callSend ⟨PID_ACK, 0, 0, 0#8⟩ s

/-- The gap before a response passes: the invocation's number of idle symbols, at which the engine does not drive the line
(spec/70_reset_and_hazards.md R381). -/
def passGap (s : State) : State := { s with io := { s.io with out := s.io.out ++ List.replicate s.io.gap Output.idle } }

/-- The transmit unit takes up a `send` of the bytes given: after the gap the bits behind the sync pattern are queued, the driver is
enabled with the line at J, and the run counter is 0 (R120, R122 to R124, R127). -/
def loadTx (bytes : List Byte) (s : State) : State :=
  { passGap s with
    rxPhase := .transmit
    tx := { s.tx with level := .J, ones := 0, oe := true, cmd := none, synced := false, bits := bitsLsb bytes } }

/-! ## Reset (spec/70_reset_and_hazards.md R360, R361, R366) -/

/-- The endpoint file of `n` entries after reset and the configuration writes of the initialisation. -/
def initEndpoints (n : Nat) (custom : List Bool) : List EpEntry :=
  (List.range n).map fun i => { EpEntry.reset with custom := custom.getD i false }

/-- `rst`: every register of the engine takes its reset value, a transmission in progress is cut off, an invocation in progress
is abandoned, and the initialisation writes the `custom` flags. The registers of the chip, the memory, the parameters and the
bus events still to come are not the engine's. -/
def resetEngine (s : State) : State :=
  { s with
    ep := initEndpoints s.ep.length s.cfg.customInit
    dev := Dev.reset
    pkt := Pkt.reset
    rx := State.reset.rx
    tx := Tx.reset
    rxPhase := .idle
    stage := .packet
    halted := false
    io := { s.io with rst := false, lineIn := [] } }

end Sys2Proof.Machine
end

