-- ==== Sys2Proof/Machine/Keepalive.lean ====
section
/-! DEFINITION. KEEPALIVE: the SE0 handler and the clock-trim servo (spec/45_se0_trim.md). -/

namespace Sys2Proof.Machine

open Config

/-- The direction of a trim step (spec/45_se0_trim.md R306). -/
inductive TrimDir where
  | tooFast
  | tooSlow
  deriving DecidableEq, Repr

/-- The mask of the trim field (R307). -/
def trimMask (p : Params) : Word := BitVec.ofNat 32 (2 ^ p.trimW - 1) <<< p.trimShift

/-- The trim code of a register value (R307). -/
def trimCode (p : Params) (v : Word) : Nat := ((v &&& trimMask p) >>> p.trimShift).toNat

/-- The code after one step: one up or one down, saturating at both ends (R306, R308). -/
def trimNext (p : Params) (dir : TrimDir) (f : Nat) : Nat :=
  if (dir == .tooSlow) = p.trimUpIsFaster then min (f + 1) (2 ^ p.trimW - 1) else f - 1

/-- `apply_trim`: the field rewritten, every other bit as read (R307). -/
def applyTrim (p : Params) (dir : TrimDir) (v : Word) : Word :=
  (v &&& ~~~trimMask p) ||| (BitVec.ofNat 32 (trimNext p dir (trimCode p v)) <<< p.trimShift)

/-- The error of an interval, read as signed (R304). -/
def keepaliveErr (delta : Word) : Int := (delta - KEEPALIVE_NOMINAL).toInt

/-- The error lies in the open band (R304). -/
def inBand (p : Params) (err : Int) : Bool := decide (-(p.trimBand : Int) < err) && decide (err < p.trimBand)

/-- `handle_se0` on the servo's registers: the device state, and what is written to `OSC_CTL` if a trim step is made, for a counter
value `now` (R302). -/
def servo (p : Params) (now : Word) (d : Dev) (osc : Word) : Dev × Option Word :=
  let delta := now - d.lastSe0
  let d1 := { d with lastSe0 := now, deltaSe0 := delta }
  if inBand p (keepaliveErr delta) then
    let w := d.se0Windup + BitVec.ofInt 32 (keepaliveErr delta)
    if (p.trimThreshold : Int) ≤ w.toInt then ({ d1 with se0Windup := 0 }, some (applyTrim p .tooFast osc))
    else if w.toInt ≤ -(p.trimThreshold : Int) then ({ d1 with se0Windup := 0 }, some (applyTrim p .tooSlow osc))
    else ({ d1 with se0Windup := w }, none)
  else (d1, none)

/-- KEEPALIVE: the handler runs once on the counter value of this invocation, and nothing is transmitted (R300 to R302). `OSC_CTL` is
read and written in this one step and no other step of an invocation changes it: whether another agent of the chip could in between is
outside the sources by R307 (DESIGN CHOICE, notes/assumptions/31.md). -/
def execKeepalive (s : State) : Out :=
  let r := servo s.cfg s.chip.cycCnt s.dev s.chip.oscCtl
  let s1 := setDev s r.1
  .next (endInvocation (match r.2 with
    | some v => writeOscCtl s1 v
    | none => s1))

end Sys2Proof.Machine
end

