-- ==== Sys2Proof/Machine/Line.lean ====
section
/-! DEFINITION. The line instructions SYNC, EOP, BIT0 and BIT1. While `rx_phase` is `Transmit` the transmit unit drives them
(spec/40_transmit.md R122 to R125); at any other time the receive unit has decoded them (spec/41_receive.md R156 to R169). -/

namespace Sys2Proof.Machine

open Config

/-! ## The receive unit -/

/-- The polynomial a PID selects (spec/41_receive.md R167). -/
def selectPoly (pid : Byte) : Poly :=
  if pid = PID_IN ∨ pid = PID_OUT ∨ pid = PID_SETUP then .crc5
  else if pid = PID_DATA0 ∨ pid = PID_DATA1 then .crc16
  else .none

/-- `pkt.crc` when the polynomial is selected (R167); with no polynomial it stays as it is. -/
def initCrc (poly : Poly) (crc : BitVec 16) : BitVec 16 :=
  match poly with
  | .crc5 => CRC5_INIT.setWidth 16
  | .crc16 => CRC16_INIT
  | .none => crc

/-- One step of the running CRC with the selected polynomial (R166). -/
def stepCrc (poly : Poly) (crc : BitVec 16) (b : Bool) : BitVec 16 :=
  match poly with
  | .crc5 => (crcStep CRC5_POLY (crc.setWidth 5) b).setWidth 16
  | .crc16 => crcStep CRC16_POLY crc b
  | .none => crc

/-- `cur[k] <- b`. -/
def setBit (cur : Byte) (k : Nat) (b : Bool) : Byte :=
  if b then cur ||| (1#8 <<< k) else cur &&& ~~~(1#8 <<< k)

/-- A data bit stored: shifted into the CRC if the PID is known, put into the byte being assembled, and the byte stored when it
is full; the first byte is the PID and selects the polynomial (R159, R166, R167, R169). -/
def pktPush (p : Pkt) (b : Bool) : Pkt :=
  let crc := if 8 ≤ p.nbits then stepCrc p.poly p.crc b else p.crc
  let cur := setBit p.cur (p.nbits % 8) b
  let n := p.nbits + 1
  if n % 8 = 0 then
    if n = 8 then
      { buf := p.buf ++ [cur], nbits := n, pid := cur, poly := selectPoly cur, crc := initCrc (selectPoly cur) crc, cur := 0 }
    else { p with buf := p.buf ++ [cur], nbits := n, crc := crc, cur := 0 }
  else { p with nbits := n, crc := crc, cur := cur }

/-- The packet record at the end of the preamble: `nbits` 0, no polynomial; `pid` and `crc` are not written (R156). -/
def pktStart (p : Pkt) : Pkt := { p with buf := [], nbits := 0, poly := .none, cur := 0 }

/-- The packet record after the bytes given have been received. -/
def pktOfBytes (bytes : List Byte) : Pkt := (bitsLsb bytes).foldl pktPush (pktStart Pkt.reset)

/-- SYNC received: the data loop begins with `rx_prev` = K and `rx_ones` = 1 (R156). -/
def rxSync (s : State) : State :=
  { s with rxPhase := .data, rx := { prev := .K, ones := 1 }, pkt := pktStart s.pkt }

/-- `rx_prev` after a bit: the level the bit was decoded from (R157). -/
def levelAfter (l : LineLevel) (b : Bool) : LineLevel := if b then l else l.flip

/-- A bit received: unstuffing, stuffing violation, over-length, or a data bit stored (R158, R164, R165, R159). -/
def rxBit (b : Bool) (s : State) : Out :=
  let prev := levelAfter s.rx.prev b
  if s.rx.ones = STUFF_RUN then
    if b then drop .eStuff s else .next { s with rx := { prev := prev, ones := 0 } }
  else if s.pkt.nbits = 8 * PACKET_BUF_CAP then drop .eOverlen s
  else
    .next { s with rx := { prev := prev, ones := if b then s.rx.ones + 1 else 0 }, pkt := pktPush s.pkt b }

/-- EOP received: the alignment check, then the dispatcher (R161, R162, R168). -/
def rxEop (s : State) : Out :=
  if s.pkt.nbits = 0 ∨ s.pkt.nbits % 8 ≠ 0 then drop .eAlign s
  else .next { s with rxPhase := .dispatch, stage := .packet }

/-! ## The transmit unit -/

/-- One NRZI symbol driven: a 0 switches the level, a 1 repeats it (spec/40_transmit.md R124). -/
def txSymbol (b : Bool) (s : State) : State :=
  let l := levelAfter s.tx.level b
  drive { s with tx := { s.tx with level := l } } [l.sym]

/-- One bit driven, with a 0 stuffed after the sixth consecutive 1 (R123). -/
def txBit (b : Bool) (s : State) : State :=
  let s1 := txSymbol b s
  if b then
    if s.tx.ones + 1 = STUFF_RUN then
      let s2 := txSymbol false s1
      { s2 with tx := { s2.tx with ones := 0 } }
    else { s1 with tx := { s1.tx with ones := s.tx.ones + 1 } }
  else { s1 with tx := { s1.tx with ones := 0 } }

/-- The sync byte 0x80 driven, least significant bit first (R122). -/
def txSync (s : State) : State := (byteBits 0x80#8).foldl (fun s b => txBit b s) s

/-- `boot_reset()`: the output event, then `halted` (spec/44_endpoint.md R268). -/
def bootReset (s : State) : State :=
  { s with halted := true, io := { s.io with out := s.io.out ++ [Output.bootReset] } }

/-- EOP driven: two bit times of SE0, J, release of the line (spec/40_transmit.md R125), then `boot_reset()` if the handler
asked for it (spec/44_endpoint.md R243), and the invocation returns. -/
def txEop (s : State) : State :=
  let s1 := drive s (List.replicate EOP_SE0_BITS .SE0 ++ [.J])
  let s2 := if s.tx.boot then bootReset s1 else s1
  endInvocation { s2 with tx := { s2.tx with boot := false } }

/-! ## The meanings -/

/-- SYNC (spec/30_encoding.md R82). -/
def execSync (s : State) : Out := if s.rxPhase = .transmit then .next (txSync s) else .next (rxSync s)

/-- EOP (spec/30_encoding.md R83). -/
def execEop (s : State) : Out := if s.rxPhase = .transmit then .next (txEop s) else rxEop s

/-- BIT0: a transition (spec/30_encoding.md R81). -/
def execBit0 (s : State) : Out := if s.rxPhase = .transmit then .next (txBit false s) else rxBit false s

/-- BIT1: no transition (spec/30_encoding.md R81). -/
def execBit1 (s : State) : Out := if s.rxPhase = .transmit then .next (txBit true s) else rxBit true s

end Sys2Proof.Machine
end

