-- ==== Sys2Proof/Machine/Packet.lean ====
section
/-! DEFINITION. The packet instructions: ACK, DATA0, DATA1, IN, OUT, SETUP, UNKNOWN_PID
(spec/43_dispatch.md, spec/44_endpoint.md). Lengths have been tested by the decoder. -/

namespace Sys2Proof.Machine

open Config

/-! ## Tokens -/

/-- `dispatch_token`: the first failing test drops; a good token goes to its handler with the entry it names
(spec/43_dispatch.md R213 to R215). -/
def dispatchToken (addr : BitVec 7) (endp : BitVec 4) (crc : BitVec 5) (s : State) (handler : EpEntry → State → Out) : Out :=
  match tokenFault addr endp crc s with
  | some c => drop c s
  | none =>
    match s.endpoint? endp.toNat with
    | some e => handler e s
    | none => drop .eEndp s

/-- The entry after a SETUP token (spec/44_endpoint.md R241). -/
def setupEntry (e : EpEntry) : EpEntry :=
  { e with count := 0, maxLen := 0, source := 0, toggleIn := true, toggleOut := false }

/-- `handle_setup` (R241). -/
def handleSetup (endp : BitVec 4) (e : EpEntry) (s : State) : Out :=
  .next (endInvocation (setEp (setDev s { s.dev with currentEndpoint := endp, setupRequest := true })
    endp.toNat (setupEntry e)))

/-- `handle_out` (R242). -/
def handleOut (endp : BitVec 4) (_e : EpEntry) (s : State) : Out :=
  .next (endInvocation (setDev s { s.dev with currentEndpoint := endp }))

/-- The call of the callback with what it answers in this invocation: it may write its own entry and the scratch buffer
(spec/20_memory.md R64), and it transmits at most once, from any address (R262, R263). -/
def callUserIn (endp : BitVec 4) (tok : Byte) (s : State) : Out :=
  let s1 := match s.io.userIn.entry with
    | some e' => setEp s endp.toNat e'
    | none => s
  let s2 := writesScratch s1 s.io.userIn.scratch
  match s.io.userIn.action with
  | .silent => .next (endInvocation s2)
  | .send t ptr len poly => .next (callSend ⟨t.getD tok, ptr, len, poly⟩ s2)
  | .empty t => .next (sendEmpty (t.getD tok) s2)

/-- `drain` (R247). -/
def drain (e : EpEntry) (tok : Byte) (s : State) : Out :=
  if drainDone e then .next (sendEmpty tok s)
  else .next (callSend ⟨tok, e.source + drainOffset e, drainLen e, 2#8⟩ s)

/-- `handle_in`: the latch, then the callback, then the drain (R243 to R247). -/
def handleIn (endp : BitVec 4) (e : EpEntry) (s : State) : Out :=
  let s1 := setDev s { s.dev with currentEndpoint := endp }
  let tok := dataPid e.toggleIn
  if latchFires s.dev endp then .next (sendEmpty tok { s1 with tx := { s1.tx with boot := true } })
  else if isCallback endp e then callUserIn endp tok s1
  else drain e tok s1

/-! ## Data packets -/

/-- `dispatch_data` and `handle_data` up to the point where the payload is looked at: CRC16, duplicate, URB length
(spec/43_dispatch.md R219, spec/44_endpoint.md R249 to R252, R260). -/
def handleData (pid : Byte) (n : Nat) (s : State) : Out :=
  if crc16Good s.pkt then
    match s.currentEp? with
    | none => .fault .noEndpoint
    | some e =>
      if isDuplicate pid e then .next (sendAck s)
      else if s.dev.setupRequest then
        if n = 8 then
          .next { setDev s { s.dev with setupRequest := false } with rxPhase := .dispatch, stage := .request }
        else drop .eUrbLen s
      else .next { s with rxPhase := .dispatch, stage := .payload }
  else drop .eCrc16 s

/-! ## The meanings -/

/-- The entry after a host ACK (spec/44_endpoint.md R248). -/
def ackEntry (e : EpEntry) : EpEntry := { e with toggleIn := !e.toggleIn, count := e.count + 1 }

/-- ACK: `handle_ack`, unconditional (R248). -/
def execAck (s : State) : Out :=
  match s.currentEp? with
  | none => .fault .noEndpoint
  | some e => .next (endInvocation (setCurrentEp s (ackEntry e)))

/-- DATA0. -/
def execData0 (payload : List Byte) (s : State) : Out := handleData PID_DATA0 payload.length s

/-- DATA1. -/
def execData1 (payload : List Byte) (s : State) : Out := handleData PID_DATA1 payload.length s

/-- IN (spec/43_dispatch.md R216). -/
def execIn (addr : BitVec 7) (endp : BitVec 4) (crc : BitVec 5) (s : State) : Out :=
  dispatchToken addr endp crc s (handleIn endp)

/-- OUT (R217). -/
def execOut (addr : BitVec 7) (endp : BitVec 4) (crc : BitVec 5) (s : State) : Out :=
  dispatchToken addr endp crc s (handleOut endp)

/-- SETUP (R218). -/
def execSetup (addr : BitVec 7) (endp : BitVec 4) (crc : BitVec 5) (s : State) : Out :=
  dispatchToken addr endp crc s (handleSetup endp)

/-- UNKNOWN_PID: ignored (spec/43_dispatch.md R220). -/
def execUnknownPid (s : State) : Out := drop .ePid s

end Sys2Proof.Machine
end

