-- ==== Sys2Proof/Machine/Request.lean ====
section
/-! DEFINITION. The control requests and the OUT payloads (spec/44_endpoint.md R252 to R259), each followed by the acceptance of
R253. -/

namespace Sys2Proof.Machine

open Config

/-- The rest of `handle_data` for a packet that is taken: what the payload writes, the latch, then `toggle_out` inverted and
ACK sent (spec/44_endpoint.md R249, R253, R254). `e` is `ep[dev.current_endpoint]`. -/
def acceptData (write : EpEntry → EpEntry) (addr : BitVec 16) (latch : BitVec 2) (s : State) : Out :=
  match s.currentEp? with
  | none => .fault .noEndpoint
  | some e =>
    let e1 := write e
    .next (sendAck (setDev (setCurrentEp s { e1 with toggleOut := !e1.toggleOut })
      { s.dev with myAddress := addr, rebootArmed := latch }))

/-- GET_DESCRIPTOR (R255); the latch returns to 0 (R254). -/
def execGetDescriptor (wValue wIndex wLength : BitVec 16) (s : State) : Out :=
  acceptData (armEntry (descLookup s.cfg (selector wValue wIndex)) wLength) s.dev.myAddress 0#2 s

/-- SET_ADDRESS: all 16 bits of `wValue` (R256); the latch returns to 0. -/
def execSetAddress (wValue : BitVec 16) (s : State) : Out := acceptData id wValue 0#2 s

/-- SET_REPORT_BOOT: the latch goes to 1 from any value (R257). -/
def execSetReportBoot (s : State) : Out := acceptData id s.dev.myAddress 1#2 s

/-- UNRECOGNISED_REQUEST: nothing but the latch, to 0 (R258). -/
def execUnrecognisedRequest (s : State) : Out := acceptData id s.dev.myAddress 0#2 s

/-- OUT_PAYLOAD_COOKIE: from 1 or 2 the latch goes to 2, else to 0 (R252, R259). -/
def execOutPayloadCookie (s : State) : Out := acceptData id s.dev.myAddress (latchAfterCookie s.dev.rebootArmed) s

/-- OUT_PAYLOAD_OTHER: discarded, the latch to 0 (R252). -/
def execOutPayloadOther (s : State) : Out := acceptData id s.dev.myAddress 0#2 s

end Sys2Proof.Machine
end

