-- ==== Sys2Proof/Machine/Send.lean ====
section
/-! DEFINITION. The `send` commands (spec/40_transmit.md R120, R121, R133). The transmit unit then drives SYNC, the bits and EOP as
instructions of their own. -/

namespace Sys2Proof.Machine

open Config

/-- SEND_NOCRC: the token byte and the payload. -/
def execSendNoCrc (token : Byte) (ptr : Word) (len : Nat) (s : State) : Out :=
  if len ≤ MAX_PAYLOAD then .next (loadTx (txBytesNoCrc token (sourceReadN s ptr len)) s) else .refused .sendTooLong

/-- SEND_CRC16: the token byte, the payload and its CRC16. -/
def execSendCrc16 (token : Byte) (ptr : Word) (len : Nat) (s : State) : Out :=
  if len ≤ MAX_PAYLOAD then .next (loadTx (txBytesCrc16 token (sourceReadN s ptr len)) s) else .refused .sendTooLong

end Sys2Proof.Machine
end

