-- ==== Sys2Proof/Machine/Dispatch.lean ====
section
/-! DEFINITION. One arm per instruction. -/

namespace Sys2Proof.Machine

def exec (i : Instr) (s : State) : Host.Outcome State Fault Refusal :=
  match i with
  | .ack => Sys2Proof.Machine.execAck s
  | .data0 payload _ => Sys2Proof.Machine.execData0 payload s
  | .data1 payload _ => Sys2Proof.Machine.execData1 payload s
  | .inTok addr endp crc => Sys2Proof.Machine.execIn addr endp crc s
  | .outTok addr endp crc => Sys2Proof.Machine.execOut addr endp crc s
  | .setup addr endp crc => Sys2Proof.Machine.execSetup addr endp crc s
  | .unknownPid _ _ => Sys2Proof.Machine.execUnknownPid s
  | .getDescriptor _ wValue wIndex wLength => Sys2Proof.Machine.execGetDescriptor wValue wIndex wLength s
  | .setAddress _ wValue _ _ => Sys2Proof.Machine.execSetAddress wValue s
  | .setReportBoot _ _ => Sys2Proof.Machine.execSetReportBoot s
  | .unrecognisedRequest _ _ _ _ _ => Sys2Proof.Machine.execUnrecognisedRequest s
  | .outPayloadCookie => Sys2Proof.Machine.execOutPayloadCookie s
  | .outPayloadOther _ => Sys2Proof.Machine.execOutPayloadOther s
  | .sendNoCrc token ptr len => Sys2Proof.Machine.execSendNoCrc token ptr len s
  | .sendCrc16 token ptr len => Sys2Proof.Machine.execSendCrc16 token ptr len s
  | .sync => Sys2Proof.Machine.execSync s
  | .eop => Sys2Proof.Machine.execEop s
  | .keepalive => Sys2Proof.Machine.execKeepalive s
  | .bit0 => Sys2Proof.Machine.execBit0 s
  | .bit1 => Sys2Proof.Machine.execBit1 s

end Sys2Proof.Machine
end

