-- ==== Sys2Proof/Machine/Fetch.lean ====
section
/-! DEFINITION. What each phase fetches, moving past it, one step with the meanings as a parameter, and placing an instruction where
the next step fetches it. -/

namespace Sys2Proof.Machine

open Config

/-- The payload of a received data packet: what stands between the PID and the two bytes of the CRC
(spec/30_encoding.md R91). -/
def pktPayload (p : Pkt) : List Byte := (p.buf.drop 1).take (p.buf.length - 3)

/-- The code the machine stands at. In `Preamble` the line's next eight symbols (a list that ends is continued by J); in `Data`
the next symbol against `rx_prev`; in `Dispatch` the packet or its payload; in `Transmit` the waiting `send`, then the sync
pattern, the bits, and the end of packet. -/
def fetch (s : State) : Code :=
  match s.rxPhase with
  | .idle => .preamble (s.io.lineIn.take PREAMBLE_MIN)
  | .preamble => .preamble (s.io.lineIn.take PREAMBLE_MIN)
  | .data => .line s.rx.prev (s.io.lineIn.headD .J)
  | .dispatch =>
    match s.stage with
    | .packet => .packet s.pkt.buf
    | .request => .urb (pktPayload s.pkt)
    | .payload => .payload (pktPayload s.pkt)
  | .transmit =>
    match s.tx.cmd with
    | some c => .send c
    | none =>
      if s.tx.synced then
        match s.tx.bits with
        | b :: _ => .line s.tx.level (nrziSymbol s.tx.level b)
        | [] => .line s.tx.level .SE0
      else .preamble syncPattern

/-- Moving past what was fetched. -/
def advance (s : State) : State :=
  match s.rxPhase with
  | .idle => s
  | .preamble => { s with io := { s.io with lineIn := s.io.lineIn.drop PREAMBLE_MIN } }
  | .data => { s with io := { s.io with lineIn := s.io.lineIn.drop 1 } }
  | .dispatch => s
  | .transmit =>
    match s.tx.cmd with
    | some _ => { s with tx := { s.tx with cmd := none } }
    | none =>
      if s.tx.synced then { s with tx := { s.tx with bits := s.tx.bits.drop 1 } }
      else { s with tx := { s.tx with synced := true } }

/-- A code the decoder rejects: a silent drop (spec/60_exceptions.md R330), or a `send` outside the contract
(spec/40_transmit.md R133). -/
def rejected (r : Reject) (s : State) : Out :=
  match r with
  | .drop c => drop c s
  | .reservedPoly => .refused .reservedPoly
  | .sendTooLong => .refused .sendTooLong

/-- Between invocations: a waiting bus event starts one (spec/60_exceptions.md R321, R323); with none the engine waits. -/
def idleStep (s : State) : State :=
  match s.io.events with
  | [] => s
  | ev :: later => enterInvocation ev later s

/-- A halted engine: a bus event passes and starts no invocation; no register changes (spec/43_dispatch.md R223). -/
def haltedStep (s : State) : State := { s with io := { s.io with events := s.io.events.drop 1 } }

/-- One step. `rst` comes before everything (spec/70_reset_and_hazards.md R360), then `halted` (spec/43_dispatch.md R221, R223),
then, between invocations, the interrupt; inside an invocation the fetched code is decoded, passed and run. -/
def stepWith (run : Instr → State → Out) (s : State) : Out :=
  if s.io.rst then .next (resetEngine s)
  else if s.halted then .next (haltedStep s)
  else if s.rxPhase = .idle then .next (idleStep s)
  else
    match decode (fetch s) with
    | .ok i => run i (advance s)
    | .error r => rejected r (advance s)

/-- A data packet that carries the payload, with its CRC16: the packet record a handler finds when it looks at the payload. -/
def carrying (payload : List Byte) : Pkt :=
  pktOfBytes (PID_DATA0 :: (payload ++ [lo8 (crc16 payload), hi8 (crc16 payload)]))

/-- A state whose next step fetches the code: the engine is not halted, `rst` is not asserted, and the phase and the place the
phase fetches from are set. -/
def placeCode (c : Code) (s : State) : State :=
  let s1 := { s with halted := false, io := { s.io with rst := false } }
  match c with
  | .preamble syms => { s1 with rxPhase := .preamble, io := { s1.io with lineIn := syms } }
  | .line prev sym => { s1 with rxPhase := .data, rx := { s1.rx with prev := prev }, io := { s1.io with lineIn := [sym] } }
  | .packet bytes => { s1 with rxPhase := .dispatch, stage := .packet, pkt := pktOfBytes bytes }
  | .urb bytes => { s1 with rxPhase := .dispatch, stage := .request, pkt := carrying bytes }
  | .payload bytes => { s1 with rxPhase := .dispatch, stage := .payload, pkt := carrying bytes }
  | .send cmd => { s1 with rxPhase := .transmit, tx := { s1.tx with cmd := some cmd } }

end Sys2Proof.Machine
end

