-- ==== Sys2Proof/Machine/Wire.lean ====
section
/-! DEFINITION. The symbols of a whole frame as a function of its bytes (spec/40_transmit.md R123 to R126): the packet-level view that
the transmit unit's steps and the receive unit's steps are compared with. The machine does not call it. -/

namespace Sys2Proof.Machine

open Config

/-- The bit stuffer with its run counter (R123). -/
def stuff : Nat → List Bool → List Bool
  | _, [] => []
  | ones, b :: bs =>
    if b then if ones + 1 = STUFF_RUN then true :: false :: stuff 0 bs else true :: stuff (ones + 1) bs
    else false :: stuff 0 bs

/-- The NRZI encoder with its level (R124). -/
def nrziEncode : LineLevel → List Bool → List LineSymbol
  | _, [] => []
  | l, b :: bs => (levelAfter l b).sym :: nrziEncode (levelAfter l b) bs

/-- The end of packet as driven (R125). -/
def eopSymbols : List LineSymbol := List.replicate EOP_SE0_BITS .SE0 ++ [.J]

/-- `frame(bytes)` (R126). -/
def frame (bytes : List Byte) : List LineSymbol :=
  nrziEncode .J (stuff 0 (byteBits 0x80#8 ++ bitsLsb bytes)) ++ eopSymbols

end Sys2Proof.Machine
end

