-- ==== Sys2Proof/Safety.lean ====
section
/-! DEFINITION. What a safe run is, the invariant that every step keeps, and the measure by which an invocation ends. -/

namespace Sys2Proof.Machine

open Config

/-- An outcome that is not a fault. -/
def Out.noFault : Out → Prop
  | .fault _ => False
  | _ => True

/-- The data bits received so far, in arrival order: the stored bytes and the bits of the byte being assembled. -/
def storedBits (p : Pkt) : List Bool := bitsLsb p.buf ++ (byteBits p.cur).take (p.nbits % 8)

/-- The running CRC of the bits given, with the polynomial selected (spec/41_receive.md R166, R167). -/
def runCrc (poly : Poly) (bits : List Bool) : BitVec 16 :=
  bits.foldl (stepCrc poly) (initCrc poly 0)

/-- The packet record of a receive unit at work: within its capacity, the bytes stored as they fill (spec/20_memory.md R61, R62). -/
structure RxOk (p : Pkt) : Prop where
  cap : p.nbits ≤ 8 * PACKET_BUF_CAP
  stored : p.buf.length = p.nbits / 8

/-- The running CRC is a function of the bytes after the PID alone (spec/41_receive.md R166), and the PID and polynomial are those
of the first byte (R159, R167). -/
structure CrcTracks (p : Pkt) : Prop where
  pid : 8 ≤ p.nbits → p.buf.head? = some p.pid
  poly : 8 ≤ p.nbits → p.poly = selectPoly p.pid
  noPoly : p.nbits < 8 → p.poly = .none
  crc : 8 ≤ p.nbits → p.poly ≠ .none → p.crc = runCrc p.poly ((storedBits p).drop 8)

/-- `send_empty` with the data PID of a sequence bit is what waits or what is being driven: it is the waiting `send`, or the bits left
are the last of its packet's (spec/40_transmit.md R130). -/
def EmptyResponseQueued (tg : Bool) (s : State) : Prop :=
  s.tx.cmd = some ⟨dataPid tg, s.cfg.zero2, 2, 0#8⟩ ∨
    (s.tx.cmd = none ∧ s.tx.bits <:+ bitsLsb [dataPid tg, 0x00#8, 0x00#8])

/-- The invariant. -/
structure Inv (s : State) : Prop where
  /-- A legal number of endpoints (spec/00_scope.md R7). -/
  endpoints : 1 ≤ s.ep.length ∧ s.ep.length ≤ ENDPOINTS_MAX
  /-- `dev.current_endpoint` indexes an existing entry (spec/10_state.md R31). -/
  current : s.dev.currentEndpoint.toNat < s.ep.length
  /-- The latch never holds 3 (spec/10_state.md R37). -/
  latch : s.dev.rebootArmed ≠ 3#2
  /-- The source memory is in canonical form. -/
  mem : Memory.wf s.mem
  /-- The driver is enabled exactly while a `send` is being driven (spec/40_transmit.md R128). -/
  driver : s.tx.oe = true ↔ s.rxPhase = .transmit ∧ s.tx.cmd = none
  /-- The transmit unit's run counter stays below the stuffing run (spec/40_transmit.md R123). -/
  txOnes : s.tx.oe = true → s.tx.ones < STUFF_RUN
  /-- At most a packet of 11 bytes is being driven (spec/30_encoding.md R101). -/
  txBits : s.tx.oe = true → s.tx.bits.length ≤ 88
  /-- The receive unit's run counter (spec/10_state.md R46). -/
  rxOnes : s.rxPhase = .data → s.rx.ones ≤ STUFF_RUN
  /-- The packet record while it is being received. -/
  rxData : s.rxPhase = .data → RxOk s.pkt ∧ CrcTracks s.pkt
  /-- The packet record in the dispatcher: a whole number of bytes, 1 to 12 (spec/41_receive.md R160, R162). -/
  rxPacket : s.rxPhase = .dispatch → RxOk s.pkt ∧ CrcTracks s.pkt ∧ s.pkt.nbits % 8 = 0 ∧ 0 < s.pkt.nbits
  /-- A halted engine stands between invocations (spec/10_state.md R48). -/
  halted : s.halted = true → s.rxPhase = .idle
  /-- `boot_reset()` is pending only after the latch fired on endpoint 0, behind the empty response (spec/44_endpoint.md R244). -/
  boot : s.tx.boot = true → s.rxPhase = .transmit ∧ s.dev.rebootArmed = 2#2 ∧ s.dev.currentEndpoint = 0#4 ∧
    ∃ tg, EmptyResponseQueued tg s
  /-- The parameters satisfy their constraints (spec/92_eei_decisions.md section 2). -/
  params : s.cfg.wf = true
  /-- The windup stays below the threshold (spec/45_se0_trim.md R305). -/
  windup : -(s.cfg.trimThreshold : Int) < s.dev.se0Windup.toInt ∧ s.dev.se0Windup.toInt < s.cfg.trimThreshold

/-- A bound on the steps an invocation still takes (spec/41_receive.md R173, spec/70_reset_and_hazards.md R382). -/
def invocationMeasure (s : State) : Nat :=
  match s.rxPhase with
  | .idle => 0
  | .transmit =>
    match s.tx.cmd with
    | some _ => 100
    | none => if s.tx.synced then 1 + s.tx.bits.length else 2 + s.tx.bits.length
  | .dispatch => if s.stage = .packet then 102 else 101
  | .data => 103 + 2 * (97 - s.pkt.nbits) + (if s.rx.ones = STUFF_RUN then 1 else 0)
  | .preamble => 400

/-- The engine's registers, without the hidden state and the outputs: what a claim about "the state" compares. -/
structure Registers where
  ep : List EpEntry
  dev : Dev
  halted : Bool
  chip : Chip
  mem : Memory
  cfg : Params
  deriving DecidableEq, Repr

/-- The registers of a state. -/
def State.registers (s : State) : Registers := ⟨s.ep, s.dev, s.halted, s.chip, s.mem, s.cfg⟩

/-! ## Vocabulary of the statements -/

/-- BIT1 or BIT0. -/
def bitInstr (b : Bool) : Instr := if b then .bit1 else .bit0

/-- A token instruction by its name. -/
inductive TokenKind where
  | inTok
  | outTok
  | setup
  deriving DecidableEq, Repr

/-- The instruction of a token. -/
def TokenKind.instr (k : TokenKind) (addr : BitVec 7) (endp : BitVec 4) (crc : BitVec 5) : Instr :=
  match k with
  | .inTok => .inTok addr endp crc
  | .outTok => .outTok addr endp crc
  | .setup => .setup addr endp crc

/-- A token that passes the tests of spec/43_dispatch.md R213: the CRC5 field is right (spec/42_crc.md R195), the address is zero or
ours (R214), and the endpoint exists (R215). -/
def TokenGood (addr : BitVec 7) (endp : BitVec 4) (crc : BitVec 5) (s : State) : Prop :=
  crc = crc5 addr endp ∧ (addr = 0 ∨ addr.setWidth 16 = s.dev.myAddress) ∧ endp.toNat < s.ep.length

/-- The callback is called for an IN token to the endpoint `endp` with the entry `e` (spec/44_endpoint.md R243, R246): the latch does not
fire, and the endpoint is not endpoint 0 or has `custom` set. -/
def CallbackCalled (endp : BitVec 4) (e : EpEntry) (s : State) : Prop :=
  (endp ≠ 0 ∨ e.custom = true) ∧ ¬ (s.dev.rebootArmed = 2 ∧ endp = 0)

/-- A data instruction by the value of its PID bit: DATA1 or DATA0 (spec/30_encoding.md R105). -/
def dataInstr (toggle : Bool) (payload : List Byte) (crc : BitVec 16) : Instr :=
  if toggle then .data1 payload crc else .data0 payload crc

/-- The bytes of a data packet with a right CRC16 field (spec/30_encoding.md R91, R92). -/
def dataBytes (toggle : Bool) (payload : List Byte) : List Byte :=
  dataPid toggle :: (payload ++ [lo8 (crc16 payload), hi8 (crc16 payload)])

/-- What no instruction of the dispatcher or of a handler touches: every byte of memory, the chip's registers, `halted`, the hidden
receive state, the parameters, what has been put out, and what the outside presents. -/
structure HandlerFrame (s t : State) : Prop where
  memory : ∀ a, memRead t.mem a = memRead s.mem a
  chip : t.chip = s.chip
  halted : t.halted = s.halted
  rx : t.rx = s.rx
  cfg : t.cfg = s.cfg
  out : t.io.out = s.io.out
  events : t.io.events = s.io.events
  userIn : t.io.userIn = s.io.userIn
  gap : t.io.gap = s.io.gap
  rst : t.io.rst = s.io.rst
  entries : t.ep.length = s.ep.length

/-- Every entry of the endpoint file but entry `i` is as it was. -/
def OtherEntriesKept (i : Nat) (s t : State) : Prop := ∀ j, j ≠ i → t.endpoint? j = s.endpoint? j

/-- The invocation has returned (spec/60_exceptions.md R324) and has called no `send`. -/
def Returned (s t : State) : Prop :=
  t.rxPhase = .idle ∧ t.tx = { s.tx with oe := false } ∧ t.io.lineIn = []

/-- The invocation has called `send` with the arguments given, and the transmit unit comes next. -/
def CallsSend (c : SendCmd) (s t : State) : Prop :=
  t.rxPhase = .transmit ∧ t.tx = { s.tx with cmd := some c }

/-- A data packet or its payload has been accepted (spec/44_endpoint.md R253): the current entry becomes `e`, no other entry moves, the
device state becomes `d`, and ACK is sent (spec/40_transmit.md R131). -/
structure Accepts (e : EpEntry) (d : Dev) (s t : State) : Prop where
  entry : t.endpoint? s.dev.currentEndpoint.toNat = some e
  others : OtherEntriesKept s.dev.currentEndpoint.toNat s t
  dev : t.dev = d
  pkt : t.pkt = s.pkt
  ack : CallsSend ⟨PID_ACK, 0, 0, 0#8⟩ s t
  frame : HandlerFrame s t

/-- The transmit unit at the start of a packet of the bytes given: nothing of it has been driven (spec/40_transmit.md R120). -/
def AtFrameStart (bytes : List Byte) (s : State) : Prop :=
  s.rxPhase = .transmit ∧ s.tx.cmd = none ∧ s.tx.oe = true ∧ s.tx.level = .J ∧ s.tx.ones = 0 ∧ s.tx.synced = false ∧
    s.tx.bits = bitsLsb bytes

/-- What no line instruction touches: the endpoint file, the device state, memory, the chip's registers, the parameters, and what the
outside presents. -/
structure LineFrame (s t : State) : Prop where
  ep : t.ep = s.ep
  dev : t.dev = s.dev
  memory : ∀ a, memRead t.mem a = memRead s.mem a
  chip : t.chip = s.chip
  cfg : t.cfg = s.cfg
  events : t.io.events = s.io.events
  userIn : t.io.userIn = s.io.userIn
  gap : t.io.gap = s.io.gap
  rst : t.io.rst = s.io.rst

/-- The step runs an instruction: `rst` is not asserted, the engine is not halted, and an invocation is in progress. -/
def Running (s : State) : Prop := s.io.rst = false ∧ s.halted = false ∧ s.rxPhase ≠ .idle

/-- A change applied to the state inside an outcome. -/
def Out.map (f : State → State) : Out → Out
  | .next s => .next (f s)
  | .fault r => .fault r
  | .refused r => .refused r

/-- The state with other contents of the servo's registers (spec/45_se0_trim.md R302). -/
def withServo (last delta windup osc : Word) (s : State) : State :=
  { s with
    dev := { s.dev with lastSe0 := last, deltaSe0 := delta, se0Windup := windup }
    chip := { s.chip with oscCtl := osc } }

/-- The state with something else put out before. -/
def withEarlierOut (earlier : List Output) (s : State) : State :=
  { s with io := { s.io with out := earlier ++ s.io.out } }

/-- A call of `send` inside the contract (spec/40_transmit.md R133). -/
def SendInContract (c : SendCmd) : Prop := (c.poly = 0#8 ∨ c.poly = 2#8) ∧ c.len ≤ MAX_PAYLOAD

/-- The callback keeps to the contract in this invocation, and a `send` that waits is inside it. -/
def ContractKept (s : State) : Prop :=
  (∀ t ptr len poly, s.io.userIn.action = .send t ptr len poly → (poly = 0#8 ∨ poly = 2#8) ∧ len ≤ MAX_PAYLOAD) ∧
  (∀ c, s.tx.cmd = some c → SendInContract c)

/-- The states reached in `k` steps, none of them a stop. -/
inductive Steps : Nat → State → State → Prop
  | zero (s : State) : Steps 0 s s
  | succ {k : Nat} {s t u : State} : step s = .next t → Steps k t u → Steps (k + 1) s u

end Sys2Proof.Machine
end

