-- ==== Sys2Proof/WellFormed.lean ====
section
/-! DEFINITION. Which terms of `Instr` an encoding of the spec can produce. -/

namespace Sys2Proof

open Config

/-- The check: payloads of at most `MAX_PAYLOAD` bytes (R91, R98), packets of at most `PACKET_BUF_CAP` bytes
(spec/20_memory.md R61), and no lowest-priority row that hides a row above it (R97, R100). -/
def Instr.wf : Instr → Bool
  | .ack => true
  | .data0 payload _ => decide (payload.length ≤ MAX_PAYLOAD)
  | .data1 payload _ => decide (payload.length ≤ MAX_PAYLOAD)
  | .inTok _ _ _ => true
  | .outTok _ _ _ => true
  | .setup _ _ _ => true
  | .unknownPid pid rest => !isKnownPid pid && decide (rest.length < PACKET_BUF_CAP)
  | .getDescriptor _ _ _ _ => true
  | .setAddress _ _ _ _ => true
  | .setReportBoot _ _ => true
  | .unrecognisedRequest rt rq wValue wIndex _ => !isRecognisedRequest rt rq wValue wIndex
  | .outPayloadCookie => true
  | .outPayloadOther payload => decide (payload.length ≤ MAX_PAYLOAD) && payload != BOOT_COOKIE
  | .sendNoCrc _ _ len => decide (len ≤ MAX_PAYLOAD)
  | .sendCrc16 _ _ len => decide (len ≤ MAX_PAYLOAD)
  | .sync => true
  | .eop => true
  | .keepalive => true
  | .bit0 => true
  | .bit1 => true

end Sys2Proof
end

