-- ==== Sys2Proof/Certificates/Slice0/Obligations.lean ====
section
/-! DEFINITION. The statements for the provers. -/

open Sys2Proof Sys2Proof.Machine Sys2Proof.Config

/-! ## The step -/

/-- A step runs the decoded instruction; what each phase fetches and passes. The phases are those of spec/10_state.md R45; that an invocation is a run of steps, and which place of it each step fetches, is the choice of the model (notes/assumptions/1.md, 28.md). -/
def Obligations.StepRunsTheDecodedInstruction : Prop :=
  ∀ s : State, Running s →
    (∀ i, decode (fetch s) = .ok i → step s = exec i (advance s)) ∧
    (∀ r, decode (fetch s) = .error r → step s = rejected r (advance s)) ∧
    (s.rxPhase = .preamble → fetch s = .preamble (s.io.lineIn.take 8) ∧
      advance s = { s with io := { s.io with lineIn := s.io.lineIn.drop 8 } }) ∧
    (s.rxPhase = .data → fetch s = .line s.rx.prev (s.io.lineIn.headD .J) ∧
      advance s = { s with io := { s.io with lineIn := s.io.lineIn.drop 1 } }) ∧
    (s.rxPhase = .dispatch → advance s = s ∧
      (s.stage = .packet → fetch s = .packet s.pkt.buf) ∧
      (∀ pid payload lo hi, s.pkt.buf = pid :: (payload ++ [lo, hi]) →
        (s.stage = .request → fetch s = .urb payload) ∧ (s.stage = .payload → fetch s = .payload payload))) ∧
    (s.rxPhase = .transmit →
      (∀ c, s.tx.cmd = some c → fetch s = .send c ∧ advance s = { s with tx := { s.tx with cmd := none } }) ∧
      (s.tx.cmd = none → s.tx.synced = false →
        fetch s = .preamble [.K, .J, .K, .J, .K, .J, .K, .K] ∧ advance s = { s with tx := { s.tx with synced := true } }) ∧
      (s.tx.cmd = none → s.tx.synced = true → ∀ b rest, s.tx.bits = b :: rest →
        fetch s = .line s.tx.level (if b then s.tx.level.sym else s.tx.level.flip.sym) ∧
          advance s = { s with tx := { s.tx with bits := rest } }) ∧
      (s.tx.cmd = none → s.tx.synced = true → s.tx.bits = [] → fetch s = .line s.tx.level .SE0 ∧ advance s = s))

/-- The reset values the spec gives (spec/10_state.md R54). -/
def Obligations.ResetStateHoldsTheTable : Prop :=
  State.reset.ep = List.replicate 3 { count := 0, toggleIn := false, toggleOut := false, custom := false, maxLen := 0, source := 0 } ∧
    State.reset.dev = { currentEndpoint := 0, myAddress := 0, setupRequest := false, lastSe0 := 0, deltaSe0 := 0,
                        se0Windup := 0, rebootArmed := 0 } ∧
    State.reset.halted = false ∧ State.reset.rxPhase = .idle ∧ State.reset.tx.oe = false

/-- spec/70_reset_and_hazards.md R360. The choices of the model in it: rst is a bit that one step consumes and that step makes the configuration writes of R366 (notes/assumptions/11.md), the number of entries is kept (30.md), and so is the list of what was put out (24.md). -/
def Obligations.ResetInputFromAnyState : Prop :=
  ∀ s : State, s.io.rst = true → ∃ t, step s = .next t ∧
    t.ep.length = s.ep.length ∧
    (∀ i, i < s.ep.length → t.endpoint? i = some
      { count := 0, toggleIn := false, toggleOut := false, custom := s.cfg.customInit.getD i false, maxLen := 0, source := 0 }) ∧
    t.dev = { currentEndpoint := 0, myAddress := 0, setupRequest := false, lastSe0 := 0, deltaSe0 := 0, se0Windup := 0,
              rebootArmed := 0 } ∧
    t.halted = false ∧ t.rxPhase = .idle ∧ t.tx.oe = false ∧ t.io.rst = false ∧
    t.chip = s.chip ∧ (∀ a, memRead t.mem a = memRead s.mem a) ∧ t.cfg = s.cfg ∧ t.io.events = s.io.events ∧ t.io.out = s.io.out

/-- spec/43_dispatch.md R223. That a halted step completes and lets exactly one bus event pass is the choice of the model (notes/assumptions/12.md). -/
def Obligations.HaltedEngineTakesNoStep : Prop :=
  ∀ s : State, s.io.rst = false → s.halted = true → ∃ t, step s = .next t ∧
    t.registers = s.registers ∧ t.pkt = s.pkt ∧ t.rx = s.rx ∧ t.tx = s.tx ∧ t.rxPhase = s.rxPhase ∧ t.io.out = s.io.out ∧
    t.io.events = s.io.events.tail

/-- spec/60_exceptions.md R323; waiting with no event is R324; the rewritten bytes are spec/20_memory.md R73. That the event brings the callback's answer, the rewritten bytes, the value of OSC_CTL and the gap before a response, and that waiting is a step, are choices of the model (notes/assumptions/7.md, 23.md, 31.md, 16.md, 20.md). -/
def Obligations.InterruptEntry : Prop :=
  ∀ s : State, s.io.rst = false → s.halted = false → s.rxPhase = .idle →
    (s.io.events = [] → step s = .next s) ∧
    (∀ ev later, s.io.events = ev :: later → ∃ t, step s = .next t ∧
      t.rxPhase = .preamble ∧ t.tx.oe = false ∧ t.ep = s.ep ∧ t.dev = s.dev ∧ t.halted = false ∧ t.cfg = s.cfg ∧
      t.chip.oscCtl = ev.oscCtl.getD s.chip.oscCtl ∧ t.chip.cycCnt = ev.cycCnt ∧ t.io.out = s.io.out ∧ t.io.lineIn = ev.line ∧
      t.io.events = later ∧ t.io.userIn = ev.userIn ∧ t.io.gap = ev.gap ∧
      (∀ a, (∀ w ∈ ev.memWrites, w.1.toNat ≠ a) → memRead t.mem a = memRead s.mem a) ∧
      (∀ before a v after, ev.memWrites = before ++ (a, v) :: after → (∀ w ∈ after, w.1 ≠ a) → memRead t.mem a.toNat = v))

/-- spec/60_exceptions.md R330, spec/41_receive.md R170. -/
def Obligations.DropIsSilent : Prop :=
  ∀ (s : State) (c : Cause), Running s → decode (fetch s) = .error (.drop c) → ∃ t, step s = .next t ∧
    t.registers = s.registers ∧ t.io.out = s.io.out ∧ t.rxPhase = .idle ∧ t.tx.oe = false ∧ t.io.lineIn = [] ∧
    t.io.events = s.io.events ∧ (∀ c', drop c' (advance s) = .next t)

/-- spec/40_transmit.md R133. That poly 0 completes with every len up to 8, where R133 names two forms only, is the choice of the model (notes/assumptions/15.md). -/
def Obligations.SendOutsideTheContractIsRefused : Prop :=
  ∀ (s : State) (c : SendCmd), Running s → s.rxPhase = .transmit → s.tx.cmd = some c →
    (((c.poly = 0#8 ∨ c.poly = 2#8) ∧ c.len ≤ 8) → ∃ t, step s = .next t) ∧
    (¬ ((c.poly = 0#8 ∨ c.poly = 2#8) ∧ c.len ≤ 8) → ∃ r, step s = .refused r)

/-! ## Encodings -/

/-- No bit of an encoding is dropped. -/
def Obligations.DecodeUndoesEncode : Prop :=
  ∀ i : Instr, i.wf = true → decode (encode i) = .ok i

/-- The other direction, where each word has one meaning. -/
def Obligations.DecoderAcceptsOnlyEncodings : Prop :=
  ∀ (c : Code) (i : Instr), decode c = .ok i →
    i.wf = true ∧ (∀ bytes, c = .packet bytes ∨ c = .urb bytes ∨ c = .payload bytes → encode i = c) ∧
    (∀ cmd, c = .send cmd → encode i = c)

/-- Decoding is right on words taken from the spec. -/
def Obligations.WordsOfTheTablesDecode : Prop :=
  decode (.packet [0x69, 0x85, 0x60]) = .ok (.inTok 5 1 0x0C) ∧
    decode (.packet [0x2D, 0x05, 0xD0]) = .ok (.setup 5 0 0x1A) ∧
    decode (.packet [0xE1, 0xFF, 0x47]) = .ok (.outTok 127 15 0x08) ∧
    decode (.packet [0xD2]) = .ok .ack ∧
    decode (.packet [0xC3, 0x00, 0x00]) = .ok (.data0 [] 0x0000) ∧
    decode (.packet [0x4B, 0xAA, 0xC0, 0xC0]) = .ok (.data1 [0xAA] 0xC0C0) ∧
    decode (.packet [0x5A]) = .ok (.unknownPid 0x5A []) ∧
    decode (.urb [0x80, 0x06, 0x02, 0x03, 0x09, 0x04, 0xFF, 0x00]) = .ok (.getDescriptor 0 0x0302 0x0409 0x00FF) ∧
    decode (.urb [0x1F, 0x05, 0x09, 0x00, 0x00, 0x00, 0x00, 0x00]) = .ok (.setAddress 0x1F 9 0 0) ∧
    decode (.urb [0x21, 0x09, 0xFD, 0x03, 0x00, 0x00, 0x08, 0x00]) = .ok (.setReportBoot 1 8) ∧
    decode (.payload [0xFD, 0x12, 0x34, 0xAA, 0xBB, 0xCC, 0xDD, 0x00]) = .ok .outPayloadCookie ∧
    decode (.send ⟨0xD2, 0, 0, 0⟩) = .ok (.sendNoCrc 0xD2 0 0) ∧
    decode (.preamble [.K, .J, .K, .J, .K, .J, .K, .K]) = .ok .sync ∧
    decode (.preamble [.SE0, .SE0, .J]) = .ok .keepalive ∧
    decode (.line .K .SE0) = .ok .eop

/-- spec/41_receive.md R169, which governs where R152 to R154 differ from it, for the sync pattern; R151 for the idle J after the symbols; R161, R163 and spec/30_encoding.md R81 for the data loop. -/
def Obligations.LineSymbolsDecode : Prop :=
  (∀ syms : List LineSymbol,
    ((∀ j, j < 8 → syms.getD j .J = syncPattern.getD j .J) → decode (.preamble syms) = .ok .sync) ∧
    (∀ k, k < 8 → (∀ j, j < k → syms.getD j .J = syncPattern.getD j .J) → syms.getD k .J ≠ syncPattern.getD k .J →
      decode (.preamble syms) =
        match syms.getD k .J with
        | .SE0 => .ok .keepalive
        | .SE1 => .error (.drop .eSe1)
        | .J => if k = 0 then .error (.drop .eGlitch) else .error (.drop .ePreamble)
        | .K => .error (.drop .ePreamble))) ∧
  (∀ prev : LineLevel,
    decode (.line prev .SE0) = .ok .eop ∧ decode (.line prev .SE1) = .error (.drop .eSe1) ∧
    decode (.line prev prev.sym) = .ok .bit1 ∧ decode (.line prev prev.flip.sym) = .ok .bit0)

/-- spec/43_dispatch.md R211 with the byte counts of R212, R213 and R219. -/
def Obligations.PacketsAreClassifiedByThePidByte : Prop :=
  ∀ (pid : Byte) (rest : List Byte), rest.length < 12 →
    (pid = 0xD2#8 →
      decode (.packet (pid :: rest)) = if rest.length + 1 = 1 then .ok .ack else .error (.drop .eLength)) ∧
    (pid = 0x69#8 ∨ pid = 0xE1#8 ∨ pid = 0x2D#8 →
      (rest.length + 1 ≠ 3 → decode (.packet (pid :: rest)) = .error (.drop .eLength)) ∧
      (∀ b1 b2, rest = [b1, b2] → ∃ k : TokenKind,
        decode (.packet (pid :: rest)) =
          .ok (k.instr (tokenAddr (le16 b1 b2)) (tokenEndp (le16 b1 b2)) (tokenCrc (le16 b1 b2))) ∧
        (k = .inTok ↔ pid = 0x69#8) ∧ (k = .outTok ↔ pid = 0xE1#8) ∧ (k = .setup ↔ pid = 0x2D#8))) ∧
    (pid = 0xC3#8 ∨ pid = 0x4B#8 →
      (rest.length + 1 < 3 ∨ 11 < rest.length + 1 → decode (.packet (pid :: rest)) = .error (.drop .eLength)) ∧
      (∀ payload lo hi, rest = payload ++ [lo, hi] → payload.length ≤ 8 →
        decode (.packet (pid :: rest)) = .ok (dataInstr (pid == 0x4B#8) payload (le16 lo hi)))) ∧
    (pid ∉ [0xD2#8, 0x69#8, 0xE1#8, 0x2D#8, 0xC3#8, 0x4B#8] → decode (.packet (pid :: rest)) = .ok (.unknownPid pid rest)) ∧
    (∀ b1 b2 : Byte,
      (∀ k, k < 7 → (tokenAddr (le16 b1 b2)).getLsbD k = b1.getLsbD k) ∧
      (tokenEndp (le16 b1 b2)).getLsbD 0 = b1.getLsbD 7 ∧
      (∀ k, k < 3 → (tokenEndp (le16 b1 b2)).getLsbD (k + 1) = b2.getLsbD k) ∧
      (∀ k, k < 5 → (tokenCrc (le16 b1 b2)).getLsbD k = b2.getLsbD (k + 3)))

/-- spec/30_encoding.md R95 to R97. -/
def Obligations.UrbRowsAreTriedInOrder : Prop :=
  ∀ b0 b1 b2 b3 b4 b5 b6 b7 : Byte,
    (b0 &&& 0xE0#8 = 0x80#8 → b1 = 0x06#8 → decode (.urb [b0, b1, b2, b3, b4, b5, b6, b7]) =
      .ok (.getDescriptor (recipientOf b0) (le16 b2 b3) (le16 b4 b5) (le16 b6 b7))) ∧
    (b0 &&& 0xE0#8 = 0x00#8 → b1 = 0x05#8 → decode (.urb [b0, b1, b2, b3, b4, b5, b6, b7]) =
      .ok (.setAddress (recipientOf b0) (le16 b2 b3) (le16 b4 b5) (le16 b6 b7))) ∧
    (b0 &&& 0xE0#8 = 0x20#8 → b1 = 0x09#8 → [b2, b3, b4, b5] = [0xFD#8, 0x03#8, 0x00#8, 0x00#8] →
      decode (.urb [b0, b1, b2, b3, b4, b5, b6, b7]) = .ok (.setReportBoot (recipientOf b0) (le16 b6 b7))) ∧
    (¬ (b0 &&& 0xE0#8 = 0x80#8 ∧ b1 = 0x06#8) → ¬ (b0 &&& 0xE0#8 = 0x00#8 ∧ b1 = 0x05#8) →
      ¬ (b0 &&& 0xE0#8 = 0x20#8 ∧ b1 = 0x09#8 ∧ [b2, b3, b4, b5] = [0xFD#8, 0x03#8, 0x00#8, 0x00#8]) →
      decode (.urb [b0, b1, b2, b3, b4, b5, b6, b7]) = .ok (.unrecognisedRequest b0 b1 (le16 b2 b3) (le16 b4 b5) (le16 b6 b7))) ∧
    (selector (le16 b2 b3) (le16 b4 b5)).toNat = b2.toNat + 2 ^ 8 * b3.toNat + 2 ^ 16 * b4.toNat + 2 ^ 24 * b5.toNat

/-! ## The CRC unit -/

/-- spec/42_crc.md R194 and R197, which the spec marks as derived. -/
def Obligations.CrcChecksMeanRightFields : Prop :=
  (∀ (payload : List Byte) (c : BitVec 16),
    crc16Reg (bitsLsb (payload ++ [lo8 c, hi8 c])) = 0xB001#16 ↔ c = crc16 payload) ∧
  (∀ t : BitVec 16, crc5Norm t = 0#5 ↔ crc5 (tokenAddr t) (tokenEndp t) = tokenCrc t)

/-- spec/41_receive.md R166: the register is a function of the bytes after the PID. -/
def Obligations.RunningRegisterDecidesAsTheFieldsDo : Prop :=
  ∀ s : State, Inv s → s.rxPhase = .dispatch → s.stage = .packet →
    (∀ tg payload crc, decode (fetch s) = .ok (dataInstr tg payload crc) → (crc16Good s.pkt = true ↔ crc = crc16 payload)) ∧
    (∀ (k : TokenKind) addr endp crc, decode (fetch s) = .ok (k.instr addr endp crc) →
      s.pkt.crc.setWidth 5 ^^^ 0x06#5 = crc5Norm (tokenField addr endp crc))

/-! ## The receive unit -/

/-- spec/41_receive.md R156. -/
def Obligations.SyncStartsTheDataLoop : Prop :=
  ∀ s : State, s.rxPhase ≠ .transmit → ∃ t, exec .sync s = .next t ∧
    t.rxPhase = .data ∧ t.rx.prev = .K ∧ t.rx.ones = 1 ∧ t.pkt.nbits = 0 ∧ t.pkt.poly = .none ∧ t.pkt.buf = [] ∧
    t.pkt.pid = s.pkt.pid ∧ t.pkt.crc = s.pkt.crc ∧ t.tx = s.tx ∧ t.halted = s.halted ∧ t.io.out = s.io.out ∧ LineFrame s t

/-- spec/41_receive.md R157 to R159. -/
def Obligations.DataBitIsStored : Prop :=
  ∀ (s : State) (b : Bool), s.rxPhase ≠ .transmit → s.rx.ones ≠ 6 → s.pkt.nbits < 96 →
    ∃ t byte, exec (bitInstr b) s = .next t ∧
    t.rx.prev = (if b then s.rx.prev else s.rx.prev.flip) ∧ t.rx.ones = (if b then s.rx.ones + 1 else 0) ∧
    t.pkt.nbits = s.pkt.nbits + 1 ∧
    byte.getLsbD (s.pkt.nbits % 8) = b ∧
    (∀ k, k < 8 → k ≠ s.pkt.nbits % 8 → byte.getLsbD k = s.pkt.cur.getLsbD k) ∧
    ((s.pkt.nbits + 1) % 8 = 0 → t.pkt.buf = s.pkt.buf ++ [byte] ∧ t.pkt.cur = 0) ∧
    ((s.pkt.nbits + 1) % 8 ≠ 0 → t.pkt.buf = s.pkt.buf ∧ t.pkt.cur = byte) ∧
    t.pkt.pid = (if s.pkt.nbits + 1 = 8 then byte else s.pkt.pid) ∧
    t.rxPhase = s.rxPhase ∧ t.tx = s.tx ∧ t.halted = s.halted ∧ t.io = s.io ∧ LineFrame s t

/-- spec/41_receive.md R166, R167, spec/42_crc.md R191. -/
def Obligations.PidSelectsTheCrcAndLaterBitsEnterIt : Prop :=
  ∀ (s : State) (b : Bool), s.rxPhase ≠ .transmit → s.rx.ones ≠ 6 → s.pkt.nbits < 96 →
    ∃ t, exec (bitInstr b) s = .next t ∧
    (s.pkt.nbits + 1 ≠ 8 → t.pkt.poly = s.pkt.poly) ∧
    (s.pkt.nbits < 7 → t.pkt.crc = s.pkt.crc) ∧
    (s.pkt.nbits + 1 = 8 →
      (t.pkt.pid ∈ [0x69#8, 0xE1#8, 0x2D#8] → t.pkt.poly = .crc5 ∧ t.pkt.crc = 0x001F#16) ∧
      (t.pkt.pid ∈ [0xC3#8, 0x4B#8] → t.pkt.poly = .crc16 ∧ t.pkt.crc = 0xFFFF#16) ∧
      (t.pkt.pid ∉ [0x69#8, 0xE1#8, 0x2D#8, 0xC3#8, 0x4B#8] → t.pkt.poly = .none)) ∧
    (8 ≤ s.pkt.nbits → s.pkt.poly = .crc16 →
      t.pkt.crc = if s.pkt.crc.getLsbD 0 ≠ b then (s.pkt.crc >>> 1) ^^^ 0xA001#16 else s.pkt.crc >>> 1) ∧
    (8 ≤ s.pkt.nbits → s.pkt.poly = .crc5 →
      t.pkt.crc.setWidth 5 =
        if (s.pkt.crc.setWidth 5).getLsbD 0 ≠ b then (s.pkt.crc.setWidth 5 >>> 1) ^^^ 0x14#5 else s.pkt.crc.setWidth 5 >>> 1) ∧
    (8 ≤ s.pkt.nbits → s.pkt.poly = .none → t.pkt.crc = s.pkt.crc)

/-- spec/41_receive.md R158, R164, R165. -/
def Obligations.BitsThatAreNotStored : Prop :=
  ∀ s : State, s.rxPhase ≠ .transmit →
    (s.rx.ones = 6 → ∃ t, exec .bit0 s = .next t ∧ t.pkt = s.pkt ∧ t.rx.ones = 0 ∧ t.rx.prev = s.rx.prev.flip ∧
      t.rxPhase = s.rxPhase ∧ t.tx = s.tx ∧ t.halted = s.halted ∧ t.io = s.io ∧ LineFrame s t) ∧
    (s.rx.ones = 6 → ∃ t, exec .bit1 s = .next t ∧ Returned s t ∧ t.registers = s.registers ∧ t.pkt = s.pkt ∧
      t.io.out = s.io.out ∧ t.io.events = s.io.events) ∧
    (s.rx.ones ≠ 6 → s.pkt.nbits = 96 → ∀ b, ∃ t, exec (bitInstr b) s = .next t ∧ Returned s t ∧
      t.registers = s.registers ∧ t.pkt = s.pkt ∧ t.io.out = s.io.out ∧ t.io.events = s.io.events) ∧
    (s.rx.ones ≠ 6 → s.pkt.nbits < 96 → ∀ b, ∃ t, exec (bitInstr b) s = .next t ∧ t.pkt.nbits = s.pkt.nbits + 1 ∧
      t.rx.ones = (if b then s.rx.ones + 1 else 0))

/-- spec/41_receive.md R161, R162. -/
def Obligations.EndOfPacketChecksAlignment : Prop :=
  ∀ s : State, s.rxPhase ≠ .transmit → ∃ t, exec .eop s = .next t ∧
    (s.pkt.nbits = 0 ∨ s.pkt.nbits % 8 ≠ 0 → Returned s t) ∧
    (¬ (s.pkt.nbits = 0 ∨ s.pkt.nbits % 8 ≠ 0) → t.rxPhase = .dispatch ∧ t.stage = .packet ∧ t.tx = s.tx) ∧
    t.pkt = s.pkt ∧ t.rx = s.rx ∧ t.halted = s.halted ∧ t.io.out = s.io.out ∧ LineFrame s t

/-- spec/41_receive.md R172, which the spec marks as derived; R166 for the register. -/
def Obligations.ReceivingAFrameGivesItsBytes : Prop :=
  ∀ (s : State) (bytes : List Byte) (rest : List LineSymbol),
    1 ≤ bytes.length → bytes.length ≤ 12 → s.io.rst = false → s.halted = false → s.rxPhase = .preamble →
    s.io.lineIn = frame bytes ++ rest →
    ∃ k t, Steps k s t ∧ t.rxPhase = .dispatch ∧ t.stage = .packet ∧ t.pkt.buf = bytes ∧ t.pkt.nbits = 8 * bytes.length ∧
      t.pkt.pid = bytes.headD 0 ∧
      (t.pkt.pid ∈ [PID_DATA0, PID_DATA1] → t.pkt.crc = crc16Reg (bitsLsb bytes.tail)) ∧
      (t.pkt.pid ∈ [PID_IN, PID_OUT, PID_SETUP] → t.pkt.crc.setWidth 5 = crc5Reg (bitsLsb bytes.tail)) ∧
      t.registers = s.registers ∧ t.tx = s.tx ∧ t.io.out = s.io.out ∧ t.io.events = s.io.events ∧ t.io.userIn = s.io.userIn

/-! ## The transmit unit -/

/-- spec/40_transmit.md R121, R127, R129. The refusal above 8 bytes is R133; that SEND_NOCRC completes with every len up to 8 is the choice of the model (notes/assumptions/15.md). The gap is spec/70_reset_and_hazards.md R381; that it passes in this step and stands in the list of what is put out are choices of the model too (16.md, 24.md). -/
def Obligations.SendLoadsTheBytes : Prop :=
  ∀ (s : State) (token : Byte) (ptr : Word) (len : Nat),
    (len ≤ 8 → ∃ payload : List Byte, payload.length = len ∧
      (∀ k, k < len → payload[k]? = some (sourceRead s (ptr + BitVec.ofNat 32 k))) ∧
      (∃ t, exec (.sendNoCrc token ptr len) s = .next t ∧ AtFrameStart ([token] ++ payload) t ∧
        t.pkt = s.pkt ∧ t.rx = s.rx ∧ t.halted = s.halted ∧
        t.io = { s.io with out := s.io.out ++ List.replicate s.io.gap Output.idle } ∧ t.tx.boot = s.tx.boot ∧ LineFrame s t) ∧
      (∃ t, exec (.sendCrc16 token ptr len) s = .next t ∧
        AtFrameStart ([token] ++ payload ++ [lo8 (crc16 payload), hi8 (crc16 payload)]) t ∧
        t.pkt = s.pkt ∧ t.rx = s.rx ∧ t.halted = s.halted ∧
        t.io = { s.io with out := s.io.out ++ List.replicate s.io.gap Output.idle } ∧ t.tx.boot = s.tx.boot ∧ LineFrame s t)) ∧
    (8 < len → exec (.sendNoCrc token ptr len) s = .refused .sendTooLong ∧
      exec (.sendCrc16 token ptr len) s = .refused .sendTooLong)

/-- The source memory space as the model lays it out: the windows are its choice (notes/assumptions/10.md, 32.md), and the bytes of the ERR string are PRESUMED (32.md). -/
def Obligations.SourceSpaceReads : Prop :=
  ∀ s : State, s.cfg.wf = true →
    sourceReadN s s.cfg.zero2 2 = [0x00#8, 0x00#8] ∧
    (∀ bytes : List Byte, bytes.length ≤ 12 →
      sourceReadN { s with pkt := { s.pkt with buf := bytes } } s.cfg.scratchBase bytes.length = bytes) ∧
    (∀ k, k < 12 → sourceRead s (s.cfg.scratchBase + BitVec.ofNat 32 k) = scratchByte s k) ∧
    (s.cfg.hidDeclared ≠ s.cfg.hidActual →
      sourceReadN s s.cfg.errString 8 = [0x08#8, 0x03#8, 0x45#8, 0x00#8, 0x52#8, 0x00#8, 0x52#8, 0x00#8]) ∧
    (∀ a : Word, 2 ≤ (a - s.cfg.zero2).toNat → 12 ≤ (a - s.cfg.scratchBase).toNat →
      (s.cfg.hidDeclared = s.cfg.hidActual ∨ 8 ≤ (a - s.cfg.errString).toNat) → sourceRead s a = memRead s.mem a.toNat) ∧
    (∀ (token : Byte) (p : Word), ∃ t, exec (.sendNoCrc token s.cfg.zero2 2) s = .next t ∧
      AtFrameStart [token, 0x00#8, 0x00#8] t ∧ exec (.sendCrc16 token p 0) s = .next t)

/-- spec/40_transmit.md R122 to R124. That SYNC drives its eight symbols in one step, that BIT1 drives the stuffed 0 in its own step, and the list of what is put out are choices of the model (notes/assumptions/1.md, 24.md). -/
def Obligations.SymbolsAreDrivenWithStuffing : Prop :=
  ∀ s : State, s.rxPhase = .transmit →
    (∃ t, exec .bit0 s = .next t ∧ t.io.out = s.io.out ++ [Output.sym s.tx.level.flip.sym] ∧
      t.tx = { s.tx with level := s.tx.level.flip, ones := 0 } ∧ t.rxPhase = .transmit ∧ t.pkt = s.pkt ∧ t.rx = s.rx ∧
      t.halted = s.halted ∧ LineFrame s t) ∧
    (∃ t, exec .bit1 s = .next t ∧ t.rxPhase = .transmit ∧ t.pkt = s.pkt ∧ t.rx = s.rx ∧ t.halted = s.halted ∧ LineFrame s t ∧
      (s.tx.ones + 1 ≠ 6 → t.io.out = s.io.out ++ [Output.sym s.tx.level.sym] ∧ t.tx = { s.tx with ones := s.tx.ones + 1 }) ∧
      (s.tx.ones + 1 = 6 → t.io.out = s.io.out ++ [Output.sym s.tx.level.sym, .sym s.tx.level.flip.sym] ∧
        t.tx = { s.tx with level := s.tx.level.flip, ones := 0 })) ∧
    (s.tx.level = .J → s.tx.ones = 0 → ∃ t, exec .sync s = .next t ∧
      t.io.out = s.io.out ++ [Output.sym .K, .sym .J, .sym .K, .sym .J, .sym .K, .sym .J, .sym .K, .sym .K] ∧
      t.tx = { s.tx with level := .K, ones := 1 } ∧ t.rxPhase = .transmit ∧ t.pkt = s.pkt ∧ t.rx = s.rx ∧
      t.halted = s.halted ∧ LineFrame s t)

/-- spec/40_transmit.md R125, spec/44_endpoint.md R268. That boot_reset is pending in a flag of the transmit unit is the choice of the model (notes/assumptions/29.md), and so is the list of what is put out (24.md). -/
def Obligations.EndOfPacketIsDriven : Prop :=
  ∀ s : State, s.rxPhase = .transmit → ∃ t, exec .eop s = .next t ∧
    t.rxPhase = .idle ∧ t.tx.oe = false ∧ t.io.lineIn = [] ∧ t.pkt = s.pkt ∧ t.rx = s.rx ∧ LineFrame s t ∧
    (s.tx.boot = false → t.io.out = s.io.out ++ [Output.sym .SE0, .sym .SE0, .sym .J] ∧ t.halted = s.halted ∧
      t.tx = { s.tx with oe := false }) ∧
    (s.tx.boot = true → t.io.out = s.io.out ++ [Output.sym .SE0, .sym .SE0, .sym .J, .bootReset] ∧ t.halted = true ∧
      t.tx = { s.tx with oe := false, boot := false })

/-- spec/40_transmit.md R126, which the spec marks as derived. The number of steps and the flag of the pending boot_reset are choices of the model (notes/assumptions/1.md, 29.md). -/
def Obligations.TransmittingDrivesTheFrame : Prop :=
  ∀ (s : State) (bytes : List Byte), s.io.rst = false → s.halted = false → AtFrameStart bytes s →
    ∃ t, Steps (8 * bytes.length + 2) s t ∧ t.rxPhase = .idle ∧ t.tx.oe = false ∧
      t.io.out = s.io.out ++ (frame bytes).map Output.sym ++ (if s.tx.boot then [Output.bootReset] else []) ∧
      t.halted = s.tx.boot ∧ t.registers = { s.registers with halted := s.tx.boot } ∧
      t.pkt = s.pkt ∧ t.io.events = s.io.events ∧ t.io.rst = false ∧ t.tx.cmd = none ∧ t.tx.boot = false

/-- spec/30_encoding.md R84, R101. -/
def Obligations.FrameShape : Prop :=
  ∀ bytes : List Byte, ∃ middle : List LineSymbol,
    frame bytes = [.K, .J, .K, .J, .K, .J, .K, .K] ++ middle ++ [.SE0, .SE0, .J] ∧
    (∀ x ∈ middle, x = .J ∨ x = .K) ∧
    8 * bytes.length ≤ middle.length ∧ middle.length ≤ 8 * bytes.length + (8 * bytes.length + 1) / 6

/-- spec/40_transmit.md R123, R134 (3), which the spec marks as derived. -/
def Obligations.StuffingIsSafeAndLosesNothing : Prop :=
  (∀ (bits : List Bool) (k : Nat), k + 7 ≤ (stuff 0 bits).length → ∃ j, k ≤ j ∧ j < k + 7 ∧ (stuff 0 bits)[j]? = some false) ∧
    (∀ a b : List Byte, frame a = frame b → a = b)

/-! ## The keepalive handler -/

/-- spec/45_se0_trim.md R303, with the frame of R302 and the band of R304; the list of what is put out is the choice of the model (notes/assumptions/24.md). -/
def Obligations.KeepaliveMeasuresTheInterval : Prop :=
  ∀ s : State, ∃ t, exec .keepalive s = .next t ∧ Returned s t ∧
    t.dev = { s.dev with lastSe0 := s.chip.cycCnt, deltaSe0 := s.chip.cycCnt - s.dev.lastSe0, se0Windup := t.dev.se0Windup } ∧
    t.chip.cycCnt = s.chip.cycCnt ∧ t.ep = s.ep ∧ t.halted = s.halted ∧ t.cfg = s.cfg ∧ t.pkt = s.pkt ∧ t.rx = s.rx ∧
    t.io.events = s.io.events ∧
    (∃ more, t.io.out = s.io.out ++ more ∧ ∀ o ∈ more, ∃ v, o = Output.oscCtl v) ∧ (∀ a, memRead t.mem a = memRead s.mem a) ∧
    (¬ (-(s.cfg.trimBand : Int) < (s.chip.cycCnt - s.dev.lastSe0 - 48000#32).toInt ∧
        (s.chip.cycCnt - s.dev.lastSe0 - 48000#32).toInt < s.cfg.trimBand) →
      t.dev.se0Windup = s.dev.se0Windup ∧ t.chip.oscCtl = s.chip.oscCtl ∧ t.io.out = s.io.out)

/-- spec/45_se0_trim.md R302, R305; the sum cannot overflow by R311, and the write takes place also at the ends of the range by R308. The list of what is put out is the choice of the model (notes/assumptions/24.md). -/
def Obligations.KeepaliveTrimsAtTheThreshold : Prop :=
  ∀ s : State, Inv s → ∀ err : Int, err = (s.chip.cycCnt - s.dev.lastSe0 - 48000#32).toInt →
    -(s.cfg.trimBand : Int) < err → err < s.cfg.trimBand → ∃ t, exec .keepalive s = .next t ∧
    ((s.cfg.trimThreshold : Int) ≤ s.dev.se0Windup.toInt + err →
      t.dev.se0Windup = 0 ∧ t.chip.oscCtl = applyTrim s.cfg .tooFast s.chip.oscCtl ∧
        t.io.out = s.io.out ++ [Output.oscCtl (applyTrim s.cfg .tooFast s.chip.oscCtl)]) ∧
    (s.dev.se0Windup.toInt + err ≤ -(s.cfg.trimThreshold : Int) →
      t.dev.se0Windup = 0 ∧ t.chip.oscCtl = applyTrim s.cfg .tooSlow s.chip.oscCtl ∧
        t.io.out = s.io.out ++ [Output.oscCtl (applyTrim s.cfg .tooSlow s.chip.oscCtl)]) ∧
    (-(s.cfg.trimThreshold : Int) < s.dev.se0Windup.toInt + err → s.dev.se0Windup.toInt + err < s.cfg.trimThreshold →
      t.dev.se0Windup.toInt = s.dev.se0Windup.toInt + err ∧ t.chip.oscCtl = s.chip.oscCtl ∧
        t.io.out = s.io.out)

/-- spec/45_se0_trim.md R306 to R308. -/
def Obligations.TrimStepMovesTheFieldByOne : Prop :=
  ∀ (p : Params) (dir : TrimDir) (v : Word), p.wf = true →
    (∀ k, k < p.trimShift ∨ p.trimShift + p.trimW ≤ k → (applyTrim p dir v).getLsbD k = v.getLsbD k) ∧
    trimCode p v < 2 ^ p.trimW ∧
    (∀ k, k < p.trimW → (trimCode p v).testBit k = v.getLsbD (p.trimShift + k)) ∧
    ((dir = .tooSlow ↔ p.trimUpIsFaster = true) →
      trimCode p (applyTrim p dir v) = if trimCode p v = 2 ^ p.trimW - 1 then trimCode p v else trimCode p v + 1) ∧
    (¬ (dir = .tooSlow ↔ p.trimUpIsFaster = true) →
      trimCode p (applyTrim p dir v) = if trimCode p v = 0 then 0 else trimCode p v - 1)

/-- spec/45_se0_trim.md R311: no rule of any other unit reads the servo's registers. -/
def Obligations.ServoIsIsolated : Prop :=
  ∀ (i : Instr) (s : State) (last delta windup osc : Word), i ≠ .keepalive →
    exec i (withServo last delta windup osc s) = Out.map (withServo last delta windup osc) (exec i s)

/-! ## Tokens -/

/-- spec/43_dispatch.md R213 with the equivalence of spec/42_crc.md R197; ignored tokens: spec/60_exceptions.md R329. -/
def Obligations.TokenTestsPassExactlyGoodTokens : Prop :=
  ∀ (addr : BitVec 7) (endp : BitVec 4) (crc : BitVec 5) (s : State),
    (tokenFault addr endp crc s = none ↔ TokenGood addr endp crc s) ∧
    (crc ≠ crc5 addr endp → tokenFault addr endp crc s = some .eCrc5) ∧
    (crc = crc5 addr endp → addr ≠ 0 → addr.setWidth 16 ≠ s.dev.myAddress → tokenFault addr endp crc s = some .eAddr) ∧
    (crc = crc5 addr endp → (addr = 0 ∨ addr.setWidth 16 = s.dev.myAddress) → s.ep.length ≤ endp.toNat →
      tokenFault addr endp crc s = some .eEndp) ∧
    (∀ k : TokenKind, ¬ TokenGood addr endp crc s →
      ∃ t, exec (k.instr addr endp crc) s = .next t ∧ Returned s t ∧ t.registers = s.registers ∧ t.pkt = s.pkt ∧
        HandlerFrame s t)

/-- spec/44_endpoint.md R241. -/
def Obligations.SetupTokenTearsDownTheTransfer : Prop :=
  ∀ (s : State) (addr : BitVec 7) (endp : BitVec 4) (crc : BitVec 5) (e : EpEntry),
    TokenGood addr endp crc s → s.endpoint? endp.toNat = some e →
    ∃ t, exec (.setup addr endp crc) s = .next t ∧ Returned s t ∧
      t.dev = { s.dev with currentEndpoint := endp, setupRequest := true } ∧
      t.endpoint? endp.toNat =
        some { count := 0, toggleIn := true, toggleOut := false, custom := e.custom, maxLen := 0, source := 0 } ∧
      OtherEntriesKept endp.toNat s t ∧ t.pkt = s.pkt ∧ HandlerFrame s t

/-- spec/44_endpoint.md R242. -/
def Obligations.OutTokenRecordsTheEndpoint : Prop :=
  ∀ (s : State) (addr : BitVec 7) (endp : BitVec 4) (crc : BitVec 5), TokenGood addr endp crc s →
    ∃ t, exec (.outTok addr endp crc) s = .next t ∧ Returned s t ∧ t.dev = { s.dev with currentEndpoint := endp } ∧
      t.ep = s.ep ∧ t.pkt = s.pkt ∧ HandlerFrame s t

/-- spec/44_endpoint.md R243 to R245. That boot_reset waits in a flag of the transmit unit until the response has been driven is the choice of the model (notes/assumptions/29.md); FiringDrivesTheEmptyResponseThenBootReset gives what follows. -/
def Obligations.InTokenFiresTheLatch : Prop :=
  ∀ (s : State) (addr : BitVec 7) (crc : BitVec 5) (e : EpEntry),
    TokenGood addr 0 crc s → s.endpoint? 0 = some e → s.dev.rebootArmed = 2 →
    ∃ t, exec (.inTok addr 0 crc) s = .next t ∧ t.rxPhase = .transmit ∧
      t.tx = { s.tx with cmd := some ⟨if e.toggleIn then 0x4B#8 else 0xC3#8, s.cfg.zero2, 2, 0⟩, boot := true } ∧
      t.dev = { s.dev with currentEndpoint := 0 } ∧ t.ep = s.ep ∧ t.pkt = s.pkt ∧ HandlerFrame s t

/-- spec/44_endpoint.md R247. -/
def Obligations.InTokenDrainsTheBuffer : Prop :=
  ∀ (s : State) (addr : BitVec 7) (crc : BitVec 5) (e : EpEntry),
    TokenGood addr 0 crc s → s.endpoint? 0 = some e → e.custom = false → s.dev.rebootArmed ≠ 2 →
    ∃ t, exec (.inTok addr 0 crc) s = .next t ∧ t.dev = { s.dev with currentEndpoint := 0 } ∧ t.ep = s.ep ∧ t.pkt = s.pkt ∧
      HandlerFrame s t ∧
      (e.maxLen.toNat ≤ e.count.toNat * 8 % 2 ^ 32 →
        CallsSend ⟨if e.toggleIn then 0x4B#8 else 0xC3#8, s.cfg.zero2, 2, 0⟩ s t) ∧
      (e.count.toNat * 8 % 2 ^ 32 < e.maxLen.toNat →
        CallsSend ⟨if e.toggleIn then 0x4B#8 else 0xC3#8, e.source + BitVec.ofNat 32 (e.count.toNat * 8 % 2 ^ 32),
          min 8 (e.maxLen.toNat - e.count.toNat * 8 % 2 ^ 32), 2⟩ s t)

/-- spec/44_endpoint.md R246, R262, R263, spec/20_memory.md R64. Choices of the model: the answer rides on the bus event (notes/assumptions/7.md), and the callback leaves every byte of Mem as it was (23.md). -/
def Obligations.InTokenCallsTheCallback : Prop :=
  ∀ (s : State) (addr : BitVec 7) (endp : BitVec 4) (crc : BitVec 5) (e : EpEntry),
    TokenGood addr endp crc s → s.endpoint? endp.toNat = some e → CallbackCalled endp e s →
    ∃ t, exec (.inTok addr endp crc) s = .next t ∧ t.dev = { s.dev with currentEndpoint := endp } ∧
      t.endpoint? endp.toNat = some (s.io.userIn.entry.getD e) ∧ OtherEntriesKept endp.toNat s t ∧ HandlerFrame s t ∧
      t.pkt = { s.pkt with buf := t.pkt.buf } ∧ (s.io.userIn.scratch = [] → t.pkt = s.pkt) ∧
      (∀ k, (∀ w ∈ s.io.userIn.scratch, w.1.val ≠ k) → scratchByte t k = scratchByte s k) ∧
      (∀ before k v later, s.io.userIn.scratch = before ++ (k, v) :: later → (∀ w ∈ later, w.1 ≠ k) →
        scratchByte t k.val = v) ∧
      (s.io.userIn.action = .silent → Returned s t) ∧
      (∀ token ptr len poly, s.io.userIn.action = .send token ptr len poly →
        CallsSend ⟨token.getD (if e.toggleIn then 0x4B#8 else 0xC3#8), ptr, len, poly⟩ s t) ∧
      (∀ token, s.io.userIn.action = .empty token →
        CallsSend ⟨token.getD (if e.toggleIn then 0x4B#8 else 0xC3#8), s.cfg.zero2, 2, 0⟩ s t)

/-! ## Handshake and data packets -/

/-- spec/44_endpoint.md R248. -/
def Obligations.HostAckTogglesAndCounts : Prop :=
  ∀ (s : State) (e : EpEntry), s.endpoint? s.dev.currentEndpoint.toNat = some e →
    ∃ t e', exec .ack s = .next t ∧ Returned s t ∧ t.endpoint? s.dev.currentEndpoint.toNat = some e' ∧
      e'.toggleIn = !e.toggleIn ∧ e'.count.toNat = (e.count.toNat + 1) % 2 ^ 32 ∧ e'.toggleOut = e.toggleOut ∧
      e'.custom = e.custom ∧ e'.maxLen = e.maxLen ∧ e'.source = e.source ∧
      OtherEntriesKept s.dev.currentEndpoint.toNat s t ∧ t.dev = s.dev ∧ t.pkt = s.pkt ∧ HandlerFrame s t

/-- spec/43_dispatch.md R220; the CRC16 test of R219. -/
def Obligations.PacketsThatAreDiscarded : Prop :=
  ∀ s : State,
    (∀ (tg : Bool) (payload : List Byte) (crc : BitVec 16), s.pkt.crc ≠ 0xB001#16 →
      ∃ t, exec (dataInstr tg payload crc) s = .next t ∧ Returned s t ∧ t.registers = s.registers ∧ t.pkt = s.pkt ∧
        HandlerFrame s t) ∧
    (∀ (pid : Byte) (rest : List Byte), ∃ t, exec (.unknownPid pid rest) s = .next t ∧ Returned s t ∧
      t.registers = s.registers ∧ t.pkt = s.pkt ∧ HandlerFrame s t)

/-- spec/44_endpoint.md R250. -/
def Obligations.DuplicateDataIsReAcknowledged : Prop :=
  ∀ (s : State) (tg : Bool) (payload : List Byte) (crc : BitVec 16) (e : EpEntry), s.pkt.crc = 0xB001#16 →
    s.endpoint? s.dev.currentEndpoint.toNat = some e → e.toggleOut ≠ tg →
    ∃ t, exec (dataInstr tg payload crc) s = .next t ∧ CallsSend ⟨0xD2, 0, 0, 0⟩ s t ∧ t.ep = s.ep ∧ t.dev = s.dev ∧
      t.pkt = s.pkt ∧ HandlerFrame s t

/-- spec/44_endpoint.md R249; the split into two steps is the model's (notes/assumptions/1.md). -/
def Obligations.ExpectedDataIsTakenAsUrbOrPayload : Prop :=
  ∀ (s : State) (payload : List Byte) (crc : BitVec 16) (e : EpEntry), s.pkt.crc = 0xB001#16 →
    s.endpoint? s.dev.currentEndpoint.toNat = some e →
    ∃ t, exec (dataInstr e.toggleOut payload crc) s = .next t ∧ t.ep = s.ep ∧ t.pkt = s.pkt ∧ HandlerFrame s t ∧
      (s.dev.setupRequest = true → payload.length = 8 →
        t.dev = { s.dev with setupRequest := false } ∧ t.rxPhase = .dispatch ∧ t.stage = .request ∧ t.tx = s.tx) ∧
      (s.dev.setupRequest = true → payload.length ≠ 8 → t.dev = s.dev ∧ Returned s t) ∧
      (s.dev.setupRequest = false → t.dev = s.dev ∧ t.rxPhase = .dispatch ∧ t.stage = .payload ∧ t.tx = s.tx)

/-! ## Control requests and OUT payloads -/

/-- spec/44_endpoint.md R255, R253, R254. What the IN tokens after a miss get rests on R241 and R247 as well and is no part of this. -/
def Obligations.GetDescriptorArmsTheTransfer : Prop :=
  ∀ (s : State) (r : BitVec 5) (wValue wIndex wLength : BitVec 16) (e : EpEntry),
    s.endpoint? s.dev.currentEndpoint.toNat = some e →
    ∃ t e', exec (.getDescriptor r wValue wIndex wLength) s = .next t ∧ Accepts e' { s.dev with rebootArmed := 0 } s t ∧
      e'.toggleOut = !e.toggleOut ∧ e'.toggleIn = e.toggleIn ∧ e'.custom = e.custom ∧
      (∀ ptr len, descLookup s.cfg (selector wValue wIndex) = some (ptr, len) →
        e'.source = ptr ∧ e'.maxLen.toNat = min wLength.toNat len.toNat ∧ e'.count = 0) ∧
      (descLookup s.cfg (selector wValue wIndex) = none →
        e'.source = e.source ∧ e'.maxLen = e.maxLen ∧ e'.count = e.count)

/-- spec/20_memory.md R66 and spec/70_reset_and_hazards.md R367. That the answers stand in the parameters is the choice of the model (notes/assumptions/6.md), and the length of the ERR string is PRESUMED (32.md). -/
def Obligations.DescriptorLookupKeepsItsThreeFacts : Prop :=
  ∀ s : State,
    descLookup s.cfg (selector 0x0100 0x0000) = some (s.cfg.deviceDesc, 18#32) ∧
    descLookup s.cfg (selector 0x0302 0x0409) =
      some (if s.cfg.hidDeclared = s.cfg.hidActual then s.cfg.productString else (s.cfg.errString, 8#32)) ∧
    (∀ (r : BitVec 5) (wLength : BitVec 16) (e : EpEntry), s.endpoint? s.dev.currentEndpoint.toNat = some e →
      ∃ t e', exec (.getDescriptor r 0x0100 0x0000 wLength) s = .next t ∧ Accepts e' { s.dev with rebootArmed := 0 } s t ∧
        e'.source = s.cfg.deviceDesc ∧ e'.maxLen.toNat = min wLength.toNat 18 ∧ e'.count = 0)

/-- spec/44_endpoint.md R256, R257, R258, each with R253. -/
def Obligations.OtherRequestsWriteAddressAndLatchOnly : Prop :=
  ∀ (s : State) (e : EpEntry), s.endpoint? s.dev.currentEndpoint.toNat = some e →
    (∀ (r : BitVec 5) (wValue wIndex wLength : BitVec 16), ∃ t, exec (.setAddress r wValue wIndex wLength) s = .next t ∧
      Accepts { e with toggleOut := !e.toggleOut } { s.dev with myAddress := wValue, rebootArmed := 0 } s t) ∧
    (∀ (r : BitVec 5) (wLength : BitVec 16), ∃ t, exec (.setReportBoot r wLength) s = .next t ∧
      Accepts { e with toggleOut := !e.toggleOut } { s.dev with rebootArmed := 1 } s t) ∧
    (∀ (rt rq : Byte) (wValue wIndex wLength : BitVec 16), ∃ t,
      exec (.unrecognisedRequest rt rq wValue wIndex wLength) s = .next t ∧
      Accepts { e with toggleOut := !e.toggleOut } { s.dev with rebootArmed := 0 } s t)

/-- spec/44_endpoint.md R252, R253. -/
def Obligations.OutPayloadMovesTheLatch : Prop :=
  ∀ (s : State) (payload : List Byte) (e : EpEntry), s.endpoint? s.dev.currentEndpoint.toNat = some e →
    (∃ t, exec .outPayloadCookie s = .next t ∧
      Accepts { e with toggleOut := !e.toggleOut }
        { s.dev with rebootArmed := if s.dev.rebootArmed = 1 ∨ s.dev.rebootArmed = 2 then 2 else 0 } s t) ∧
    (∃ t, exec (.outPayloadOther payload) s = .next t ∧
      Accepts { e with toggleOut := !e.toggleOut } { s.dev with rebootArmed := 0 } s t)

/-! ## The whole machine -/

/-- The invariant of Sys2Proof/Safety.lean holds after every step from every state that meets it. -/
def Obligations.StepKeepsTheInvariant : Prop :=
  ∀ s t : State, Inv s → step s = .next t → Inv t

/-- The start of every run; it holds for every value of the free parameters (notes/assumptions/9.md, 10.md). -/
def Obligations.ResetMeetsTheInvariant : Prop :=
  Inv State.reset

/-- spec/10_state.md R31: current_endpoint always indexes an existing entry. The fault is the choice of the model (notes/assumptions/14.md). -/
def Obligations.TheOnlyFaultIsAMissingEndpoint : Prop :=
  (∀ s : State, Inv s → Out.noFault (step s)) ∧
  (∀ s : State, s.endpoint? s.dev.currentEndpoint.toNat = none →
    exec .ack s = .fault .noEndpoint ∧
    (∀ tg payload crc, s.pkt.crc = 0xB001#16 → exec (dataInstr tg payload crc) s = .fault .noEndpoint) ∧
    (∀ r v x l, exec (.getDescriptor r v x l) s = .fault .noEndpoint ∧ exec (.setAddress r v x l) s = .fault .noEndpoint) ∧
    (∀ r l, exec (.setReportBoot r l) s = .fault .noEndpoint) ∧
    (∀ rt rq v x l, exec (.unrecognisedRequest rt rq v x l) s = .fault .noEndpoint) ∧
    exec .outPayloadCookie s = .fault .noEndpoint ∧ (∀ p, exec (.outPayloadOther p) s = .fault .noEndpoint)) ∧
  (∀ (i : Instr) (s : State) (r : Fault), exec i s = .fault r →
    r = .noEndpoint ∧ s.endpoint? s.dev.currentEndpoint.toNat = none ∧
      (i = .ack ∨ (∃ tg payload crc, i = dataInstr tg payload crc ∧ s.pkt.crc = 0xB001#16) ∨
        (∃ r v x l, i = .getDescriptor r v x l) ∨ (∃ r v x l, i = .setAddress r v x l) ∨ (∃ r l, i = .setReportBoot r l) ∨
        (∃ rt rq v x l, i = .unrecognisedRequest rt rq v x l) ∨ i = .outPayloadCookie ∨ (∃ p, i = .outPayloadOther p)))

/-- spec/70_reset_and_hazards.md R382 (1); the callback is total and inside R133. The bound counts steps of this model, which are its choice (notes/assumptions/1.md). -/
def Obligations.EveryInvocationEnds : Prop :=
  ∀ s : State, Inv s → s.io.rst = false → ContractKept s →
    ∃ k t, k ≤ 400 ∧ Steps k s t ∧ t.rxPhase = .idle ∧ Inv t

/-- spec/44_endpoint.md R259; the row that fires is InTokenFiresTheLatch and BootResetIsGuarded. -/
def Obligations.LatchMovesOnlyAsTheTableSays : Prop :=
  ∀ (i : Instr) (s t : State), exec i s = .next t →
    t.dev.rebootArmed =
      match i with
      | .setReportBoot _ _ => 1
      | .getDescriptor _ _ _ _ => 0
      | .setAddress _ _ _ _ => 0
      | .unrecognisedRequest _ _ _ _ _ => 0
      | .outPayloadOther _ => 0
      | .outPayloadCookie => if s.dev.rebootArmed = 1 ∨ s.dev.rebootArmed = 2 then 2 else 0
      | _ => s.dev.rebootArmed

/-- spec/60_exceptions.md R332: it cannot be triggered by unrelated traffic. The flag behind it and the list of what is put out are choices of the model (notes/assumptions/29.md, 24.md); that what ends is the empty response is FiringDrivesTheEmptyResponseThenBootReset. -/
def Obligations.BootResetIsGuarded : Prop :=
  ∀ s t : State, Inv s → step s = .next t →
    (s.halted = false → t.halted = true →
      s.rxPhase = .transmit ∧ s.tx.cmd = none ∧ s.tx.synced = true ∧ s.tx.bits = [] ∧ s.dev.rebootArmed = 2 ∧
      s.dev.currentEndpoint = 0 ∧ t.rxPhase = .idle ∧
      t.io.out = s.io.out ++ [Output.sym .SE0, .sym .SE0, .sym .J, .bootReset]) ∧
    (t.io.out.count .bootReset ≠ s.io.out.count .bootReset → s.halted = false ∧ t.halted = true)

/-- spec/44_endpoint.md R244; the gap before it is spec/70_reset_and_hazards.md R381. The number of steps, the flag, and the gap and the list of what is put out as they stand here are choices of the model (notes/assumptions/1.md, 29.md, 16.md, 24.md). -/
def Obligations.FiringDrivesTheEmptyResponseThenBootReset : Prop :=
  ∀ (s : State) (c : SendCmd), Inv s → s.io.rst = false → s.tx.cmd = some c → s.tx.boot = true →
    ∃ (tg : Bool) (t : State), c = ⟨if tg then 0x4B#8 else 0xC3#8, s.cfg.zero2, 2, 0#8⟩ ∧ Steps 27 s t ∧
      t.io.out = s.io.out ++ List.replicate s.io.gap Output.idle ++
        (frame [if tg then 0x4B#8 else 0xC3#8, 0x00#8, 0x00#8]).map Output.sym ++ [Output.bootReset] ∧
      t.halted = true ∧ t.rxPhase = .idle ∧ t.tx.oe = false ∧ t.registers = { s.registers with halted := true } ∧
      t.io.events = s.io.events

/-- spec/10_state.md R31 to R36 and spec/44_endpoint.md R261, over all instructions. -/
def Obligations.DeviceRegistersHaveNoOtherWriters : Prop :=
  ∀ (i : Instr) (s t : State), exec i s = .next t →
    (t.dev.myAddress ≠ s.dev.myAddress → ∃ r v x l, i = .setAddress r v x l ∧ t.dev.myAddress = v) ∧
    (t.dev.currentEndpoint ≠ s.dev.currentEndpoint →
      ∃ (k : TokenKind) (addr : BitVec 7) (endp : BitVec 4) (crc : BitVec 5), i = k.instr addr endp crc ∧
        TokenGood addr endp crc s ∧ t.dev.currentEndpoint = endp) ∧
    (s.dev.setupRequest = false → t.dev.setupRequest = true →
      ∃ addr endp crc, i = .setup addr endp crc ∧ TokenGood addr endp crc s) ∧
    (s.dev.setupRequest = true → t.dev.setupRequest = false →
      ∃ tg payload crc, i = dataInstr tg payload crc ∧ payload.length = 8 ∧ s.pkt.crc = 0xB001#16) ∧
    (i ≠ .keepalive → t.dev.lastSe0 = s.dev.lastSe0 ∧ t.dev.deltaSe0 = s.dev.deltaSe0 ∧ t.dev.se0Windup = s.dev.se0Windup)

/-- spec/44_endpoint.md R265: ACK and DATA act on the current entry; R263 (3): the callback writes its own. -/
def Obligations.EndpointFileHasNoOtherWriters : Prop :=
  ∀ (i : Instr) (s t : State) (j : Nat), exec i s = .next t →
    t.ep.length = s.ep.length ∧
    (t.endpoint? j ≠ s.endpoint? j →
      (j = s.dev.currentEndpoint.toNat ∧
        (i = .ack ∨ (∃ r v x l, i = .getDescriptor r v x l) ∨ (∃ r v x l, i = .setAddress r v x l) ∨
          (∃ r l, i = .setReportBoot r l) ∨ (∃ rt rq v x l, i = .unrecognisedRequest rt rq v x l) ∨
          i = .outPayloadCookie ∨ (∃ p, i = .outPayloadOther p))) ∨
      (∃ addr endp crc, j = endp.toNat ∧ TokenGood addr endp crc s ∧
        (i = .setup addr endp crc ∨ (i = .inTok addr endp crc ∧ t.endpoint? j = s.io.userIn.entry ∧
          ∃ e, s.endpoint? endp.toNat = some e ∧ CallbackCalled endp e s)))) ∧
    (i = .ack → (t.endpoint? j).map EpEntry.toggleOut = (s.endpoint? j).map EpEntry.toggleOut)

/-- spec/20_memory.md R63: the source memory is read-only to the engine. That it reads as before also after an IN token the callback answers (notes/assumptions/23.md), and that no other agent changes OSC_CTL inside an invocation (31.md), are choices of the model. -/
def Obligations.EngineNeverWritesMemoryOrParameters : Prop :=
  ∀ (i : Instr) (s t : State), s.cfg.wf = true → exec i s = .next t →
    (∀ a, memRead t.mem a = memRead s.mem a) ∧ t.chip.cycCnt = s.chip.cycCnt ∧ t.cfg = s.cfg ∧
    (∀ k, k < s.cfg.trimShift ∨ s.cfg.trimShift + s.cfg.trimW ≤ k → t.chip.oscCtl.getLsbD k = s.chip.oscCtl.getLsbD k) ∧
    (i ≠ .keepalive → t.chip.oscCtl = s.chip.oscCtl)

/-- spec/40_transmit.md R128. The list of what is put out, and the gap in it, are choices of the model (notes/assumptions/24.md, 16.md). -/
def Obligations.DriverIsOnOnlyWhileTransmitting : Prop :=
  ∀ s : State, Inv s →
    (s.rxPhase ≠ .transmit → s.tx.oe = false) ∧
    (∀ t, step s = .next t → ∃ more, t.io.out = s.io.out ++ more ∧
      (∀ x, Output.sym x ∈ more → s.tx.oe = true) ∧
      (Output.idle ∈ more → s.tx.oe = false ∧ t.tx.oe = true) ∧
      (∀ v, Output.oscCtl v ∈ more → s.rxPhase = .preamble ∧ t.chip.oscCtl = v))

/-- spec/60_exceptions.md R334, spec/40_transmit.md R133. -/
def Obligations.EngineSendsOnlyAckAndDataInContract : Prop :=
  ∀ (i : Instr) (s t : State) (c : SendCmd), s.tx.cmd = none → exec i s = .next t → t.tx.cmd = some c →
    (c.token ∈ [0xD2#8, 0xC3#8, 0x4B#8] ∧
      ((c.poly = 0 ∧ c.len = 0) ∨ (c.poly = 0 ∧ c.len = 2 ∧ c.ptr = s.cfg.zero2) ∨ (c.poly = 2 ∧ 1 ≤ c.len ∧ c.len ≤ 8))) ∨
    (∃ addr endp crc e, i = .inTok addr endp crc ∧ TokenGood addr endp crc s ∧ s.endpoint? endp.toNat = some e ∧
      CallbackCalled endp e s ∧ s.io.userIn.action ≠ .silent)

/-- spec/10_state.md R55: no record of what it last transmitted. That what is put out is kept in a list at all is the choice of the model (notes/assumptions/24.md), and this says that no step reads it. -/
def Obligations.NoStepReadsWhatWasPutOut : Prop :=
  ∀ (s : State) (earlier : List Output), step (withEarlierOut earlier s) = Out.map (withEarlierOut earlier) (step s)

/-- spec/44_endpoint.md R269, which the spec marks as derived, at the level of line symbols and of the steps of this model (notes/assumptions/1.md); the gap before each ACK is spec/70_reset_and_hazards.md R381, and that the event brings it and the list of what is put out holds it are choices of the model (16.md, 24.md). -/
def Obligations.RepeatedDataPacketIsIdempotent : Prop :=
  ∀ (s : State) (ev : BusEvent) (later : List BusEvent) (rest : List LineSymbol) (payload : List Byte) (e : EpEntry),
    Inv s → s.io.rst = false → s.halted = false → s.rxPhase = .idle → s.io.events = ev :: ev :: later →
    ev.memWrites = [] → s.endpoint? s.dev.currentEndpoint.toNat = some e → payload.length ≤ 8 →
    (s.dev.setupRequest = true → payload.length = 8) → ev.line = frame (dataBytes e.toggleOut payload) ++ rest →
    ∃ k1 k2 t1 t2, Steps k1 s t1 ∧ Steps k2 t1 t2 ∧
      t1.rxPhase = .idle ∧ t1.io.events = ev :: later ∧
      t1.io.out = s.io.out ++ List.replicate ev.gap Output.idle ++ (frame [PID_ACK]).map Output.sym ∧
      (t1.endpoint? s.dev.currentEndpoint.toNat).map EpEntry.toggleOut = some (!e.toggleOut) ∧
      t2.rxPhase = .idle ∧ t2.io.events = later ∧
      t2.io.out = t1.io.out ++ List.replicate ev.gap Output.idle ++ (frame [PID_ACK]).map Output.sym ∧
      t2.registers = t1.registers
end

