-- ==== Sys2Proof/Laws/Config.lean ====
section
/-! SUPPORT. The value of each field of the configuration record (spec/00_scope.md R7), and the constraints on the parameters of the reset
state. -/

namespace Sys2Proof.Config

@[simp] theorem hardware_endpoints : hardware.endpoints = 3 := rfl
@[simp] theorem hardware_endpoint0Size : hardware.endpoint0Size = 8 := rfl
@[simp] theorem hardware_maxPayload : hardware.maxPayload = 8 := rfl
@[simp] theorem hardware_packetBufCap : hardware.packetBufCap = 12 := rfl
@[simp] theorem hardware_bitRate : hardware.bitRate = 1500000 := rfl
@[simp] theorem hardware_bitTimeNs : hardware.bitTimeNs = 666 := rfl
@[simp] theorem hardware_coreClock : hardware.coreClock = 48000000 := rfl
@[simp] theorem hardware_cyclesPerBit : hardware.cyclesPerBit = 32 := rfl
@[simp] theorem hardware_txJitterPermille : hardware.txJitterPermille = 15 := rfl
@[simp] theorem hardware_eopSe0Bits : hardware.eopSe0Bits = 2 := rfl
@[simp] theorem hardware_stuffRun : hardware.stuffRun = 6 := rfl
@[simp] theorem hardware_pidAck : hardware.pidAck = 0xD2#8 := rfl
@[simp] theorem hardware_pidData0 : hardware.pidData0 = 0xC3#8 := rfl
@[simp] theorem hardware_pidData1 : hardware.pidData1 = 0x4B#8 := rfl
@[simp] theorem hardware_pidIn : hardware.pidIn = 0x69#8 := rfl
@[simp] theorem hardware_pidOut : hardware.pidOut = 0xE1#8 := rfl
@[simp] theorem hardware_pidSetup : hardware.pidSetup = 0x2D#8 := rfl
@[simp] theorem hardware_crc16Poly : hardware.crc16Poly = 0xA001#16 := rfl
@[simp] theorem hardware_crc16Init : hardware.crc16Init = 0xFFFF#16 := rfl
@[simp] theorem hardware_crc16Residual : hardware.crc16Residual = 0xB001#16 := rfl
@[simp] theorem hardware_crc5Poly : hardware.crc5Poly = 0x14#5 := rfl
@[simp] theorem hardware_crc5Init : hardware.crc5Init = 0x1F#5 := rfl
@[simp] theorem hardware_crc5Good : hardware.crc5Good = 0#5 := rfl
@[simp] theorem hardware_reqGetDescriptor : hardware.reqGetDescriptor = 0x0680#16 := rfl
@[simp] theorem hardware_reqSetAddress : hardware.reqSetAddress = 0x0500#16 := rfl
@[simp] theorem hardware_reqClassSetReport : hardware.reqClassSetReport = 0x0920#16 := rfl
@[simp] theorem hardware_bootSelectorMagic : hardware.bootSelectorMagic = 0x000003FD#32 := rfl
@[simp] theorem hardware_bootCookie : hardware.bootCookie = [0xFD#8, 0x12#8, 0x34#8, 0xAA#8, 0xBB#8, 0xCC#8, 0xDD#8, 0x00#8] := rfl
@[simp] theorem hardware_deviceDescLen : hardware.deviceDescLen = 18 := rfl
@[simp] theorem hardware_keepaliveNominal : hardware.keepaliveNominal = 48000#32 := rfl
@[simp] theorem hardware_preambleMin : hardware.preambleMin = 8 := rfl
@[simp] theorem hardware_wordBits : hardware.wordBits = 32 := rfl

/-- R7 derives the cycles of a bit from the two rates. -/
theorem cycles_of_rates : CYCLES_PER_BIT * BIT_RATE = CORE_CLOCK := rfl

/-- The type of a word has the width of R7's table. -/
theorem word_bits : Word = BitVec WORD := rfl

/-- Two ranges lie apart exactly when neither starts inside the other. -/
theorem apart_iff (a : Word) (n : Nat) (b : Word) (m : Nat) :
    apart a n b m = true ↔ n ≤ (b - a).toNat ∧ m ≤ (a - b).toNat := by
  simp [apart]

theorem apart_comm (a : Word) (n : Nat) (b : Word) (m : Nat) : apart a n b m = apart b m a n := by
  simp [apart, Bool.and_comm]

/-- The two zero bytes of the reset state lie outside the packet buffer. -/
theorem zero2Reset_apart : apart scratchBaseReset PACKET_BUF_CAP zero2Reset 2 = true := by
  rw [apart_iff]
  have h : zero2Free % (2 ^ 32 - 1 - PACKET_BUF_CAP) < 2 ^ 32 - 1 - PACKET_BUF_CAP := Nat.mod_lt _ (by decide)
  have hc : PACKET_BUF_CAP = 12 := rfl
  simp only [zero2Reset, hc] at h ⊢
  generalize zero2Free % (2 ^ 32 - 1 - 12) = z at h ⊢
  generalize scratchBaseReset = b
  bv_omega

/-- The "ERR" string of the reset state fits beside them. -/
theorem errStringReset_fits : errFits errStringReset scratchBaseReset zero2Reset = true := by
  have hz := zero2Reset_apart
  simp only [errStringReset]
  split
  · assumption
  · split
    · assumption
    · rename_i h
      simp only [errFits, Bool.and_eq_true, apart_iff, not_and_or] at h hz ⊢
      simp only [show PACKET_BUF_CAP = 12 from rfl, show ERR_STRING.length = 8 from rfl] at h hz ⊢
      generalize zero2Reset = z at h hz ⊢
      generalize scratchBaseReset = b at h hz ⊢
      obtain ⟨d, rfl⟩ : ∃ d, z = b + d := ⟨z - b, by bv_omega⟩
      bv_omega

/-- The parameters of the reset state satisfy their constraints, whatever the free values. -/
theorem reset_wf : Params.reset.wf = true := by
  have hz := zero2Reset_apart
  have he := errStringReset_fits
  simp only [errFits, Bool.and_eq_true] at he
  have hband : ∀ x : Nat, x < 2 ^ 31 - 2 → ∀ y, 1 + x + (1 + y % (2 ^ 31 - 1 - (1 + x))) < 2 ^ 31 := by
    intro x hx y
    have : y % (2 ^ 31 - 1 - (1 + x)) < 2 ^ 31 - 1 - (1 + x) := Nat.mod_lt _ (by omega)
    omega
  have hfield : ∀ x : Nat, x < 32 → ∀ y, 1 + x + y % (33 - (1 + x)) ≤ 32 := by
    intro x hx y
    have : y % (33 - (1 + x)) < 33 - (1 + x) := Nat.mod_lt _ (by omega)
    omega
  simp only [Params.wf, Params.reset, Bool.and_eq_true]
  exact ⟨⟨⟨⟨⟨⟨⟨decide_eq_true (by omega), decide_eq_true (by omega)⟩, decide_eq_true (hband _ (Nat.mod_lt _ (by decide)) _)⟩,
    decide_eq_true (by omega)⟩, decide_eq_true (hfield _ (Nat.mod_lt _ (by decide)) _)⟩, hz⟩, he.1⟩, he.2⟩

end Sys2Proof.Config
end

