-- ==== Sys2Proof/Laws/Memory.lean ====
section
/-! SUPPORT. The source memory: read after write, and every operation keeps the canonical form. -/

namespace Sys2Proof.Machine

@[simp] theorem memLookup_nil (a : Nat) : memLookup [] a = none := rfl

theorem memLookup_memWrite_same (m : Memory) (a : Nat) (v : Byte) : memLookup (memWrite m a v) a = some v := by
  induction m with
  | nil => simp [memWrite, memLookup]
  | cons c r ih =>
    obtain ⟨b, w⟩ := c
    by_cases h1 : a < b
    · simp [memWrite, h1, memLookup]
    · by_cases h2 : a = b
      · simp [memWrite, h2, memLookup]
      · simp [memWrite, h1, h2, memLookup, ih]

theorem memLookup_memWrite_other (m : Memory) (a x : Nat) (v : Byte) (h : x ≠ a) :
    memLookup (memWrite m a v) x = memLookup m x := by
  induction m with
  | nil => simp [memWrite, memLookup, h]
  | cons c r ih =>
    obtain ⟨b, w⟩ := c
    by_cases h1 : a < b
    · simp [memWrite, h1, memLookup, h]
    · by_cases h2 : a = b
      · subst h2; simp [memWrite, memLookup, h]
      · simp [memWrite, h1, h2, memLookup, ih]

/-- A written byte reads back. -/
@[simp] theorem memRead_memWrite_same (m : Memory) (a : Nat) (v : Byte) : memRead (memWrite m a v) a = v := by
  simp [memRead, memLookup_memWrite_same]

/-- A write leaves every other address alone. -/
theorem memRead_memWrite_other (m : Memory) (a x : Nat) (v : Byte) (h : x ≠ a) :
    memRead (memWrite m a v) x = memRead m x := by
  simp [memRead, memLookup_memWrite_other m a x v h]

theorem mem_memWrite (m : Memory) (a : Nat) (v : Byte) (c : Host.Cell) (h : c ∈ memWrite m a v) :
    c = (a, v) ∨ c ∈ m := by
  induction m with
  | nil => simpa [memWrite] using h
  | cons d r ih =>
    obtain ⟨b, w⟩ := d
    simp only [memWrite] at h
    split at h
    · simpa using h
    · split at h
      · rcases List.mem_cons.1 h with h | h
        · exact .inl h
        · exact .inr (List.mem_cons_of_mem _ h)
      · rcases List.mem_cons.1 h with h | h
        · exact .inr (h ▸ List.mem_cons_self)
        · exact (ih h).imp_right (List.mem_cons_of_mem _)

/-- A write keeps the canonical form. -/
theorem memWrite_wf (m : Memory) (a : Nat) (v : Byte) (ha : a < 2 ^ 32) (h : Memory.wf m) : Memory.wf (memWrite m a v) := by
  refine ⟨?_, fun c hc => (mem_memWrite m a v c hc).elim (fun e => e ▸ ha) (h.2 c)⟩
  induction m with
  | nil => simp [memWrite]
  | cons d r ih =>
    obtain ⟨b, w⟩ := d
    have hp := List.pairwise_cons.1 h.1
    simp only [memWrite]
    split
    · rename_i hab
      refine List.pairwise_cons.2 ⟨fun c hc => ?_, h.1⟩
      rcases List.mem_cons.1 hc with rfl | hc
      · exact hab
      · exact Nat.lt_trans hab (hp.1 c hc)
    · split
      · rename_i _ hab
        subst hab
        exact List.pairwise_cons.2 ⟨hp.1, hp.2⟩
      · rename_i h1 h2
        refine List.pairwise_cons.2 ⟨fun c hc => ?_, ih ⟨hp.2, fun c hc => h.2 c (List.mem_cons_of_mem _ hc)⟩⟩
        rcases mem_memWrite r a v c hc with rfl | hc
        · exact Nat.lt_of_le_of_ne (Nat.not_lt.1 h1) (Ne.symm h2)
        · exact hp.1 c hc

/-- Several writes leave an address that none of them names alone. -/
theorem memRead_memWrites_other (m : Memory) (ws : List (Word × Byte)) (x : Nat) (h : ∀ w ∈ ws, w.1.toNat ≠ x) :
    memRead (memWrites m ws) x = memRead m x := by
  induction ws generalizing m with
  | nil => rfl
  | cons w ws ih =>
    obtain ⟨hw, hws⟩ := List.forall_mem_cons.1 h
    exact (ih _ hws).trans (memRead_memWrite_other _ _ _ _ hw.symm)

/-- Of several writes the last one to an address is what it reads as. -/
theorem memRead_memWrites_last (m : Memory) (before after : List (Word × Byte)) (a : Word) (v : Byte) (h : ∀ w ∈ after, w.1 ≠ a) :
    memRead (memWrites m (before ++ (a, v) :: after)) a.toNat = v := by
  simp only [memWrites, List.foldl_append, List.foldl_cons]
  exact (memRead_memWrites_other _ after _ fun w hw e => h w hw (BitVec.eq_of_toNat_eq e)).trans (memRead_memWrite_same _ _ _)

/-- Several writes keep the canonical form. -/
theorem memWrites_wf (m : Memory) (ws : List (Word × Byte)) (h : Memory.wf m) : Memory.wf (memWrites m ws) := by
  induction ws generalizing m with
  | nil => exact h
  | cons w ws ih => exact ih _ (memWrite_wf m _ _ w.1.isLt h)

theorem reset_mem_wf : Memory.wf State.reset.mem := ⟨List.Pairwise.nil, by simp [State.reset]⟩

end Sys2Proof.Machine
end

