-- ==== Sys2Proof/Laws/Bits.lean ====
section
/-! SUPPORT. Bits, bytes and fields: lengths, and assembly undone by splitting. -/

namespace Sys2Proof

@[simp] theorem byteBits_length (b : Byte) : (byteBits b).length = 8 := rfl

@[simp] theorem bitsLsb_nil : bitsLsb [] = [] := rfl

@[simp] theorem bitsLsb_cons (b : Byte) (bs : List Byte) : bitsLsb (b :: bs) = byteBits b ++ bitsLsb bs := rfl

@[simp] theorem bitsLsb_append (a b : List Byte) : bitsLsb (a ++ b) = bitsLsb a ++ bitsLsb b := by
  simp [bitsLsb]

@[simp] theorem bitsLsb_length (bs : List Byte) : (bitsLsb bs).length = 8 * bs.length := by
  induction bs with
  | nil => rfl
  | cons b bs ih => simp [ih]; omega

@[simp] theorem lo8_le16 (lo hi : Byte) : lo8 (le16 lo hi) = lo := by
  ext i h
  simp only [lo8, le16]
  interval_cases i <;> simp

@[simp] theorem hi8_le16 (lo hi : Byte) : hi8 (le16 lo hi) = hi := by
  ext i h
  simp only [hi8, le16]
  interval_cases i <;> simp

@[simp] theorem le16_lo8_hi8 (v : BitVec 16) : le16 (lo8 v) (hi8 v) = v := by
  ext i h
  simp only [lo8, hi8, le16]
  interval_cases i <;> simp

@[simp] theorem tokenAddr_tokenField (a : BitVec 7) (e : BitVec 4) (c : BitVec 5) : tokenAddr (tokenField a e c) = a := by
  ext i h
  simp only [tokenAddr, tokenField]
  interval_cases i <;> simp

@[simp] theorem tokenEndp_tokenField (a : BitVec 7) (e : BitVec 4) (c : BitVec 5) : tokenEndp (tokenField a e c) = e := by
  ext i h
  simp only [tokenEndp, tokenField]
  interval_cases i <;> simp

@[simp] theorem tokenCrc_tokenField (a : BitVec 7) (e : BitVec 4) (c : BitVec 5) : tokenCrc (tokenField a e c) = c := by
  ext i h
  simp only [tokenCrc, tokenField]
  interval_cases i <;> simp

/-- A token field is its three parts. -/
@[simp] theorem tokenField_parts (t : BitVec 16) : tokenField (tokenAddr t) (tokenEndp t) (tokenCrc t) = t := by
  ext i h
  simp only [tokenAddr, tokenEndp, tokenCrc, tokenField]
  interval_cases i <;> simp

/-- The symbol chosen for a bit decodes to that bit. -/
@[simp] theorem decodeLine_nrziSymbol (l : LineLevel) (b : Bool) :
    decodeLine l (nrziSymbol l b) = .ok (if b then .bit1 else .bit0) := by
  cases l <;> cases b <;> rfl

namespace Machine

@[simp] theorem nrziSymbol_eq (l : LineLevel) (b : Bool) : nrziSymbol l b = (levelAfter l b).sym := by
  cases b <;> rfl

@[simp] theorem stuff_nil (n : Nat) : stuff n [] = [] := rfl

@[simp] theorem nrziEncode_nil (l : LineLevel) : nrziEncode l [] = [] := rfl

@[simp] theorem sourceReadN_length (s : State) (a : Word) (n : Nat) : (sourceReadN s a n).length = n := by
  simp [sourceReadN]

end Machine

end Sys2Proof
end

