-- ==== Sys2Proof/Laws/Crc.lean ====
section
/-! SUPPORT. The CRC register: it is linear, and it ends at zero exactly when the bits shifted in are its own. -/

namespace Sys2Proof.Machine

/-- Shifting bits into the register. -/
theorem crcReg_append {w : Nat} (p r : BitVec w) (a b : List Bool) :
    (a ++ b).foldl (crcStep p) r = b.foldl (crcStep p) (a.foldl (crcStep p) r) := List.foldl_append

/-- One step is linear in the register and the bit. -/
theorem crcStep_xor {w : Nat} (p r s : BitVec w) (a b : Bool) :
    crcStep p (r ^^^ s) (a ^^ b) = crcStep p r a ^^^ crcStep p s b := by
  have hx : ∀ x y : BitVec w, x ^^^ p ^^^ (y ^^^ p) = x ^^^ y := by
    intro x y
    rw [show x ^^^ p ^^^ (y ^^^ p) = x ^^^ y ^^^ (p ^^^ p) by ac_rfl]; simp
  simp only [crcStep, BitVec.getLsbD_xor]
  cases r.getLsbD 0 <;> cases s.getLsbD 0 <;> cases a <;> cases b <;>
    simp [BitVec.ushiftRight_xor_distrib, hx] <;> ac_rfl

/-- A change of the register carries through any bits as the change would with zero bits. -/
theorem crcReg_xor {w : Nat} (p : BitVec w) (bits : List Bool) : ∀ r s : BitVec w,
    bits.foldl (crcStep p) (r ^^^ s) =
      bits.foldl (crcStep p) r ^^^ (List.replicate bits.length false).foldl (crcStep p) s := by
  induction bits with
  | nil => intro r s; rfl
  | cons b bs ih =>
    intro r s
    have h := crcStep_xor p r s b false
    rw [Bool.xor_false] at h
    simp only [List.foldl_cons, List.length_cons, List.replicate_succ, h, ih]

/-- If the register ends small, no step has fed back, and the bits were the register's own. -/
theorem crcReg_small {w : Nat} (p : BitVec w) (hp : p.msb = true) (r : BitVec w) (bits : List Bool) :
    bits.length ≤ w → (bits.foldl (crcStep p) r).toNat < 2 ^ (w - bits.length) →
    bits.foldl (crcStep p) r = r >>> bits.length ∧ ∀ k, k < bits.length → bits[k]? = some (r.getLsbD k) := by
  induction bits using List.reverseRecOn with
  | nil => intro _ _; simp
  | append_singleton bs b ih =>
    intro hl hs
    rw [List.foldl_append] at hs ⊢
    simp only [List.length_append, List.length_singleton, List.foldl_cons, List.foldl_nil] at hl hs ⊢
    generalize hx : bs.foldl (crcStep p) r = x at hs ih ⊢
    have hw : 0 < w := by omega
    have hfb : x.getLsbD 0 = b := by
      by_contra hne
      have hf : (x.getLsbD 0 ^^ b) = true := by cases h : x.getLsbD 0 <;> cases b <;> simp_all
      have hm : (crcStep p x b).msb = true := by
        rw [crcStep, if_pos hf, BitVec.msb_xor, hp]
        simp [BitVec.msb_ushiftRight]
      rw [BitVec.msb_eq_decide, decide_eq_true_eq] at hm
      have : 2 ^ (w - (bs.length + 1)) ≤ 2 ^ (w - 1) := Nat.pow_le_pow_right (by decide) (by omega)
      omega
    have hstep : crcStep p x b = x >>> 1 := by rw [crcStep, hfb]; simp
    rw [hstep] at hs ⊢
    have hxs : x.toNat < 2 ^ (w - bs.length) := by
      rw [BitVec.toNat_ushiftRight, Nat.shiftRight_eq_div_pow, Nat.div_lt_iff_lt_mul (by decide), ← Nat.pow_add] at hs
      rwa [show w - (bs.length + 1) + 1 = w - bs.length by omega] at hs
    obtain ⟨h1, h2⟩ := ih (by omega) hxs
    refine ⟨by rw [h1, BitVec.shiftRight_add], fun k hk => ?_⟩
    by_cases hkb : k < bs.length
    · rw [List.getElem?_append_left hkb]; exact h2 k hkb
    · have : k = bs.length := by omega
      subst this
      rw [List.getElem?_append_right (Nat.le_refl _)]
      simp [← hfb, h1]

/-- The register ends at zero after `w` bits exactly when they are its own. -/
theorem crcReg_eq_zero {w : Nat} (p : BitVec w) (hp : p.msb = true) (r : BitVec w) (bits : List Bool) (hl : bits.length = w) :
    bits.foldl (crcStep p) r = 0 ↔ bits = (List.range w).map r.getLsbD := by
  constructor
  · intro h
    obtain ⟨-, h2⟩ := crcReg_small p hp r bits (by omega) (by simp [h])
    apply List.ext_getElem? ; intro k
    by_cases hk : k < w
    · rw [h2 k (by omega)]; simp [hk]
    · rw [List.getElem?_eq_none (by omega), List.getElem?_eq_none (by simp; omega)]
  · rintro rfl
    have : ∀ n, n ≤ w → ((List.range n).map r.getLsbD).foldl (crcStep p) r = r >>> n := by
      intro n
      induction n with
      | zero => intro _; simp
      | succ n ih =>
        intro hn
        rw [List.range_succ, List.map_append, List.foldl_append, ih (by omega)]
        simp [crcStep, BitVec.shiftRight_add]
    rw [this w (Nat.le_refl _)]
    apply BitVec.eq_of_getLsbD_eq; intro i hi; simp

/-- The residual: with `K` what zero bits make of `ones`, the register ends at `K` after `w` bits exactly when they are those of the
register complemented by `ones`. -/
theorem crcReg_residual {w : Nat} (p ones K : BitVec w) (hp : p.msb = true)
    (hK : (List.replicate w false).foldl (crcStep p) ones = K) (r : BitVec w) (bits : List Bool) (hl : bits.length = w) :
    bits.foldl (crcStep p) r = K ↔ bits = (List.range w).map (r ^^^ ones).getLsbD := by
  rw [← crcReg_eq_zero p hp _ _ hl, crcReg_xor, hl, hK]
  constructor
  · rintro rfl; simp
  · intro h
    have : bits.foldl (crcStep p) r ^^^ K ^^^ K = 0 ^^^ K := by rw [h]
    simpa [BitVec.xor_assoc] using this

/-- A vector is its bits. -/
theorem bits_injective {w : Nat} (a b : BitVec w) (h : (List.range w).map a.getLsbD = (List.range w).map b.getLsbD) : a = b := by
  apply BitVec.eq_of_getLsbD_eq; intro i hi
  have := congrArg (fun l => l[i]?) h
  simpa [hi] using this

/-- The bits of a 16-bit field sent low byte first. -/
theorem bits_lo_hi (c : BitVec 16) : bitsLsb [lo8 c, hi8 c] = (List.range 16).map c.getLsbD := by
  simp [bitsLsb, byteBits, lo8, hi8, List.range_succ]

end Sys2Proof.Machine
end

