-- ==== Sys2Proof/Laws/Decode.lean ====
section
/-! SUPPORT. What the decoder's parts accept: keys, selectors, tokens and data packets. -/

namespace Sys2Proof

open Config

theorem le16_inj {a b c d : Byte} (h : le16 a b = le16 c d) : a = c ∧ b = d :=
  ⟨by rw [← lo8_le16 a b, h, lo8_le16], by rw [← hi8_le16 a b, h, hi8_le16]⟩

theorem le16_toNat (a b : Byte) : (le16 a b).toNat = a.toNat + 2 ^ 8 * b.toNat := by
  have := a.isLt
  have := b.isLt
  simp only [le16, BitVec.toNat_or, BitVec.toNat_shiftLeft, BitVec.toNat_setWidth]
  rw [Nat.mod_eq_of_lt (show a.toNat < 2 ^ 16 by omega), Nat.mod_eq_of_lt (show b.toNat < 2 ^ 16 by omega),
    Nat.mod_eq_of_lt (by rw [Nat.shiftLeft_eq]; omega), ← Nat.shiftLeft_add_eq_or_of_lt (by omega), Nat.shiftLeft_eq]
  omega

/-- The key compares the request and the type bits, and nothing else (spec/30_encoding.md R95). -/
theorem reqKey_eq (rt rq a b : Byte) : reqKey rt rq = le16 a b ↔ rt &&& 0xE0#8 = a ∧ rq = b :=
  ⟨fun h => le16_inj h, fun ⟨h, g⟩ => by simp [reqKey, h, g]⟩

theorem reqKey_getDescriptor (rt rq : Byte) : reqKey rt rq = REQ_GET_DESCRIPTOR ↔ rt &&& 0xE0#8 = 0x80#8 ∧ rq = 0x06#8 := by
  rw [show REQ_GET_DESCRIPTOR = le16 0x80#8 0x06#8 by decide, reqKey_eq]

theorem reqKey_setAddress (rt rq : Byte) : reqKey rt rq = REQ_SET_ADDRESS ↔ rt &&& 0xE0#8 = 0x00#8 ∧ rq = 0x05#8 := by
  rw [show REQ_SET_ADDRESS = le16 0x00#8 0x05#8 by decide, reqKey_eq]

theorem reqKey_setReport (rt rq : Byte) : reqKey rt rq = REQ_CLASS_SET_REPORT ↔ rt &&& 0xE0#8 = 0x20#8 ∧ rq = 0x09#8 := by
  rw [show REQ_CLASS_SET_REPORT = le16 0x20#8 0x09#8 by decide, reqKey_eq]

/-- The selector is the four bytes read as one little-endian number (spec/30_encoding.md R96). -/
theorem selector_toNat (v i : BitVec 16) : (selector v i).toNat = v.toNat + 2 ^ 16 * i.toNat := by
  have := v.isLt
  have := i.isLt
  simp only [selector, BitVec.toNat_or, BitVec.toNat_shiftLeft, BitVec.toNat_setWidth]
  rw [Nat.mod_eq_of_lt (show v.toNat < 2 ^ 32 by omega), Nat.mod_eq_of_lt (show i.toNat < 2 ^ 32 by omega),
    Nat.mod_eq_of_lt (by rw [Nat.shiftLeft_eq]; omega), ← Nat.shiftLeft_add_eq_or_of_lt (by omega), Nat.shiftLeft_eq]
  omega

theorem selector_eq_magic (v i : BitVec 16) : selector v i = BOOT_SELECTOR_MAGIC ↔ v = 0x03FD#16 ∧ i = 0x0000#16 := by
  constructor
  · intro h
    have h' := selector_toNat v i
    rw [h] at h'
    have := v.isLt
    simp only [BOOT_SELECTOR_MAGIC, hardware_bootSelectorMagic, BitVec.toNat_ofNat] at h'
    constructor <;> apply BitVec.eq_of_toNat_eq <;> simp <;> omega
  · rintro ⟨rfl, rfl⟩; decide

/-- A token decodes only from two bytes. -/
theorem decodeToken_ok {mk : BitVec 7 → BitVec 4 → BitVec 5 → Instr} {rest : List Byte} {i : Instr} (h : decodeToken mk rest = .ok i) :
    ∃ b1 b2, rest = [b1, b2] ∧ i = mk (tokenAddr (le16 b1 b2)) (tokenEndp (le16 b1 b2)) (tokenCrc (le16 b1 b2)) := by
  unfold decodeToken at h
  split at h
  · exact ⟨_, _, rfl, by simpa using h.symm⟩
  · simp at h

/-- A data packet decodes only from a payload of at most eight bytes and a field. -/
theorem decodeData_ok {mk : List Byte → BitVec 16 → Instr} {rest : List Byte} {i : Instr} (h : decodeData mk rest = .ok i) :
    ∃ payload lo hi, rest = payload ++ [lo, hi] ∧ payload.length ≤ MAX_PAYLOAD ∧ i = mk payload (le16 lo hi) := by
  unfold decodeData at h
  dsimp only at h
  split at h
  · simp at h
  · rename_i hn
    obtain ⟨h1, h2⟩ : 2 ≤ rest.length ∧ rest.length - 2 ≤ MAX_PAYLOAD := by omega
    refine ⟨rest.take (rest.length - 2), rest.getD (rest.length - 2) 0, rest.getD (rest.length - 2 + 1) 0, ?_,
      by simp; omega, by simpa using h.symm⟩
    have hd : rest.drop (rest.length - 2) = [rest.getD (rest.length - 2) 0, rest.getD (rest.length - 2 + 1) 0] := by
      rw [List.drop_eq_getElem_cons (by omega), List.drop_eq_getElem_cons (by omega), List.drop_eq_nil_of_le (by omega)]
      simp [List.getD_eq_getElem?_getD, List.getElem?_eq_getElem (show rest.length - 2 < rest.length by omega),
        List.getElem?_eq_getElem (show rest.length - 2 + 1 < rest.length by omega)]
    rw [← hd, List.take_append_drop]

theorem decodeData_append (mk : List Byte → BitVec 16 → Instr) (payload : List Byte) (lo hi : Byte) (h : payload.length ≤ MAX_PAYLOAD) :
    decodeData mk (payload ++ [lo, hi]) = .ok (mk payload (le16 lo hi)) := by
  simp [decodeData, Nat.not_lt.2 h]

/-- A packet that decodes is the encoding of what it decodes to (spec/43_dispatch.md R211). -/
theorem encode_of_decodePacket {bytes : List Byte} {i : Instr} (h : decodePacket bytes = .ok i) : encode i = .packet bytes := by
  cases bytes with
  | nil => simp [decodePacket] at h
  | cons pid rest =>
    simp only [decodePacket] at h
    split at h
    · rename_i hp
      split at h
      · rename_i hr; simp at h; rw [hp, hr, ← h]; rfl
      · simp at h
    split at h
    · rename_i hp; obtain ⟨b1, b2, rfl, rfl⟩ := decodeToken_ok h; simp [hp, encode, encodeToken]
    split at h
    · rename_i hp; obtain ⟨b1, b2, rfl, rfl⟩ := decodeToken_ok h; simp [hp, encode, encodeToken]
    split at h
    · rename_i hp; obtain ⟨b1, b2, rfl, rfl⟩ := decodeToken_ok h; simp [hp, encode, encodeToken]
    split at h
    · rename_i hp; obtain ⟨p, lo, hi, rfl, _, rfl⟩ := decodeData_ok h; simp [hp, encode, encodeData]
    split at h
    · rename_i hp; obtain ⟨p, lo, hi, rfl, _, rfl⟩ := decodeData_ok h; simp [hp, encode, encodeData]
    split at h
    · simp at h; rw [← h]; rfl
    · simp at h

/-- A line symbol decodes to a bit or an end of packet (spec/41_receive.md R157, R161). -/
theorem decodeLine_ok {l : LineLevel} {x : LineSymbol} {i : Instr} (h : decodeLine l x = .ok i) : i = .eop ∨ i = .bit0 ∨ i = .bit1 := by
  cases x <;> simp [decodeLine] at h <;> subst h
  · split <;> simp
  · split <;> simp
  · simp

/-- The first symbols decode to SYNC or KEEPALIVE (spec/41_receive.md R152 to R154). -/
theorem matchPreamble_ok : ∀ {expected : List LineSymbol} {first : Bool} {syms : List LineSymbol} {i : Instr},
    matchPreamble expected first syms = .ok i → i = .sync ∨ i = .keepalive
  | [], _, _, _, h => by simp [matchPreamble] at h; exact .inl h.symm
  | e :: es, first, syms, i, h => by
    simp only [matchPreamble] at h
    split at h
    · simp at h; exact .inr h.symm
    · simp at h
    · split at h
      · simp at h
      · split at h
        · exact matchPreamble_ok h
        · simp at h
    · split at h
      · exact matchPreamble_ok h
      · simp at h

/-- A URB that decodes is a control request of eight bytes (spec/44_endpoint.md R251). -/
theorem decodeUrb_ok {bytes : List Byte} {i : Instr} (h : decodeUrb bytes = .ok i) :
    (∃ r v x l, i = .getDescriptor r v x l) ∨ (∃ r v x l, i = .setAddress r v x l) ∨ (∃ r l, i = .setReportBoot r l) ∨
      (∃ rt rq v x l, i = .unrecognisedRequest rt rq v x l) := by
  unfold decodeUrb at h
  split at h
  · simp only [Except.ok.injEq] at h
    subst h
    simp only [decodeRequest]
    split
    · exact .inl ⟨_, _, _, _, rfl⟩
    split
    · exact .inr (.inl ⟨_, _, _, _, rfl⟩)
    split
    · exact .inr (.inr (.inl ⟨_, _, rfl⟩))
    · exact .inr (.inr (.inr ⟨_, _, _, _, _, rfl⟩))
  · simp at h

/-- A payload decodes to one of the two OUT payloads (spec/44_endpoint.md R252). -/
theorem decodePayload_ok {bytes : List Byte} {i : Instr} (h : decodePayload bytes = .ok i) :
    i = .outPayloadCookie ∨ i = .outPayloadOther bytes := by
  unfold decodePayload at h
  split at h
  · simp at h; exact .inl h.symm
  split at h
  · simp at h; exact .inr h.symm
  · simp at h

/-- A `send` that decodes is inside the contract (spec/40_transmit.md R133). -/
theorem decodeSend_ok {c : SendCmd} {i : Instr} (h : decodeSend c = .ok i) :
    c.len ≤ MAX_PAYLOAD ∧ (i = .sendNoCrc c.token c.ptr c.len ∨ i = .sendCrc16 c.token c.ptr c.len) := by
  unfold decodeSend at h
  split at h
  · split at h
    · simp at h; exact ⟨by assumption, .inl h.symm⟩
    · simp at h
  split at h
  · split at h
    · simp at h; exact ⟨by assumption, .inr h.symm⟩
    · simp at h
  · simp at h

/-- A packet decodes to one of the packet instructions (spec/43_dispatch.md R211). -/
theorem decodePacket_ok {bytes : List Byte} {i : Instr} (h : decodePacket bytes = .ok i) :
    i = .ack ∨ (∃ p c, i = .data0 p c) ∨ (∃ p c, i = .data1 p c) ∨ (∃ a e c, i = .inTok a e c) ∨ (∃ a e c, i = .outTok a e c) ∨
      (∃ a e c, i = .setup a e c) ∨ (∃ p r, i = .unknownPid p r) := by
  cases bytes with
  | nil => simp [decodePacket] at h
  | cons pid rest =>
    simp only [decodePacket] at h
    split at h
    · split at h
      · simp at h; simp [← h]
      · simp at h
    split at h
    · obtain ⟨b1, b2, -, rfl⟩ := decodeToken_ok h; simp
    split at h
    · obtain ⟨b1, b2, -, rfl⟩ := decodeToken_ok h; simp
    split at h
    · obtain ⟨b1, b2, -, rfl⟩ := decodeToken_ok h; simp
    split at h
    · obtain ⟨p, lo, hi, -, -, rfl⟩ := decodeData_ok h; simp
    split at h
    · obtain ⟨p, lo, hi, -, -, rfl⟩ := decodeData_ok h; simp
    split at h
    · simp at h; simp [← h]
    · simp at h

end Sys2Proof
end

