-- ==== Sys2Proof/Laws/Packet.lean ====
section
/-! SUPPORT. The packet record: what one stored bit does to the bytes, the bits and the running CRC. -/

namespace Sys2Proof.Machine

open Config

/-- The assembled byte has the bit at its place and is otherwise as it was. -/
theorem setBit_getLsbD (cur : Byte) (n : Nat) (b : Bool) (k : Nat) (hk : k < 8) :
    (setBit cur n b).getLsbD k = if k = n then b else cur.getLsbD k := by
  by_cases h : k = n
  · subst h; cases b <;> simp [setBit, hk]
  · have : k - n = 0 ↔ k ≤ n := by omega
    cases b <;> simp [setBit, hk, h] <;> intros <;> omega

/-- Bit `k` of a byte in wire order. -/
theorem byteBits_getElem? (c : Byte) (k : Nat) : (byteBits c)[k]? = if k < 8 then some (c.getLsbD k) else none := by
  by_cases h : k < 8
  · interval_cases k <;> rfl
  · rw [if_neg h, List.getElem?_eq_none (by simpa using h)]

/-- The bits of the byte being assembled grow by the bit put in. -/
theorem take_setBit (cur : Byte) (n : Nat) (hn : n < 8) (b : Bool) :
    (byteBits (setBit cur n b)).take (n + 1) = (byteBits cur).take n ++ [b] := by
  apply List.ext_getElem?
  intro k
  rw [List.getElem?_take, byteBits_getElem?, List.getElem?_append, List.length_take, byteBits_length, Nat.min_eq_left (by omega)]
  by_cases h1 : k < n
  · have h8 : k < 8 := by omega
    rw [if_pos (show k < n + 1 by omega), if_pos h8, if_pos h1, List.getElem?_take, if_pos h1, byteBits_getElem?, if_pos h8,
      setBit_getLsbD _ _ _ _ h8, if_neg (by omega)]
  · by_cases h2 : k = n
    · subst h2
      rw [if_pos (Nat.lt_succ_self k), if_pos hn, if_neg h1, setBit_getLsbD _ _ _ _ hn, if_pos rfl, Nat.sub_self]; rfl
    · rw [if_neg (show ¬ k < n + 1 by omega), if_neg h1, List.getElem?_eq_none (by simp; omega)]

theorem bitsLsb_injective {a b : List Byte} (h : bitsLsb a = bitsLsb b) : a = b := by
  induction a generalizing b with
  | nil =>
    have := congrArg List.length h
    simp at this
    exact this.symm
  | cons x a ih =>
    cases b with
    | nil => have := congrArg List.length h; simp at this
    | cons y b =>
      simp only [bitsLsb_cons] at h
      obtain ⟨h1, h2⟩ := List.append_inj h (by simp)
      have hxy : x = y := by
        apply BitVec.eq_of_getLsbD_eq
        intro i hi
        have := congrArg (fun l => l[i]?) h1
        simpa [byteBits_getElem?, hi] using this
      rw [hxy, ih h2]

/-! ## One stored bit -/

@[simp] theorem pktPush_nbits (p : Pkt) (b : Bool) : (pktPush p b).nbits = p.nbits + 1 := by
  simp only [pktPush]; split <;> [split; skip] <;> rfl

theorem pktPush_buf_full (p : Pkt) (b : Bool) (h : (p.nbits + 1) % 8 = 0) :
    (pktPush p b).buf = p.buf ++ [setBit p.cur (p.nbits % 8) b] ∧ (pktPush p b).cur = 0 := by
  by_cases h8 : p.nbits + 1 = 8
  · simp [pktPush, h8]
  · simp [pktPush, h, h8]

theorem pktPush_buf_part (p : Pkt) (b : Bool) (h : (p.nbits + 1) % 8 ≠ 0) :
    (pktPush p b).buf = p.buf ∧ (pktPush p b).cur = setBit p.cur (p.nbits % 8) b := by
  simp [pktPush, h]

theorem pktPush_pid (p : Pkt) (b : Bool) : (pktPush p b).pid = if p.nbits + 1 = 8 then setBit p.cur (p.nbits % 8) b else p.pid := by
  by_cases h8 : p.nbits + 1 = 8
  · simp [pktPush, h8]
  · by_cases hm : (p.nbits + 1) % 8 = 0 <;> simp [pktPush, h8, hm]

theorem pktPush_poly (p : Pkt) (b : Bool) : (pktPush p b).poly = if p.nbits + 1 = 8 then selectPoly (pktPush p b).pid else p.poly := by
  by_cases h8 : p.nbits + 1 = 8
  · simp [pktPush, h8]
  · by_cases hm : (p.nbits + 1) % 8 = 0 <;> simp [pktPush, h8, hm]

/-- The register: untouched before the PID is complete, initialised with it, stepped after it. -/
theorem pktPush_crc (p : Pkt) (b : Bool) :
    (pktPush p b).crc = if p.nbits + 1 = 8 then initCrc (pktPush p b).poly p.crc
      else if 8 ≤ p.nbits then stepCrc p.poly p.crc b else p.crc := by
  by_cases h8 : p.nbits + 1 = 8
  · have : ¬ 8 ≤ p.nbits := by omega
    simp [pktPush, h8, this]
  · by_cases hm : (p.nbits + 1) % 8 = 0 <;> simp [pktPush, h8, hm]

/-- The bits received grow by the bit stored. -/
theorem storedBits_pktPush (p : Pkt) (b : Bool) : storedBits (pktPush p b) = storedBits p ++ [b] := by
  have hn : p.nbits % 8 < 8 := Nat.mod_lt _ (by decide)
  by_cases h : (p.nbits + 1) % 8 = 0
  · have h7 : p.nbits % 8 = 7 := by omega
    obtain ⟨h1, h2⟩ := pktPush_buf_full p b h
    have := take_setBit p.cur 7 (by decide) b
    rw [List.take_of_length_le (by simp)] at this
    simp [storedBits, h1, h2, h, h7, this]
  · obtain ⟨h1, h2⟩ := pktPush_buf_part p b h
    have := take_setBit p.cur _ hn b
    rw [show p.nbits % 8 + 1 = (p.nbits + 1) % 8 by omega] at this
    simp [storedBits, h1, h2, this]

theorem storedBits_length (p : Pkt) (h : RxOk p) : (storedBits p).length = p.nbits := by
  have := h.stored
  have : p.nbits % 8 < 8 := Nat.mod_lt _ (by decide)
  simp [storedBits]; omega

theorem RxOk.push {p : Pkt} (h : RxOk p) (hn : p.nbits < 8 * PACKET_BUF_CAP) (b : Bool) : RxOk (pktPush p b) := by
  refine ⟨by rw [pktPush_nbits]; omega, ?_⟩
  rw [pktPush_nbits]
  by_cases hm : (p.nbits + 1) % 8 = 0
  · rw [(pktPush_buf_full p b hm).1, List.length_append, h.stored, List.length_singleton]; omega
  · rw [(pktPush_buf_part p b hm).1, h.stored]; omega

theorem runCrc_append (poly : Poly) (bits : List Bool) (b : Bool) :
    runCrc poly (bits ++ [b]) = stepCrc poly (runCrc poly bits) b := by
  simp [runCrc, List.foldl_append]

/-- With a polynomial, the register starts at a value of its own. -/
theorem initCrc_eq (poly : Poly) (h : poly ≠ .none) (c : BitVec 16) : initCrc poly c = runCrc poly [] := by
  cases poly <;> [exact absurd rfl h; rfl; rfl]

theorem CrcTracks.push {p : Pkt} (ho : RxOk p) (h : CrcTracks p) (b : Bool) : CrcTracks (pktPush p b) := by
  have hlen := storedBits_length p ho
  have hst := storedBits_pktPush p b
  have hs := ho.stored
  refine ⟨?_, ?_, ?_, ?_⟩
  · rw [pktPush_nbits, pktPush_pid]
    intro h8
    by_cases he : p.nbits + 1 = 8
    · have hm : (p.nbits + 1) % 8 = 0 := by omega
      have hb : p.buf = [] := List.length_eq_zero_iff.1 (by omega)
      rw [if_pos he, (pktPush_buf_full p b hm).1, hb]; rfl
    · rw [if_neg he]
      have h0 := h.pid (by omega)
      by_cases hm : (p.nbits + 1) % 8 = 0
      · rw [(pktPush_buf_full p b hm).1, List.head?_append, h0]; rfl
      · rw [(pktPush_buf_part p b hm).1, h0]
  · rw [pktPush_nbits, pktPush_poly]
    intro h8
    by_cases he : p.nbits + 1 = 8
    · rw [if_pos he]
    · rw [if_neg he, pktPush_pid, if_neg he]; exact h.poly (by omega)
  · rw [pktPush_nbits, pktPush_poly]
    intro h8
    rw [if_neg (by omega)]; exact h.noPoly (by omega)
  · rw [pktPush_nbits]
    intro h8 hp
    rw [hst, pktPush_crc]
    by_cases he : p.nbits + 1 = 8
    · rw [if_pos he, initCrc_eq _ hp, List.drop_eq_nil_of_le (by rw [List.length_append, hlen]; simp [he])]
    · have hp' : p.poly ≠ .none := by rw [pktPush_poly, if_neg he] at hp; exact hp
      rw [if_neg he, if_pos (by omega), pktPush_poly, if_neg he, List.drop_append_of_le_length (by omega), runCrc_append,
        ← h.crc (by omega) hp']

theorem RxOk.start (p : Pkt) : RxOk (pktStart p) := ⟨Nat.zero_le _, by simp [pktStart]⟩

theorem CrcTracks.start (p : Pkt) : CrcTracks (pktStart p) :=
  ⟨fun h => absurd h (by simp [pktStart]), fun h => absurd h (by simp [pktStart]), fun _ => rfl,
    fun h => absurd h (by simp [pktStart])⟩

/-! ## Many stored bits -/

theorem pktPush_foldl (bits : List Bool) : ∀ p : Pkt, RxOk p → CrcTracks p → p.nbits + bits.length ≤ 8 * PACKET_BUF_CAP →
    RxOk (bits.foldl pktPush p) ∧ CrcTracks (bits.foldl pktPush p) ∧ (bits.foldl pktPush p).nbits = p.nbits + bits.length ∧
      storedBits (bits.foldl pktPush p) = storedBits p ++ bits := by
  induction bits with
  | nil => intro p h1 h2 _; exact ⟨h1, h2, rfl, by simp⟩
  | cons b bs ih =>
    intro p h1 h2 hl
    simp only [List.length_cons] at hl
    obtain ⟨a, c, d, e⟩ := ih (pktPush p b) (h1.push (by omega) b) (h2.push h1 b) (by rw [pktPush_nbits]; omega)
    refine ⟨a, c, ?_, ?_⟩
    · rw [List.foldl_cons, d, pktPush_nbits, List.length_cons]; omega
    · rw [List.foldl_cons, e, storedBits_pktPush]; simp

/-- Receiving whole bytes stores those bytes. -/
theorem pktPush_bytes (p : Pkt) (bytes : List Byte) (h : bytes.length ≤ PACKET_BUF_CAP) :
    let q := (bitsLsb bytes).foldl pktPush (pktStart p)
    RxOk q ∧ CrcTracks q ∧ q.nbits = 8 * bytes.length ∧ q.buf = bytes := by
  obtain ⟨a, c, d, e⟩ := pktPush_foldl (bitsLsb bytes) (pktStart p) (.start p) (.start p) (by simp [pktStart]; omega)
  have d' : ((bitsLsb bytes).foldl pktPush (pktStart p)).nbits = 8 * bytes.length := by rw [d]; simp [pktStart]
  refine ⟨a, c, d', bitsLsb_injective ?_⟩
  have : storedBits ((bitsLsb bytes).foldl pktPush (pktStart p)) = bitsLsb bytes := by rw [e]; simp [storedBits, pktStart]
  rw [storedBits, d'] at this
  simpa using this

/-- In a packet of whole bytes the bits received are those of its bytes. -/
theorem storedBits_whole (p : Pkt) (h : p.nbits % 8 = 0) : storedBits p = bitsLsb p.buf := by
  simp [storedBits, h]

theorem bitsLsb_drop8 (b : Byte) (bs : List Byte) : (bitsLsb (b :: bs)).drop 8 = bitsLsb bs := by
  rw [bitsLsb_cons, List.drop_append_of_le_length (by simp), List.drop_of_length_le (by simp), List.nil_append]

/-! ## The running register in terms of the two CRCs -/

theorem runCrc_crc16 (bits : List Bool) : runCrc .crc16 bits = crc16Reg bits := rfl

theorem runCrc_crc5 (bits : List Bool) : (runCrc .crc5 bits).setWidth 5 = crc5Reg bits := by
  induction bits using List.reverseRecOn with
  | nil => rfl
  | append_singleton bs b ih =>
    rw [runCrc_append, stepCrc, ih, crc5Reg, crc5Reg, List.foldl_append]; simp

theorem runCrc_crc5_small (bits : List Bool) : runCrc .crc5 bits = (crc5Reg bits).setWidth 16 := by
  induction bits using List.reverseRecOn with
  | nil => rfl
  | append_singleton bs b ih =>
    rw [runCrc_append, stepCrc, runCrc_crc5, crc5Reg, crc5Reg, List.foldl_append]; simp

/-- The packet record of the dispatcher: the first byte is the PID, and the register is that of the bytes after it. -/
theorem packet_crc {p : Pkt} (hc : CrcTracks p) (h8 : p.nbits % 8 = 0) (h0 : 8 ≤ p.nbits) (b : Byte) (bs : List Byte)
    (hb : p.buf = b :: bs) : p.pid = b ∧ p.poly = selectPoly b ∧
      (selectPoly b = .crc16 → p.crc = crc16Reg (bitsLsb bs)) ∧ (selectPoly b = .crc5 → p.crc.setWidth 5 = crc5Reg (bitsLsb bs)) := by
  have hp : p.pid = b := by have := hc.pid h0; rw [hb] at this; simpa using this.symm
  have hq : p.poly = selectPoly b := by rw [hc.poly h0, hp]
  have hs : (storedBits p).drop 8 = bitsLsb bs := by rw [storedBits_whole p h8, hb, bitsLsb_drop8]
  refine ⟨hp, hq, fun h => ?_, fun h => ?_⟩
  · have := hc.crc h0 (by rw [hq, h]; decide)
    rw [this, hs, hq, h, runCrc_crc16]
  · have := hc.crc h0 (by rw [hq, h]; decide)
    rw [this, hs, hq, h, runCrc_crc5]

end Sys2Proof.Machine
end

