-- ==== Sys2Proof/Laws/State.lean ====
section
/-! SUPPORT. One lemma per field of State per shared update, each true by definition, so that no proof unfolds a record update. -/

namespace Sys2Proof.Machine

/-! ### setEp -/

@[simp] theorem setEp_ep (s : State) (i : Nat) (e : EpEntry) : (setEp s i e).ep = s.ep.set i e := rfl
@[simp] theorem setEp_dev (s : State) (i : Nat) (e : EpEntry) : (setEp s i e).dev = s.dev := rfl
@[simp] theorem setEp_pkt (s : State) (i : Nat) (e : EpEntry) : (setEp s i e).pkt = s.pkt := rfl
@[simp] theorem setEp_rx (s : State) (i : Nat) (e : EpEntry) : (setEp s i e).rx = s.rx := rfl
@[simp] theorem setEp_tx (s : State) (i : Nat) (e : EpEntry) : (setEp s i e).tx = s.tx := rfl
@[simp] theorem setEp_rxPhase (s : State) (i : Nat) (e : EpEntry) : (setEp s i e).rxPhase = s.rxPhase := rfl
@[simp] theorem setEp_stage (s : State) (i : Nat) (e : EpEntry) : (setEp s i e).stage = s.stage := rfl
@[simp] theorem setEp_halted (s : State) (i : Nat) (e : EpEntry) : (setEp s i e).halted = s.halted := rfl
@[simp] theorem setEp_chip (s : State) (i : Nat) (e : EpEntry) : (setEp s i e).chip = s.chip := rfl
@[simp] theorem setEp_mem (s : State) (i : Nat) (e : EpEntry) : (setEp s i e).mem = s.mem := rfl
@[simp] theorem setEp_io (s : State) (i : Nat) (e : EpEntry) : (setEp s i e).io = s.io := rfl
@[simp] theorem setEp_cfg (s : State) (i : Nat) (e : EpEntry) : (setEp s i e).cfg = s.cfg := rfl
@[simp] theorem setEp_freeCount (s : State) (i : Nat) (e : EpEntry) : (setEp s i e).freeCount = s.freeCount := rfl

/-! ### setCurrentEp -/

@[simp] theorem setCurrentEp_ep (s : State) (e : EpEntry) : (setCurrentEp s e).ep = s.ep.set s.dev.currentEndpoint.toNat e := rfl
@[simp] theorem setCurrentEp_dev (s : State) (e : EpEntry) : (setCurrentEp s e).dev = s.dev := rfl
@[simp] theorem setCurrentEp_pkt (s : State) (e : EpEntry) : (setCurrentEp s e).pkt = s.pkt := rfl
@[simp] theorem setCurrentEp_rx (s : State) (e : EpEntry) : (setCurrentEp s e).rx = s.rx := rfl
@[simp] theorem setCurrentEp_tx (s : State) (e : EpEntry) : (setCurrentEp s e).tx = s.tx := rfl
@[simp] theorem setCurrentEp_rxPhase (s : State) (e : EpEntry) : (setCurrentEp s e).rxPhase = s.rxPhase := rfl
@[simp] theorem setCurrentEp_stage (s : State) (e : EpEntry) : (setCurrentEp s e).stage = s.stage := rfl
@[simp] theorem setCurrentEp_halted (s : State) (e : EpEntry) : (setCurrentEp s e).halted = s.halted := rfl
@[simp] theorem setCurrentEp_chip (s : State) (e : EpEntry) : (setCurrentEp s e).chip = s.chip := rfl
@[simp] theorem setCurrentEp_mem (s : State) (e : EpEntry) : (setCurrentEp s e).mem = s.mem := rfl
@[simp] theorem setCurrentEp_io (s : State) (e : EpEntry) : (setCurrentEp s e).io = s.io := rfl
@[simp] theorem setCurrentEp_cfg (s : State) (e : EpEntry) : (setCurrentEp s e).cfg = s.cfg := rfl
@[simp] theorem setCurrentEp_freeCount (s : State) (e : EpEntry) : (setCurrentEp s e).freeCount = s.freeCount := rfl

/-! ### setDev -/

@[simp] theorem setDev_ep (s : State) (d : Dev) : (setDev s d).ep = s.ep := rfl
@[simp] theorem setDev_dev (s : State) (d : Dev) : (setDev s d).dev = d := rfl
@[simp] theorem setDev_pkt (s : State) (d : Dev) : (setDev s d).pkt = s.pkt := rfl
@[simp] theorem setDev_rx (s : State) (d : Dev) : (setDev s d).rx = s.rx := rfl
@[simp] theorem setDev_tx (s : State) (d : Dev) : (setDev s d).tx = s.tx := rfl
@[simp] theorem setDev_rxPhase (s : State) (d : Dev) : (setDev s d).rxPhase = s.rxPhase := rfl
@[simp] theorem setDev_stage (s : State) (d : Dev) : (setDev s d).stage = s.stage := rfl
@[simp] theorem setDev_halted (s : State) (d : Dev) : (setDev s d).halted = s.halted := rfl
@[simp] theorem setDev_chip (s : State) (d : Dev) : (setDev s d).chip = s.chip := rfl
@[simp] theorem setDev_mem (s : State) (d : Dev) : (setDev s d).mem = s.mem := rfl
@[simp] theorem setDev_io (s : State) (d : Dev) : (setDev s d).io = s.io := rfl
@[simp] theorem setDev_cfg (s : State) (d : Dev) : (setDev s d).cfg = s.cfg := rfl
@[simp] theorem setDev_freeCount (s : State) (d : Dev) : (setDev s d).freeCount = s.freeCount := rfl

/-! ### drive -/

@[simp] theorem drive_ep (s : State) (l : List LineSymbol) : (drive s l).ep = s.ep := rfl
@[simp] theorem drive_dev (s : State) (l : List LineSymbol) : (drive s l).dev = s.dev := rfl
@[simp] theorem drive_pkt (s : State) (l : List LineSymbol) : (drive s l).pkt = s.pkt := rfl
@[simp] theorem drive_rx (s : State) (l : List LineSymbol) : (drive s l).rx = s.rx := rfl
@[simp] theorem drive_tx (s : State) (l : List LineSymbol) : (drive s l).tx = s.tx := rfl
@[simp] theorem drive_rxPhase (s : State) (l : List LineSymbol) : (drive s l).rxPhase = s.rxPhase := rfl
@[simp] theorem drive_stage (s : State) (l : List LineSymbol) : (drive s l).stage = s.stage := rfl
@[simp] theorem drive_halted (s : State) (l : List LineSymbol) : (drive s l).halted = s.halted := rfl
@[simp] theorem drive_chip (s : State) (l : List LineSymbol) : (drive s l).chip = s.chip := rfl
@[simp] theorem drive_mem (s : State) (l : List LineSymbol) : (drive s l).mem = s.mem := rfl
@[simp] theorem drive_io (s : State) (l : List LineSymbol) : (drive s l).io = { s.io with out := s.io.out ++ l.map Output.sym } := rfl
@[simp] theorem drive_cfg (s : State) (l : List LineSymbol) : (drive s l).cfg = s.cfg := rfl
@[simp] theorem drive_freeCount (s : State) (l : List LineSymbol) : (drive s l).freeCount = s.freeCount := rfl

/-! ### writeOscCtl -/

@[simp] theorem writeOscCtl_ep (s : State) (v : Word) : (writeOscCtl s v).ep = s.ep := rfl
@[simp] theorem writeOscCtl_dev (s : State) (v : Word) : (writeOscCtl s v).dev = s.dev := rfl
@[simp] theorem writeOscCtl_pkt (s : State) (v : Word) : (writeOscCtl s v).pkt = s.pkt := rfl
@[simp] theorem writeOscCtl_rx (s : State) (v : Word) : (writeOscCtl s v).rx = s.rx := rfl
@[simp] theorem writeOscCtl_tx (s : State) (v : Word) : (writeOscCtl s v).tx = s.tx := rfl
@[simp] theorem writeOscCtl_rxPhase (s : State) (v : Word) : (writeOscCtl s v).rxPhase = s.rxPhase := rfl
@[simp] theorem writeOscCtl_stage (s : State) (v : Word) : (writeOscCtl s v).stage = s.stage := rfl
@[simp] theorem writeOscCtl_halted (s : State) (v : Word) : (writeOscCtl s v).halted = s.halted := rfl
@[simp] theorem writeOscCtl_chip (s : State) (v : Word) : (writeOscCtl s v).chip = { s.chip with oscCtl := v } := rfl
@[simp] theorem writeOscCtl_mem (s : State) (v : Word) : (writeOscCtl s v).mem = s.mem := rfl
@[simp] theorem writeOscCtl_io (s : State) (v : Word) : (writeOscCtl s v).io = { s.io with out := s.io.out ++ [Output.oscCtl v] } := rfl
@[simp] theorem writeOscCtl_cfg (s : State) (v : Word) : (writeOscCtl s v).cfg = s.cfg := rfl
@[simp] theorem writeOscCtl_freeCount (s : State) (v : Word) : (writeOscCtl s v).freeCount = s.freeCount := rfl

/-! ### enterInvocation -/

@[simp] theorem enterInvocation_ep (ev : BusEvent) (l : List BusEvent) (s : State) : (enterInvocation ev l s).ep = s.ep := rfl
@[simp] theorem enterInvocation_dev (ev : BusEvent) (l : List BusEvent) (s : State) : (enterInvocation ev l s).dev = s.dev := rfl
@[simp] theorem enterInvocation_pkt (ev : BusEvent) (l : List BusEvent) (s : State) : (enterInvocation ev l s).pkt = Config.freePkt s.freeCount := rfl
@[simp] theorem enterInvocation_rx (ev : BusEvent) (l : List BusEvent) (s : State) : (enterInvocation ev l s).rx = Config.freeRx s.freeCount := rfl
@[simp] theorem enterInvocation_tx (ev : BusEvent) (l : List BusEvent) (s : State) : (enterInvocation ev l s).tx = { s.tx with oe := false } := rfl
@[simp] theorem enterInvocation_rxPhase (ev : BusEvent) (l : List BusEvent) (s : State) : (enterInvocation ev l s).rxPhase = .preamble := rfl
@[simp] theorem enterInvocation_stage (ev : BusEvent) (l : List BusEvent) (s : State) : (enterInvocation ev l s).stage = s.stage := rfl
@[simp] theorem enterInvocation_halted (ev : BusEvent) (l : List BusEvent) (s : State) : (enterInvocation ev l s).halted = s.halted := rfl
@[simp] theorem enterInvocation_chip (ev : BusEvent) (l : List BusEvent) (s : State) : (enterInvocation ev l s).chip = { oscCtl := ev.oscCtl.getD s.chip.oscCtl, cycCnt := ev.cycCnt } := rfl
@[simp] theorem enterInvocation_mem (ev : BusEvent) (l : List BusEvent) (s : State) : (enterInvocation ev l s).mem = memWrites s.mem ev.memWrites := rfl
@[simp] theorem enterInvocation_io (ev : BusEvent) (l : List BusEvent) (s : State) : (enterInvocation ev l s).io = { s.io with events := l, lineIn := ev.line, userIn := ev.userIn, gap := ev.gap } := rfl
@[simp] theorem enterInvocation_cfg (ev : BusEvent) (l : List BusEvent) (s : State) : (enterInvocation ev l s).cfg = s.cfg := rfl
@[simp] theorem enterInvocation_freeCount (ev : BusEvent) (l : List BusEvent) (s : State) : (enterInvocation ev l s).freeCount = s.freeCount + 1 := rfl

/-! ### endInvocation -/

@[simp] theorem endInvocation_ep (s : State) : (endInvocation s).ep = s.ep := rfl
@[simp] theorem endInvocation_dev (s : State) : (endInvocation s).dev = s.dev := rfl
@[simp] theorem endInvocation_pkt (s : State) : (endInvocation s).pkt = s.pkt := rfl
@[simp] theorem endInvocation_rx (s : State) : (endInvocation s).rx = s.rx := rfl
@[simp] theorem endInvocation_tx (s : State) : (endInvocation s).tx = { s.tx with oe := false } := rfl
@[simp] theorem endInvocation_rxPhase (s : State) : (endInvocation s).rxPhase = .idle := rfl
@[simp] theorem endInvocation_stage (s : State) : (endInvocation s).stage = s.stage := rfl
@[simp] theorem endInvocation_halted (s : State) : (endInvocation s).halted = s.halted := rfl
@[simp] theorem endInvocation_chip (s : State) : (endInvocation s).chip = s.chip := rfl
@[simp] theorem endInvocation_mem (s : State) : (endInvocation s).mem = s.mem := rfl
@[simp] theorem endInvocation_io (s : State) : (endInvocation s).io = { s.io with lineIn := [] } := rfl
@[simp] theorem endInvocation_cfg (s : State) : (endInvocation s).cfg = s.cfg := rfl
@[simp] theorem endInvocation_freeCount (s : State) : (endInvocation s).freeCount = s.freeCount := rfl

/-! ### callSend -/

@[simp] theorem callSend_ep (c : SendCmd) (s : State) : (callSend c s).ep = s.ep := rfl
@[simp] theorem callSend_dev (c : SendCmd) (s : State) : (callSend c s).dev = s.dev := rfl
@[simp] theorem callSend_pkt (c : SendCmd) (s : State) : (callSend c s).pkt = s.pkt := rfl
@[simp] theorem callSend_rx (c : SendCmd) (s : State) : (callSend c s).rx = s.rx := rfl
@[simp] theorem callSend_tx (c : SendCmd) (s : State) : (callSend c s).tx = { s.tx with cmd := some c } := rfl
@[simp] theorem callSend_rxPhase (c : SendCmd) (s : State) : (callSend c s).rxPhase = .transmit := rfl
@[simp] theorem callSend_stage (c : SendCmd) (s : State) : (callSend c s).stage = s.stage := rfl
@[simp] theorem callSend_halted (c : SendCmd) (s : State) : (callSend c s).halted = s.halted := rfl
@[simp] theorem callSend_chip (c : SendCmd) (s : State) : (callSend c s).chip = s.chip := rfl
@[simp] theorem callSend_mem (c : SendCmd) (s : State) : (callSend c s).mem = s.mem := rfl
@[simp] theorem callSend_io (c : SendCmd) (s : State) : (callSend c s).io = s.io := rfl
@[simp] theorem callSend_cfg (c : SendCmd) (s : State) : (callSend c s).cfg = s.cfg := rfl
@[simp] theorem callSend_freeCount (c : SendCmd) (s : State) : (callSend c s).freeCount = s.freeCount := rfl

/-! ### sendEmpty -/

@[simp] theorem sendEmpty_ep (b : Byte) (s : State) : (sendEmpty b s).ep = s.ep := rfl
@[simp] theorem sendEmpty_dev (b : Byte) (s : State) : (sendEmpty b s).dev = s.dev := rfl
@[simp] theorem sendEmpty_pkt (b : Byte) (s : State) : (sendEmpty b s).pkt = s.pkt := rfl
@[simp] theorem sendEmpty_rx (b : Byte) (s : State) : (sendEmpty b s).rx = s.rx := rfl
@[simp] theorem sendEmpty_tx (b : Byte) (s : State) : (sendEmpty b s).tx = { s.tx with cmd := some ⟨b, s.cfg.zero2, 2, 0#8⟩ } := rfl
@[simp] theorem sendEmpty_rxPhase (b : Byte) (s : State) : (sendEmpty b s).rxPhase = .transmit := rfl
@[simp] theorem sendEmpty_stage (b : Byte) (s : State) : (sendEmpty b s).stage = s.stage := rfl
@[simp] theorem sendEmpty_halted (b : Byte) (s : State) : (sendEmpty b s).halted = s.halted := rfl
@[simp] theorem sendEmpty_chip (b : Byte) (s : State) : (sendEmpty b s).chip = s.chip := rfl
@[simp] theorem sendEmpty_mem (b : Byte) (s : State) : (sendEmpty b s).mem = s.mem := rfl
@[simp] theorem sendEmpty_io (b : Byte) (s : State) : (sendEmpty b s).io = s.io := rfl
@[simp] theorem sendEmpty_cfg (b : Byte) (s : State) : (sendEmpty b s).cfg = s.cfg := rfl
@[simp] theorem sendEmpty_freeCount (b : Byte) (s : State) : (sendEmpty b s).freeCount = s.freeCount := rfl

/-! ### sendAck -/

@[simp] theorem sendAck_ep (s : State) : (sendAck s).ep = s.ep := rfl
@[simp] theorem sendAck_dev (s : State) : (sendAck s).dev = s.dev := rfl
@[simp] theorem sendAck_pkt (s : State) : (sendAck s).pkt = s.pkt := rfl
@[simp] theorem sendAck_rx (s : State) : (sendAck s).rx = s.rx := rfl
@[simp] theorem sendAck_tx (s : State) : (sendAck s).tx = { s.tx with cmd := some ⟨Config.PID_ACK, 0, 0, 0#8⟩ } := rfl
@[simp] theorem sendAck_rxPhase (s : State) : (sendAck s).rxPhase = .transmit := rfl
@[simp] theorem sendAck_stage (s : State) : (sendAck s).stage = s.stage := rfl
@[simp] theorem sendAck_halted (s : State) : (sendAck s).halted = s.halted := rfl
@[simp] theorem sendAck_chip (s : State) : (sendAck s).chip = s.chip := rfl
@[simp] theorem sendAck_mem (s : State) : (sendAck s).mem = s.mem := rfl
@[simp] theorem sendAck_io (s : State) : (sendAck s).io = s.io := rfl
@[simp] theorem sendAck_cfg (s : State) : (sendAck s).cfg = s.cfg := rfl
@[simp] theorem sendAck_freeCount (s : State) : (sendAck s).freeCount = s.freeCount := rfl

/-! ### passGap -/

@[simp] theorem passGap_ep (s : State) : (passGap s).ep = s.ep := rfl
@[simp] theorem passGap_dev (s : State) : (passGap s).dev = s.dev := rfl
@[simp] theorem passGap_pkt (s : State) : (passGap s).pkt = s.pkt := rfl
@[simp] theorem passGap_rx (s : State) : (passGap s).rx = s.rx := rfl
@[simp] theorem passGap_tx (s : State) : (passGap s).tx = s.tx := rfl
@[simp] theorem passGap_rxPhase (s : State) : (passGap s).rxPhase = s.rxPhase := rfl
@[simp] theorem passGap_stage (s : State) : (passGap s).stage = s.stage := rfl
@[simp] theorem passGap_halted (s : State) : (passGap s).halted = s.halted := rfl
@[simp] theorem passGap_chip (s : State) : (passGap s).chip = s.chip := rfl
@[simp] theorem passGap_mem (s : State) : (passGap s).mem = s.mem := rfl
@[simp] theorem passGap_io (s : State) : (passGap s).io = { s.io with out := s.io.out ++ List.replicate s.io.gap Output.idle } := rfl
@[simp] theorem passGap_cfg (s : State) : (passGap s).cfg = s.cfg := rfl
@[simp] theorem passGap_freeCount (s : State) : (passGap s).freeCount = s.freeCount := rfl

/-! ### loadTx -/

@[simp] theorem loadTx_ep (l : List Byte) (s : State) : (loadTx l s).ep = s.ep := rfl
@[simp] theorem loadTx_dev (l : List Byte) (s : State) : (loadTx l s).dev = s.dev := rfl
@[simp] theorem loadTx_pkt (l : List Byte) (s : State) : (loadTx l s).pkt = s.pkt := rfl
@[simp] theorem loadTx_rx (l : List Byte) (s : State) : (loadTx l s).rx = s.rx := rfl
@[simp] theorem loadTx_tx (l : List Byte) (s : State) : (loadTx l s).tx = { s.tx with level := .J, ones := 0, oe := true, cmd := none, synced := false, bits := bitsLsb l } := rfl
@[simp] theorem loadTx_rxPhase (l : List Byte) (s : State) : (loadTx l s).rxPhase = .transmit := rfl
@[simp] theorem loadTx_stage (l : List Byte) (s : State) : (loadTx l s).stage = s.stage := rfl
@[simp] theorem loadTx_halted (l : List Byte) (s : State) : (loadTx l s).halted = s.halted := rfl
@[simp] theorem loadTx_chip (l : List Byte) (s : State) : (loadTx l s).chip = s.chip := rfl
@[simp] theorem loadTx_mem (l : List Byte) (s : State) : (loadTx l s).mem = s.mem := rfl
@[simp] theorem loadTx_io (l : List Byte) (s : State) : (loadTx l s).io = { s.io with out := s.io.out ++ List.replicate s.io.gap Output.idle } := rfl
@[simp] theorem loadTx_cfg (l : List Byte) (s : State) : (loadTx l s).cfg = s.cfg := rfl
@[simp] theorem loadTx_freeCount (l : List Byte) (s : State) : (loadTx l s).freeCount = s.freeCount := rfl

/-! ### resetEngine -/

@[simp] theorem resetEngine_ep (s : State) : (resetEngine s).ep = initEndpoints s.ep.length s.cfg.customInit := rfl
@[simp] theorem resetEngine_dev (s : State) : (resetEngine s).dev = Dev.reset := rfl
@[simp] theorem resetEngine_pkt (s : State) : (resetEngine s).pkt = Pkt.reset := rfl
@[simp] theorem resetEngine_rx (s : State) : (resetEngine s).rx = State.reset.rx := rfl
@[simp] theorem resetEngine_tx (s : State) : (resetEngine s).tx = Tx.reset := rfl
@[simp] theorem resetEngine_rxPhase (s : State) : (resetEngine s).rxPhase = .idle := rfl
@[simp] theorem resetEngine_stage (s : State) : (resetEngine s).stage = .packet := rfl
@[simp] theorem resetEngine_halted (s : State) : (resetEngine s).halted = false := rfl
@[simp] theorem resetEngine_chip (s : State) : (resetEngine s).chip = s.chip := rfl
@[simp] theorem resetEngine_mem (s : State) : (resetEngine s).mem = s.mem := rfl
@[simp] theorem resetEngine_io (s : State) : (resetEngine s).io = { s.io with rst := false, lineIn := [] } := rfl
@[simp] theorem resetEngine_cfg (s : State) : (resetEngine s).cfg = s.cfg := rfl
@[simp] theorem resetEngine_freeCount (s : State) : (resetEngine s).freeCount = s.freeCount := rfl

/-! ### rxSync -/

@[simp] theorem rxSync_ep (s : State) : (rxSync s).ep = s.ep := rfl
@[simp] theorem rxSync_dev (s : State) : (rxSync s).dev = s.dev := rfl
@[simp] theorem rxSync_pkt (s : State) : (rxSync s).pkt = pktStart s.pkt := rfl
@[simp] theorem rxSync_rx (s : State) : (rxSync s).rx = { prev := .K, ones := 1 } := rfl
@[simp] theorem rxSync_tx (s : State) : (rxSync s).tx = s.tx := rfl
@[simp] theorem rxSync_rxPhase (s : State) : (rxSync s).rxPhase = .data := rfl
@[simp] theorem rxSync_stage (s : State) : (rxSync s).stage = s.stage := rfl
@[simp] theorem rxSync_halted (s : State) : (rxSync s).halted = s.halted := rfl
@[simp] theorem rxSync_chip (s : State) : (rxSync s).chip = s.chip := rfl
@[simp] theorem rxSync_mem (s : State) : (rxSync s).mem = s.mem := rfl
@[simp] theorem rxSync_io (s : State) : (rxSync s).io = s.io := rfl
@[simp] theorem rxSync_cfg (s : State) : (rxSync s).cfg = s.cfg := rfl
@[simp] theorem rxSync_freeCount (s : State) : (rxSync s).freeCount = s.freeCount := rfl

/-! ### bootReset -/

@[simp] theorem bootReset_ep (s : State) : (bootReset s).ep = s.ep := rfl
@[simp] theorem bootReset_dev (s : State) : (bootReset s).dev = s.dev := rfl
@[simp] theorem bootReset_pkt (s : State) : (bootReset s).pkt = s.pkt := rfl
@[simp] theorem bootReset_rx (s : State) : (bootReset s).rx = s.rx := rfl
@[simp] theorem bootReset_tx (s : State) : (bootReset s).tx = s.tx := rfl
@[simp] theorem bootReset_rxPhase (s : State) : (bootReset s).rxPhase = s.rxPhase := rfl
@[simp] theorem bootReset_stage (s : State) : (bootReset s).stage = s.stage := rfl
@[simp] theorem bootReset_halted (s : State) : (bootReset s).halted = true := rfl
@[simp] theorem bootReset_chip (s : State) : (bootReset s).chip = s.chip := rfl
@[simp] theorem bootReset_mem (s : State) : (bootReset s).mem = s.mem := rfl
@[simp] theorem bootReset_io (s : State) : (bootReset s).io = { s.io with out := s.io.out ++ [Output.bootReset] } := rfl
@[simp] theorem bootReset_cfg (s : State) : (bootReset s).cfg = s.cfg := rfl
@[simp] theorem bootReset_freeCount (s : State) : (bootReset s).freeCount = s.freeCount := rfl

/-! ### haltedStep -/

@[simp] theorem haltedStep_ep (s : State) : (haltedStep s).ep = s.ep := rfl
@[simp] theorem haltedStep_dev (s : State) : (haltedStep s).dev = s.dev := rfl
@[simp] theorem haltedStep_pkt (s : State) : (haltedStep s).pkt = s.pkt := rfl
@[simp] theorem haltedStep_rx (s : State) : (haltedStep s).rx = s.rx := rfl
@[simp] theorem haltedStep_tx (s : State) : (haltedStep s).tx = s.tx := rfl
@[simp] theorem haltedStep_rxPhase (s : State) : (haltedStep s).rxPhase = s.rxPhase := rfl
@[simp] theorem haltedStep_stage (s : State) : (haltedStep s).stage = s.stage := rfl
@[simp] theorem haltedStep_halted (s : State) : (haltedStep s).halted = s.halted := rfl
@[simp] theorem haltedStep_chip (s : State) : (haltedStep s).chip = s.chip := rfl
@[simp] theorem haltedStep_mem (s : State) : (haltedStep s).mem = s.mem := rfl
@[simp] theorem haltedStep_io (s : State) : (haltedStep s).io = { s.io with events := s.io.events.drop 1 } := rfl
@[simp] theorem haltedStep_cfg (s : State) : (haltedStep s).cfg = s.cfg := rfl
@[simp] theorem haltedStep_freeCount (s : State) : (haltedStep s).freeCount = s.freeCount := rfl

/-! ### txSymbol -/

@[simp] theorem txSymbol_ep (b : Bool) (s : State) : (txSymbol b s).ep = s.ep := rfl
@[simp] theorem txSymbol_dev (b : Bool) (s : State) : (txSymbol b s).dev = s.dev := rfl
@[simp] theorem txSymbol_pkt (b : Bool) (s : State) : (txSymbol b s).pkt = s.pkt := rfl
@[simp] theorem txSymbol_rx (b : Bool) (s : State) : (txSymbol b s).rx = s.rx := rfl
@[simp] theorem txSymbol_tx (b : Bool) (s : State) : (txSymbol b s).tx = { s.tx with level := levelAfter s.tx.level b } := rfl
@[simp] theorem txSymbol_rxPhase (b : Bool) (s : State) : (txSymbol b s).rxPhase = s.rxPhase := rfl
@[simp] theorem txSymbol_stage (b : Bool) (s : State) : (txSymbol b s).stage = s.stage := rfl
@[simp] theorem txSymbol_halted (b : Bool) (s : State) : (txSymbol b s).halted = s.halted := rfl
@[simp] theorem txSymbol_chip (b : Bool) (s : State) : (txSymbol b s).chip = s.chip := rfl
@[simp] theorem txSymbol_mem (b : Bool) (s : State) : (txSymbol b s).mem = s.mem := rfl
@[simp] theorem txSymbol_io (b : Bool) (s : State) : (txSymbol b s).io = { s.io with out := s.io.out ++ [Output.sym (levelAfter s.tx.level b).sym] } := rfl
@[simp] theorem txSymbol_cfg (b : Bool) (s : State) : (txSymbol b s).cfg = s.cfg := rfl
@[simp] theorem txSymbol_freeCount (b : Bool) (s : State) : (txSymbol b s).freeCount = s.freeCount := rfl

end Sys2Proof.Machine
end

