-- ==== Sys2Proof/Laws/Line.lean ====
section
/-! SUPPORT. Stuffing and NRZI, and runs of line instructions: the transmit unit drives what `frame` says, and the receive unit stores
the bits that were stuffed and encoded. -/

namespace Sys2Proof.Machine

open Config

/-! ## Stuffing and NRZI -/

theorem stuff_zero (k : Nat) (bs : List Bool) : stuff k (false :: bs) = false :: stuff 0 bs := rfl

theorem stuff_one (k : Nat) (bs : List Bool) (h : k + 1 ≠ STUFF_RUN) : stuff k (true :: bs) = true :: stuff (k + 1) bs := by
  simp [stuff, h]

theorem stuff_sixth (k : Nat) (bs : List Bool) (h : k + 1 = STUFF_RUN) : stuff k (true :: bs) = true :: false :: stuff 0 bs := by
  simp [stuff, h]

/-- How long stuffing makes a sequence. -/
theorem stuff_length (bits : List Bool) : ∀ k, k < STUFF_RUN →
    bits.length ≤ (stuff k bits).length ∧ (stuff k bits).length ≤ bits.length + (bits.length + k) / 6 := by
  induction bits with
  | nil => intro k _; simp
  | cons b bs ih =>
    intro k hk
    have h0 := ih 0 (by decide)
    cases b
    · rw [stuff_zero]; simp only [List.length_cons]; omega
    · by_cases h6 : k + 1 = STUFF_RUN
      · rw [stuff_sixth _ _ h6]; simp only [STUFF_RUN, hardware_stuffRun] at h6; simp only [List.length_cons]; omega
      · have := ih (k + 1) (by omega)
        rw [stuff_one _ _ h6]; simp only [List.length_cons]; omega

/-- No more than the rest of a run of ones comes before the next 0. -/
theorem stuff_window (bits : List Bool) : ∀ k, k < STUFF_RUN → ∀ i, i + (STUFF_RUN + 1) ≤ (stuff k bits).length + k →
    ∃ j, i ≤ j + k ∧ j + k < i + (STUFF_RUN + 1) ∧ (stuff k bits)[j]? = some false := by
  induction bits with
  | nil => intro k hk i h; simp only [stuff_nil, List.length_nil] at h; omega
  | cons b bs ih =>
    intro k hk i h
    have h6 : STUFF_RUN = 6 := rfl
    cases b
    · rw [stuff_zero] at h ⊢
      simp only [List.length_cons] at h
      by_cases hi : i ≤ k
      · exact ⟨0, by omega, by omega, rfl⟩
      · obtain ⟨j, h1, h2, h3⟩ := ih 0 (by decide) (i - (k + 1)) (by omega)
        exact ⟨j + 1, by omega, by omega, by simpa using h3⟩
    · by_cases hk6 : k + 1 = STUFF_RUN
      · rw [stuff_sixth _ _ hk6] at h ⊢
        simp only [List.length_cons] at h
        by_cases hi : i ≤ k + 1
        · exact ⟨1, by omega, by omega, rfl⟩
        · obtain ⟨j, h1, h2, h3⟩ := ih 0 (by decide) (i - (k + 2)) (by omega)
          exact ⟨j + 2, by omega, by omega, by simpa using h3⟩
      · rw [stuff_one _ _ hk6] at h ⊢
        simp only [List.length_cons] at h
        obtain ⟨j, h1, h2, h3⟩ := ih (k + 1) (by omega) i (by omega)
        exact ⟨j + 1, by omega, by omega, by simpa using h3⟩

/-- Stuffing loses nothing. -/
theorem stuff_injective (a : List Bool) : ∀ (b : List Bool) (k : Nat), stuff k a = stuff k b → a = b := by
  induction a with
  | nil =>
    intro b k h
    cases b with
    | nil => rfl
    | cons y b => cases y <;> simp only [stuff, if_true, Bool.false_eq_true, if_false] at h <;> (try split at h) <;> exact absurd h (by simp)
  | cons x a ih =>
    intro b k h
    cases b with
    | nil => cases x <;> simp only [stuff, if_true, Bool.false_eq_true, if_false] at h <;> (try split at h) <;> exact absurd h (by simp)
    | cons y b =>
      cases x <;> cases y <;> simp only [stuff, if_true, Bool.false_eq_true, if_false] at h
      · rw [ih b 0 (by simpa using h)]
      · split at h <;> simp at h
      · split at h <;> simp at h
      · split at h
        · rw [ih b 0 (by simpa using h)]
        · rw [ih b (k + 1) (by simpa using h)]

@[simp] theorem nrziEncode_length (bits : List Bool) : ∀ l, (nrziEncode l bits).length = bits.length := by
  induction bits with
  | nil => intro _; rfl
  | cons b bs ih => intro l; simp [nrziEncode, ih]

theorem nrziEncode_JK (bits : List Bool) : ∀ l, ∀ x ∈ nrziEncode l bits, x = .J ∨ x = .K := by
  induction bits with
  | nil => intro _ _ h; simp at h
  | cons b bs ih =>
    intro l x h
    rcases List.mem_cons.1 h with rfl | h
    · cases levelAfter l b <;> simp [LineLevel.sym]
    · exact ih _ x h

/-- NRZI loses nothing. -/
theorem nrziEncode_injective (a : List Bool) : ∀ (b : List Bool) (l : LineLevel), nrziEncode l a = nrziEncode l b → a = b := by
  induction a with
  | nil => intro b l h; cases b <;> [rfl; exact absurd h (by simp [nrziEncode])]
  | cons x a ih =>
    intro b l h
    cases b with
    | nil => simp [nrziEncode] at h
    | cons y b =>
      simp only [nrziEncode, List.cons.injEq] at h
      have hxy : x = y := by
        have h1 := h.1
        cases l <;> cases x <;> cases y <;> first | rfl | exact absurd h1 (by decide)
      subst hxy
      rw [ih b _ h.2]

/-- A frame is the sync pattern, then the bits after a single 1, then the end of packet. -/
theorem frame_eq (bytes : List Byte) : frame bytes = syncPattern ++ nrziEncode .K (stuff 1 (bitsLsb bytes)) ++ eopSymbols := rfl

theorem frame_injective (a b : List Byte) (h : frame a = frame b) : a = b := by
  rw [frame_eq, frame_eq] at h
  have h1 := List.append_cancel_left (List.append_cancel_right h)
  exact bitsLsb_injective (stuff_injective _ _ _ (nrziEncode_injective _ _ _ h1))

/-! ## Runs -/

theorem Steps.trans {j k : Nat} {s t u : State} (h : Steps j s t) (g : Steps k t u) : Steps (j + k) s u := by
  induction h with
  | zero s => simpa using g
  | succ h _ ih => have := Steps.succ h (ih g); rwa [Nat.add_right_comm] at this

theorem Steps.one {s t : State} (h : step s = .next t) : Steps 1 s t := .succ h (.zero t)

/-- A step that runs an instruction. -/
theorem step_of_decode {s : State} (h : Running s) {i : Instr} (hd : decode (fetch s) = .ok i) : step s = exec i (advance s) := by
  obtain ⟨h1, h2, h3⟩ := h
  simp [step, stepWith, h1, h2, h3, hd]

/-- A state whose step drives the next bit. -/
theorem step_txBit {s : State} (h1 : s.io.rst = false) (h2 : s.halted = false) (h3 : s.rxPhase = .transmit) (h4 : s.tx.cmd = none)
    (h5 : s.tx.synced = true) {b : Bool} {bs : List Bool} (h6 : s.tx.bits = b :: bs) :
    step s = .next (txBit b { s with tx := { s.tx with bits := bs } }) := by
  have hd : decode (fetch s) = .ok (bitInstr b) := by
    simp only [fetch, h3, h4, h5, h6, if_true, decode]; exact decodeLine_nrziSymbol _ _
  rw [step_of_decode ⟨h1, h2, by rw [h3]; decide⟩ hd]
  have ha : advance s = { s with tx := { s.tx with bits := bs } } := by simp [advance, h3, h4, h5, h6]
  rw [ha]
  cases b <;> simp [bitInstr, exec, execBit0, execBit1, h3]

/-- The step that drives the sync pattern. -/
theorem step_txSync {s : State} (h1 : s.io.rst = false) (h2 : s.halted = false) (h3 : s.rxPhase = .transmit) (h4 : s.tx.cmd = none)
    (h5 : s.tx.synced = false) (h6 : s.tx.level = .J) (h7 : s.tx.ones = 0) :
    step s = .next { s with
      tx := { s.tx with level := .K, ones := 1, synced := true }
      io := { s.io with out := s.io.out ++ syncPattern.map Output.sym } } := by
  have hd : decode (fetch s) = .ok .sync := by simp only [fetch, h3, h4, h5]; rfl
  rw [step_of_decode ⟨h1, h2, by rw [h3]; decide⟩ hd]
  simp [advance, h3, h4, h5, exec, execSync, txSync, byteBits, txBit, levelAfter, h6, h7, LineLevel.flip, LineLevel.sym, STUFF_RUN,
    syncPattern, txSymbol, drive]

/-- The step that drives the end of packet. -/
theorem step_txEop {s : State} (h1 : s.io.rst = false) (h2 : s.halted = false) (h3 : s.rxPhase = .transmit) (h4 : s.tx.cmd = none)
    (h5 : s.tx.synced = true) (h6 : s.tx.bits = []) : step s = .next (txEop s) := by
  have hd : decode (fetch s) = .ok .eop := by simp [fetch, h3, h4, h5, h6, decode, decodeLine]
  have ha : advance s = s := by
    have : s.tx.bits.drop 1 = s.tx.bits := by rw [h6]; rfl
    simp only [advance, h3, h4, h5, this, if_true]
    rw [← h5, ← h4, ← h3]
  rw [step_of_decode ⟨h1, h2, by rw [h3]; decide⟩ hd, ha]
  simp [exec, execEop, h3]

/-- The step that takes the sync pattern. -/
theorem step_rxSync {s : State} (h1 : s.io.rst = false) (h2 : s.halted = false) (h3 : s.rxPhase = .preamble) {rest : List LineSymbol}
    (h4 : s.io.lineIn = syncPattern ++ rest) : step s = .next (rxSync { s with io := { s.io with lineIn := rest } }) := by
  have hd : decode (fetch s) = .ok .sync := by simp only [fetch, h3, h4]; rfl
  have ha : advance s = { s with io := { s.io with lineIn := rest } } := by simp only [advance, h3, h4]; rfl
  rw [step_of_decode ⟨h1, h2, by rw [h3]; decide⟩ hd, ha]
  simp [exec, execSync, h3]

/-- The step that takes the end of packet after whole bytes. -/
theorem step_rxEop {s : State} (h1 : s.io.rst = false) (h2 : s.halted = false) (h3 : s.rxPhase = .data) {rest : List LineSymbol}
    (h4 : s.io.lineIn = .SE0 :: rest) (h5 : s.pkt.nbits ≠ 0) (h6 : s.pkt.nbits % 8 = 0) :
    step s = .next { s with rxPhase := .dispatch, stage := .packet, io := { s.io with lineIn := rest } } := by
  have hd : decode (fetch s) = .ok .eop := by simp only [fetch, h3, h4]; rfl
  have ha : advance s = { s with io := { s.io with lineIn := rest } } := by simp only [advance, h3, h4]; rfl
  rw [step_of_decode ⟨h1, h2, by rw [h3]; decide⟩ hd, ha]
  simp [exec, execEop, h3, rxEop, h5, h6]

/-- The transmit unit drives its bits, stuffed and encoded. -/
theorem tx_run (bits : List Bool) : ∀ s : State, s.io.rst = false → s.halted = false → s.rxPhase = .transmit → s.tx.cmd = none →
    s.tx.synced = true → s.tx.bits = bits → s.tx.ones < STUFF_RUN →
    ∃ l k, Steps bits.length s { s with
      tx := { s.tx with level := l, ones := k, bits := [] }
      io := { s.io with out := s.io.out ++ (nrziEncode s.tx.level (stuff s.tx.ones bits)).map Output.sym } } := by
  induction bits with
  | nil =>
    intro s h1 h2 h3 h4 h5 h6 h7
    refine ⟨s.tx.level, s.tx.ones, ?_⟩
    simp only [stuff_nil, nrziEncode_nil, List.map_nil, List.append_nil, List.length_nil]
    rw [← h6]; exact .zero s
  | cons b bs ih =>
    intro s h1 h2 h3 h4 h5 h6 h7
    have hs := step_txBit h1 h2 h3 h4 h5 h6
    generalize hu : txBit b { s with tx := { s.tx with bits := bs } } = u at hs
    cases b
    · have hu' : u = { s with
          tx := { s.tx with level := levelAfter s.tx.level false, ones := 0, bits := bs }
          io := { s.io with out := s.io.out ++ [Output.sym (levelAfter s.tx.level false).sym] } } := by rw [← hu]; rfl
      obtain ⟨l, k, hr⟩ := ih u (by rw [hu']; exact h1) (by rw [hu']; exact h2) (by rw [hu']; exact h3) (by rw [hu']; exact h4)
        (by rw [hu']; exact h5) (by rw [hu']) (by rw [hu']; show 0 < STUFF_RUN; decide)
      rw [hu'] at hs hr
      refine ⟨l, k, ?_⟩
      have := Steps.succ hs hr
      simpa [stuff_zero, nrziEncode] using this
    · by_cases h6 : s.tx.ones + 1 = STUFF_RUN
      · have hu' : u = { s with
            tx := { s.tx with level := levelAfter (levelAfter s.tx.level true) false, ones := 0, bits := bs }
            io := { s.io with out := s.io.out ++ [Output.sym (levelAfter s.tx.level true).sym,
              Output.sym (levelAfter (levelAfter s.tx.level true) false).sym] } } := by
          rw [← hu]; simp [txBit, h6, txSymbol, drive]
        obtain ⟨l, k, hr⟩ := ih u (by rw [hu']; exact h1) (by rw [hu']; exact h2) (by rw [hu']; exact h3) (by rw [hu']; exact h4)
          (by rw [hu']; exact h5) (by rw [hu']) (by rw [hu']; show 0 < STUFF_RUN; decide)
        rw [hu'] at hs hr
        refine ⟨l, k, ?_⟩
        have := Steps.succ hs hr
        simpa [stuff_sixth _ _ h6, nrziEncode] using this
      · have hu' : u = { s with
            tx := { s.tx with level := levelAfter s.tx.level true, ones := s.tx.ones + 1, bits := bs }
            io := { s.io with out := s.io.out ++ [Output.sym (levelAfter s.tx.level true).sym] } } := by
          rw [← hu]; simp [txBit, h6, txSymbol, drive]
        obtain ⟨l, k, hr⟩ := ih u (by rw [hu']; exact h1) (by rw [hu']; exact h2) (by rw [hu']; exact h3) (by rw [hu']; exact h4)
          (by rw [hu']; exact h5) (by rw [hu']) (by rw [hu']; show s.tx.ones + 1 < STUFF_RUN; omega)
        rw [hu'] at hs hr
        refine ⟨l, k, ?_⟩
        have := Steps.succ hs hr
        simpa [stuff_one _ _ h6, nrziEncode] using this

/-- A state whose step takes a received bit. -/
theorem step_rxBit {s : State} (h1 : s.io.rst = false) (h2 : s.halted = false) (h3 : s.rxPhase = .data) {b : Bool}
    {rest : List LineSymbol} (h4 : s.io.lineIn = (levelAfter s.rx.prev b).sym :: rest) :
    step s = rxBit b { s with io := { s.io with lineIn := rest } } := by
  have hd : decode (fetch s) = .ok (bitInstr b) := by
    simp only [fetch, h3, h4, decode, List.headD_cons]
    rw [← nrziSymbol_eq]; exact decodeLine_nrziSymbol _ _
  rw [step_of_decode ⟨h1, h2, by rw [h3]; decide⟩ hd]
  have ha : advance s = { s with io := { s.io with lineIn := rest } } := by simp [advance, h3, h4]
  rw [ha]
  cases b <;> simp [bitInstr, exec, execBit0, execBit1, h3]

theorem rxBit_stored {s : State} (b : Bool) (h1 : s.rx.ones ≠ STUFF_RUN) (h2 : s.pkt.nbits ≠ 8 * PACKET_BUF_CAP) :
    rxBit b s = .next { s with
      rx := { prev := levelAfter s.rx.prev b, ones := if b then s.rx.ones + 1 else 0 }
      pkt := pktPush s.pkt b } := by
  simp [rxBit, h1, h2]

theorem rxBit_unstuffed {s : State} (h1 : s.rx.ones = STUFF_RUN) :
    rxBit false s = .next { s with rx := { prev := levelAfter s.rx.prev false, ones := 0 } } := by
  simp [rxBit, h1]

/-- The receive unit stores the bits that were stuffed and encoded. -/
theorem rx_run (bits : List Bool) : ∀ (s : State) (rest : List LineSymbol), s.io.rst = false → s.halted = false → s.rxPhase = .data →
    s.rx.ones < STUFF_RUN → s.pkt.nbits + bits.length ≤ 8 * PACKET_BUF_CAP →
    s.io.lineIn = nrziEncode s.rx.prev (stuff s.rx.ones bits) ++ rest →
    ∃ m l k, Steps m s { s with
      rx := { prev := l, ones := k }
      pkt := bits.foldl pktPush s.pkt
      io := { s.io with lineIn := rest } } := by
  induction bits with
  | nil =>
    intro s rest h1 h2 h3 h4 h5 h6
    refine ⟨0, s.rx.prev, s.rx.ones, ?_⟩
    simp only [stuff_nil, nrziEncode_nil, List.nil_append] at h6
    rw [← h6]; exact Steps.zero s
  | cons b bs ih =>
    intro s rest h1 h2 h3 h4 h5 h6
    simp only [List.length_cons] at h5
    have hne : s.rx.ones ≠ STUFF_RUN := by omega
    have hcap : s.pkt.nbits ≠ 8 * PACKET_BUF_CAP := by omega
    have hpush : (pktPush s.pkt b).nbits + bs.length ≤ 8 * PACKET_BUF_CAP := by rw [pktPush_nbits]; omega
    cases b
    · rw [stuff_zero] at h6
      have hs := (step_rxBit h1 h2 h3 h6).trans (rxBit_stored false (by exact hne) (by exact hcap))
      obtain ⟨m, l, k, hr⟩ := ih { s with
          rx := { prev := levelAfter s.rx.prev false, ones := 0 }
          pkt := pktPush s.pkt false
          io := { s.io with lineIn := nrziEncode (levelAfter s.rx.prev false) (stuff 0 bs) ++ rest } }
        rest h1 h2 h3 (by show 0 < STUFF_RUN; decide) hpush rfl
      exact ⟨m + 1, l, k, .succ hs hr⟩
    · by_cases h6' : s.rx.ones + 1 = STUFF_RUN
      · rw [stuff_sixth _ _ h6'] at h6
        have hs := (step_rxBit h1 h2 h3 h6).trans (rxBit_stored true (by exact hne) (by exact hcap))
        have hs2 := (step_rxBit (s := { s with
            rx := { prev := levelAfter s.rx.prev true, ones := s.rx.ones + 1 }
            pkt := pktPush s.pkt true
            io := { s.io with lineIn := nrziEncode (levelAfter s.rx.prev true) (false :: stuff 0 bs) ++ rest } })
          h1 h2 h3 (b := false) rfl).trans (rxBit_unstuffed h6')
        obtain ⟨m, l, k, hr⟩ := ih { s with
            rx := { prev := levelAfter (levelAfter s.rx.prev true) false, ones := 0 }
            pkt := pktPush s.pkt true
            io := { s.io with lineIn := nrziEncode (levelAfter (levelAfter s.rx.prev true) false) (stuff 0 bs) ++ rest } }
          rest h1 h2 h3 (by show 0 < STUFF_RUN; decide) hpush rfl
        exact ⟨m + 1 + 1, l, k, .succ hs (.succ hs2 hr)⟩
      · rw [stuff_one _ _ h6'] at h6
        have hs := (step_rxBit h1 h2 h3 h6).trans (rxBit_stored true (by exact hne) (by exact hcap))
        obtain ⟨m, l, k, hr⟩ := ih { s with
            rx := { prev := levelAfter s.rx.prev true, ones := s.rx.ones + 1 }
            pkt := pktPush s.pkt true
            io := { s.io with lineIn := nrziEncode (levelAfter s.rx.prev true) (stuff (s.rx.ones + 1) bs) ++ rest } }
          rest h1 h2 h3 (by show s.rx.ones + 1 < STUFF_RUN; omega) hpush rfl
        exact ⟨m + 1, l, k, .succ hs hr⟩

end Sys2Proof.Machine
end

