-- ==== Sys2Proof/Laws/Ops.lean ====
section
/-! SUPPORT. One lemma per shared operation: everything it can do when it answers a next state. -/

namespace Sys2Proof.Machine

open Config

@[simp] theorem drop_eq (c : Cause) (s : State) : drop c s = .next (endInvocation s) := rfl

/-! ## What is read -/

/-- The two bytes of `ZERO2` read as zero (spec/40_transmit.md R130). -/
theorem sourceReadN_zero2 (s : State) : sourceReadN s s.cfg.zero2 2 = [0x00#8, 0x00#8] := by
  have h : ∀ k, k < 2 → sourceRead s (s.cfg.zero2 + BitVec.ofNat 32 k) = 0x00#8 := by
    intro k hk
    rw [sourceRead, if_pos]
    rw [BitVec.add_comm, BitVec.add_sub_cancel, BitVec.toNat_ofNat]
    omega
  simp only [sourceReadN, List.range_succ, List.range_zero, List.nil_append, List.map_cons, List.map_nil,
    List.cons_append, h 0 (by decide), h 1 (by decide)]

/-- The Device descriptor (spec/20_memory.md R66). -/
theorem descLookup_device (p : Params) : descLookup p DEVICE_SELECTOR = some (p.deviceDesc, 18#32) := by simp [descLookup, DEVICE_DESC_LEN]

/-- The product string, or the "ERR" string in its place (R66). -/
theorem descLookup_product (p : Params) :
    descLookup p PRODUCT_SELECTOR = some (if p.hidDeclared = p.hidActual then p.productString else (p.errString, 8#32)) := by
  have h : PRODUCT_SELECTOR ≠ DEVICE_SELECTOR := by decide
  by_cases he : p.hidDeclared = p.hidActual <;> simp [descLookup, h, Params.errSubstituted, he, ERR_STRING]

/-! ## The keepalive handler -/

/-- Everything KEEPALIVE does: the servo's device state, and one write of `OSC_CTL` or none. -/
theorem execKeepalive_cases (s : State) :
    ((servo s.cfg s.chip.cycCnt s.dev s.chip.oscCtl).2 = none ∧
      execKeepalive s = .next (endInvocation (setDev s (servo s.cfg s.chip.cycCnt s.dev s.chip.oscCtl).1))) ∨
    ∃ dir, (servo s.cfg s.chip.cycCnt s.dev s.chip.oscCtl).2 = some (applyTrim s.cfg dir s.chip.oscCtl) ∧
      execKeepalive s = .next (endInvocation (writeOscCtl (setDev s (servo s.cfg s.chip.cycCnt s.dev s.chip.oscCtl).1)
        (applyTrim s.cfg dir s.chip.oscCtl))) := by
  cases h : (servo s.cfg s.chip.cycCnt s.dev s.chip.oscCtl).2 with
  | none => exact .inl ⟨rfl, by simp only [execKeepalive, h]⟩
  | some v =>
    have hv : ∃ dir, v = applyTrim s.cfg dir s.chip.oscCtl := by
      simp only [servo] at h
      (repeat' split at h) <;> first | exact ⟨_, (Option.some.inj h).symm⟩ | cases h
    obtain ⟨dir, rfl⟩ := hv
    exact .inr ⟨dir, rfl, by simp only [execKeepalive, h]⟩

/-- The servo writes its three registers of the device state only. -/
theorem servo_dev (p : Params) (now : Word) (d : Dev) (osc : Word) : (servo p now d osc).1 =
    { d with lastSe0 := now, deltaSe0 := now - d.lastSe0, se0Windup := (servo p now d osc).1.se0Windup } := by
  simp only [servo]; (repeat' split) <;> rfl

/-! ## The packet buffer as scratch (spec/20_memory.md R64) -/

/-- A write touches the bytes of the buffer and nothing else. -/
theorem writesScratch_eq (s : State) (ws : List (Fin PACKET_BUF_CAP × Byte)) :
    ∃ buf, writesScratch s ws = { s with pkt := { s.pkt with buf := buf } } := by
  induction ws generalizing s with
  | nil => exact ⟨s.pkt.buf, rfl⟩
  | cons w ws ih =>
    obtain ⟨b, h⟩ := ih (writeScratch s w)
    exact ⟨b, h⟩

/-- A byte written is read, and every other byte reads as before. -/
theorem scratchByte_writeScratch (s : State) (w : Fin PACKET_BUF_CAP × Byte) (k : Nat) :
    scratchByte (writeScratch s w) k = if w.1.val = k then w.2 else scratchByte s k := by
  simp only [scratchByte, writeScratch, List.getElem?_set, List.length_append, List.length_map, List.length_range]
  split
  · rename_i h; rw [if_pos (by omega)]; rfl
  · by_cases hk : k < s.pkt.buf.length
    · rw [List.getElem?_append_left hk]
    · rw [List.getElem?_append_right (by omega), List.getElem?_eq_none (l := s.pkt.buf) (by omega)]
      by_cases hp : k - s.pkt.buf.length < w.1 + 1 - s.pkt.buf.length
      · simp [List.getElem?_range hp, Nat.add_sub_cancel' (Nat.le_of_not_lt hk)]
      · rw [List.getElem?_eq_none (by simpa using Nat.le_of_not_lt hp)]

/-- Bytes no write names read as before. -/
theorem scratchByte_writesScratch_other (ws : List (Fin PACKET_BUF_CAP × Byte)) (k : Nat) :
    ∀ s : State, (∀ w ∈ ws, w.1.val ≠ k) → scratchByte (writesScratch s ws) k = scratchByte s k := by
  induction ws with
  | nil => intro s _; rfl
  | cons w ws ih =>
    intro s h
    show scratchByte (writesScratch (writeScratch s w) ws) k = _
    rw [ih _ (fun x hx => h x (List.mem_cons_of_mem _ hx)), scratchByte_writeScratch, if_neg (h w List.mem_cons_self)]

/-- The last write to a byte is what it reads as. -/
theorem scratchByte_writesScratch_last (s : State) (before later : List (Fin PACKET_BUF_CAP × Byte)) (k : Fin PACKET_BUF_CAP) (v : Byte)
    (h : ∀ w ∈ later, w.1 ≠ k) : scratchByte (writesScratch s (before ++ (k, v) :: later)) k = v := by
  rw [writesScratch, List.foldl_append]
  show scratchByte (writesScratch (writeScratch _ (k, v)) later) k = v
  rw [scratchByte_writesScratch_other _ _ _ (fun w hw e => h w hw (Fin.ext e)), scratchByte_writeScratch, if_pos rfl]

/-- The buffer keeps its capacity. -/
theorem writesScratch_length (ws : List (Fin PACKET_BUF_CAP × Byte)) : ∀ s : State, s.pkt.buf.length ≤ PACKET_BUF_CAP →
    (writesScratch s ws).pkt.buf.length ≤ PACKET_BUF_CAP := by
  induction ws with
  | nil => intro s h; exact h
  | cons w ws ih =>
    intro s h
    refine ih (writeScratch s w) ?_
    have := w.1.isLt
    simp only [writeScratch, List.length_set, List.length_append, List.length_map, List.length_range]
    omega

/-- The endpoint file plays no part. -/
theorem writesScratch_setEp (s : State) (i : Nat) (e : EpEntry) (ws : List (Fin PACKET_BUF_CAP × Byte)) :
    writesScratch (setEp s i e) ws = setEp (writesScratch s ws) i e := by
  induction ws generalizing s with
  | nil => rfl
  | cons w ws ih => exact ih (writeScratch s w)

/-! ## Packets -/

theorem dispatchToken_next {addr : BitVec 7} {endp : BitVec 4} {crc : BitVec 5} {s t : State} {handler : EpEntry → State → Out}
    (h : dispatchToken addr endp crc s handler = .next t) :
    t = endInvocation s ∨
      ∃ e, tokenFault addr endp crc s = none ∧ s.endpoint? endp.toNat = some e ∧ handler e s = .next t := by
  simp only [dispatchToken] at h
  split at h
  · exact .inl (by simpa using h.symm)
  · rename_i hf
    split at h
    · exact .inr ⟨_, hf, by assumption, h⟩
    · exact .inl (by simpa using h.symm)

/-- A token never stops the machine. -/
theorem dispatchToken_total (addr : BitVec 7) (endp : BitVec 4) (crc : BitVec 5) (s : State) (handler : EpEntry → State → Out)
    (hh : ∀ e s, ∃ t, handler e s = .next t) : ∃ t, dispatchToken addr endp crc s handler = .next t := by
  simp only [dispatchToken]
  split
  · exact ⟨_, rfl⟩
  · split
    · exact hh _ _
    · exact ⟨_, rfl⟩

/-- What a callback leaves in its entry and in the scratch buffer. -/
def withCallback (endp : BitVec 4) (s : State) : State :=
  writesScratch (match s.io.userIn.entry with
    | some e' => setEp s endp.toNat e'
    | none => s) s.io.userIn.scratch

theorem callUserIn_eq (endp : BitVec 4) (tok : Byte) (s : State) : callUserIn endp tok s =
    match s.io.userIn.action with
    | .silent => .next (endInvocation (withCallback endp s))
    | .send t ptr len poly => .next (callSend ⟨t.getD tok, ptr, len, poly⟩ (withCallback endp s))
    | .empty t => .next (sendEmpty (t.getD tok) (withCallback endp s)) :=
  rfl

/-- A callback touches its entry and the packet buffer, and keeps the length of the one and the capacity of the other. -/
theorem withCallback_eq (endp : BitVec 4) (s : State) : ∃ ep buf, withCallback endp s = { s with ep := ep, pkt := { s.pkt with buf := buf } } ∧
    (ep = match s.io.userIn.entry with | some e' => s.ep.set endp.toNat e' | none => s.ep) ∧
    buf = (writesScratch s s.io.userIn.scratch).pkt.buf := by
  simp only [withCallback]
  cases s.io.userIn.entry with
  | none =>
    obtain ⟨b, h⟩ := writesScratch_eq s s.io.userIn.scratch
    exact ⟨_, b, h, rfl, by rw [h]⟩
  | some e' =>
    obtain ⟨b, h⟩ := writesScratch_eq (setEp s endp.toNat e') s.io.userIn.scratch
    have hb := congrArg (fun t : State => t.pkt.buf) h
    rw [writesScratch_setEp] at hb
    exact ⟨_, b, h, rfl, hb.symm⟩

/-- `handle_in`: the latch, the callback, or the drain. -/
theorem handleIn_cases (endp : BitVec 4) (e : EpEntry) (s : State) :
    (latchFires s.dev endp = true ∧
      handleIn endp e s = .next (sendEmpty (dataPid e.toggleIn)
        { setDev s { s.dev with currentEndpoint := endp } with tx := { s.tx with boot := true } })) ∨
    (latchFires s.dev endp = false ∧ isCallback endp e = true ∧
      handleIn endp e s = callUserIn endp (dataPid e.toggleIn) (setDev s { s.dev with currentEndpoint := endp })) ∨
    (latchFires s.dev endp = false ∧ isCallback endp e = false ∧
      handleIn endp e s = drain e (dataPid e.toggleIn) (setDev s { s.dev with currentEndpoint := endp })) := by
  cases h1 : latchFires s.dev endp
  · cases h2 : isCallback endp e
    · exact .inr (.inr ⟨rfl, rfl, by simp [handleIn, h1, h2]⟩)
    · exact .inr (.inl ⟨rfl, rfl, by simp [handleIn, h1, h2]⟩)
  · exact .inl ⟨rfl, by simp [handleIn, h1]⟩

theorem handleData_next {pid : Byte} {n : Nat} {s t : State} (h : handleData pid n s = .next t) :
    t = endInvocation s ∨
    (crc16Good s.pkt = true ∧ ∃ e, s.currentEp? = some e ∧
      ((isDuplicate pid e = true ∧ t = sendAck s) ∨
       (isDuplicate pid e = false ∧ s.dev.setupRequest = true ∧ n = 8 ∧
        t = { setDev s { s.dev with setupRequest := false } with rxPhase := .dispatch, stage := .request }) ∨
       (isDuplicate pid e = false ∧ s.dev.setupRequest = false ∧ t = { s with rxPhase := .dispatch, stage := .payload }))) := by
  simp only [handleData] at h
  split at h
  · rename_i hg
    split at h
    · simp at h
    · rename_i e he
      split at h
      · exact .inr ⟨hg, e, he, .inl ⟨by assumption, by simpa using h.symm⟩⟩
      · rename_i hd
        split at h
        · rename_i hs
          split at h
          · exact .inr ⟨hg, e, he, .inr (.inl ⟨by simpa using hd, hs, by assumption, by simpa using h.symm⟩)⟩
          · exact .inl (by simpa using h.symm)
        · rename_i hs
          exact .inr ⟨hg, e, he, .inr (.inr ⟨by simpa using hd, by simpa using hs, by simpa using h.symm⟩)⟩
  · exact .inl (by simpa using h.symm)

/-- What accepting a packet leaves. -/
theorem acceptData_some {write : EpEntry → EpEntry} {addr : BitVec 16} {latch : BitVec 2} {s : State} {e : EpEntry}
    (h : s.currentEp? = some e) :
    acceptData write addr latch s = .next (sendAck (setDev (setCurrentEp s { write e with toggleOut := !(write e).toggleOut })
      { s.dev with myAddress := addr, rebootArmed := latch })) := by
  simp [acceptData, h]

theorem acceptData_next {write : EpEntry → EpEntry} {addr : BitVec 16} {latch : BitVec 2} {s t : State}
    (h : acceptData write addr latch s = .next t) :
    ∃ e, s.currentEp? = some e ∧
      t = sendAck (setDev (setCurrentEp s { write e with toggleOut := !(write e).toggleOut })
        { s.dev with myAddress := addr, rebootArmed := latch }) := by
  cases he : s.currentEp? with
  | none => simp [acceptData, he] at h
  | some e => rw [acceptData_some he] at h; exact ⟨e, rfl, by simpa using h.symm⟩

/-! ## The line -/

theorem rxBit_next {b : Bool} {s t : State} (h : rxBit b s = .next t) :
    (t = endInvocation s) ∨
    (s.rx.ones = STUFF_RUN ∧ b = false ∧ t = { s with rx := { prev := levelAfter s.rx.prev b, ones := 0 } }) ∨
    (s.rx.ones ≠ STUFF_RUN ∧ s.pkt.nbits ≠ 8 * PACKET_BUF_CAP ∧
      t = { s with rx := { prev := levelAfter s.rx.prev b, ones := if b then s.rx.ones + 1 else 0 }, pkt := pktPush s.pkt b }) := by
  simp only [rxBit] at h
  split at h
  · rename_i h1
    split at h
    · exact .inl (by simpa using h.symm)
    · rename_i hb
      exact .inr (.inl ⟨h1, by simpa using hb, by simpa using h.symm⟩)
  · rename_i h1
    split at h
    · exact .inl (by simpa using h.symm)
    · rename_i h2
      exact .inr (.inr ⟨h1, h2, by simpa using h.symm⟩)

theorem rxEop_next {s t : State} (h : rxEop s = .next t) :
    t = endInvocation s ∨
      (s.pkt.nbits ≠ 0 ∧ s.pkt.nbits % 8 = 0 ∧ t = { s with rxPhase := .dispatch, stage := .packet }) := by
  simp only [rxEop] at h
  split at h
  · exact .inl (by simpa using h.symm)
  · rename_i hn
    exact .inr ⟨by omega, by omega, by simpa using h.symm⟩

theorem rxBit_total (b : Bool) (s : State) : ∃ t, rxBit b s = .next t := by
  simp only [rxBit]; split <;> split <;> exact ⟨_, rfl⟩

theorem rxEop_total (s : State) : ∃ t, rxEop s = .next t := by
  simp only [rxEop]; split <;> exact ⟨_, rfl⟩

/-- A bit driven: one symbol, or two where a 0 is stuffed. -/
theorem txBit_eq (b : Bool) (s : State) : ∃ l k more, txBit b s = { s with
      tx := { s.tx with level := l, ones := k }
      io := { s.io with out := s.io.out ++ more } } ∧ (s.tx.ones < STUFF_RUN → k < STUFF_RUN) ∧ Output.bootReset ∉ more := by
  cases b
  · exact ⟨_, 0, [Output.sym (levelAfter s.tx.level false).sym], rfl, fun _ => by decide, by simp⟩
  · by_cases h : s.tx.ones + 1 = STUFF_RUN
    · exact ⟨levelAfter (levelAfter s.tx.level true) false, 0,
        [Output.sym (levelAfter s.tx.level true).sym, Output.sym (levelAfter (levelAfter s.tx.level true) false).sym],
        by simp [txBit, h, txSymbol, drive], fun _ => by decide, by simp⟩
    · exact ⟨levelAfter s.tx.level true, s.tx.ones + 1, [Output.sym (levelAfter s.tx.level true).sym],
        by simp [txBit, h, txSymbol, drive], fun _ => by omega, by simp⟩

theorem txBits_eq (bits : List Bool) : ∀ s : State, ∃ l k more, bits.foldl (fun s b => txBit b s) s = { s with
      tx := { s.tx with level := l, ones := k }
      io := { s.io with out := s.io.out ++ more } } ∧ (s.tx.ones < STUFF_RUN → k < STUFF_RUN) ∧ Output.bootReset ∉ more := by
  induction bits with
  | nil => intro s; exact ⟨s.tx.level, s.tx.ones, [], by simp, id, by simp⟩
  | cons b bs ih =>
    intro s
    obtain ⟨l1, k1, m1, h1, g1, f1⟩ := txBit_eq b s
    rw [List.foldl_cons, h1]
    obtain ⟨l2, k2, m2, h2, g2, f2⟩ := ih { s with
      tx := { s.tx with level := l1, ones := k1 }
      io := { s.io with out := s.io.out ++ m1 } }
    exact ⟨l2, k2, m1 ++ m2, by rw [h2]; simp, fun h => g2 (g1 h), by simp [f1, f2]⟩

/-! ## The step -/

theorem advance_io (s : State) : (advance s).io = s.io ∨ ∃ l, (advance s).io = { s.io with lineIn := l } := by
  simp only [advance]
  split
  · exact .inl rfl
  · exact .inr ⟨_, rfl⟩
  · exact .inr ⟨_, rfl⟩
  · exact .inl rfl
  · split
    · exact .inl rfl
    · split <;> exact .inl rfl

/-- Moving past what was fetched touches the line and the transmit unit's place, nothing else. -/
theorem advance_eq (s : State) : ∃ l c y b, advance s = { s with
    io := { s.io with lineIn := l }
    tx := { s.tx with cmd := c, synced := y, bits := b } } := by
  simp only [advance]
  split
  · exact ⟨s.io.lineIn, s.tx.cmd, s.tx.synced, s.tx.bits, rfl⟩
  · exact ⟨_, s.tx.cmd, s.tx.synced, s.tx.bits, rfl⟩
  · exact ⟨_, s.tx.cmd, s.tx.synced, s.tx.bits, rfl⟩
  · exact ⟨s.io.lineIn, s.tx.cmd, s.tx.synced, s.tx.bits, rfl⟩
  · split
    · exact ⟨s.io.lineIn, _, s.tx.synced, s.tx.bits, rfl⟩
    · split
      · exact ⟨s.io.lineIn, s.tx.cmd, s.tx.synced, _, rfl⟩
      · exact ⟨s.io.lineIn, s.tx.cmd, _, s.tx.bits, rfl⟩

@[simp] theorem advance_rxPhase (s : State) : (advance s).rxPhase = s.rxPhase := by
  obtain ⟨l, c, y, b, h⟩ := advance_eq s; rw [h]

/-- Everything a step can do. -/
theorem step_cases {s t : State} (h : step s = .next t) :
    (s.io.rst = true ∧ t = resetEngine s) ∨
    (s.io.rst = false ∧ s.halted = true ∧ t = haltedStep s) ∨
    (s.io.rst = false ∧ s.halted = false ∧ s.rxPhase = .idle ∧ t = idleStep s) ∨
    (s.io.rst = false ∧ s.halted = false ∧ s.rxPhase ≠ .idle ∧ ∃ c, decode (fetch s) = .error (.drop c) ∧ t = endInvocation (advance s)) ∨
    (s.io.rst = false ∧ s.halted = false ∧ s.rxPhase ≠ .idle ∧ ∃ i, decode (fetch s) = .ok i ∧ exec i (advance s) = .next t) := by
  simp only [step, stepWith] at h
  split at h
  · exact .inl ⟨by assumption, by simpa using h.symm⟩
  rename_i h1
  have h1 : s.io.rst = false := by simpa using h1
  split at h
  · exact .inr (.inl ⟨h1, by assumption, by simpa using h.symm⟩)
  rename_i h2
  have h2 : s.halted = false := by simpa using h2
  split at h
  · exact .inr (.inr (.inl ⟨h1, h2, by assumption, by simpa using h.symm⟩))
  rename_i h3
  split at h
  · rename_i i hd
    exact .inr (.inr (.inr (.inr ⟨h1, h2, h3, i, hd, h⟩)))
  · rename_i r hd
    cases r with
    | drop c => exact .inr (.inr (.inr (.inl ⟨h1, h2, h3, c, hd, by simpa [rejected] using h.symm⟩)))
    | reservedPoly => simp [rejected] at h
    | sendTooLong => simp [rejected] at h

end Sys2Proof.Machine
end

