-- ==== Sys2Proof/Laws/PerInstr.lean ====
section
/-! SUPPORT. Statements made per instruction. -/

namespace Sys2Proof.Laws.EncodingFits

open Config

/-- The encoding of a well-formed instruction fits where it is fetched from: a packet the buffer (spec/20_memory.md R61), a URB its eight
bytes (spec/30_encoding.md R93), a payload and a `send` the limit of spec/40_transmit.md R133, and no line code shows SE1. -/
def Statement (i : Instr) : Prop :=
  i.wf = true →
    match encode i with
    | .packet bytes => 1 ≤ bytes.length ∧ bytes.length ≤ PACKET_BUF_CAP
    | .urb bytes => bytes.length = 8
    | .payload bytes => bytes.length ≤ MAX_PAYLOAD
    | .send cmd => (cmd.poly = 0#8 ∨ cmd.poly = 2#8) ∧ cmd.len ≤ MAX_PAYLOAD
    | .preamble syms => syms.length ≤ PREAMBLE_MIN ∧ LineSymbol.SE1 ∉ syms
    | .line _ sym => sym ≠ .SE1

theorem ack : Statement .ack := fun _ => ⟨by decide, by decide⟩

theorem data0 (payload : List Byte) (crc : BitVec 16) : Statement (.data0 payload crc) := fun h => by
  have h : payload.length ≤ 8 := of_decide_eq_true h
  simp only [encode, encodeData, PACKET_BUF_CAP, hardware_packetBufCap, List.length_cons, List.length_append, List.length_nil]
  omega

theorem data1 (payload : List Byte) (crc : BitVec 16) : Statement (.data1 payload crc) := fun h => by
  have h : payload.length ≤ 8 := of_decide_eq_true h
  simp only [encode, encodeData, PACKET_BUF_CAP, hardware_packetBufCap, List.length_cons, List.length_append, List.length_nil]
  omega

theorem inTok (addr : BitVec 7) (endp : BitVec 4) (crc : BitVec 5) : Statement (.inTok addr endp crc) := fun _ =>
  ⟨by simp, by simp [PACKET_BUF_CAP]⟩

theorem outTok (addr : BitVec 7) (endp : BitVec 4) (crc : BitVec 5) : Statement (.outTok addr endp crc) := fun _ =>
  ⟨by simp, by simp [PACKET_BUF_CAP]⟩

theorem setup (addr : BitVec 7) (endp : BitVec 4) (crc : BitVec 5) : Statement (.setup addr endp crc) := fun _ =>
  ⟨by simp, by simp [PACKET_BUF_CAP]⟩

theorem unknownPid (pid : Byte) (rest : List Byte) : Statement (.unknownPid pid rest) := fun h => by
  simp only [Instr.wf, Bool.and_eq_true, decide_eq_true_eq] at h
  exact ⟨by simp, h.2⟩

theorem getDescriptor (r : BitVec 5) (wValue wIndex wLength : BitVec 16) : Statement (.getDescriptor r wValue wIndex wLength) :=
  fun _ => rfl

theorem setAddress (r : BitVec 5) (wValue wIndex wLength : BitVec 16) : Statement (.setAddress r wValue wIndex wLength) :=
  fun _ => rfl

theorem setReportBoot (r : BitVec 5) (wLength : BitVec 16) : Statement (.setReportBoot r wLength) := fun _ => rfl

theorem unrecognisedRequest (rt rq : Byte) (wValue wIndex wLength : BitVec 16) :
    Statement (.unrecognisedRequest rt rq wValue wIndex wLength) := fun _ => rfl

theorem outPayloadCookie : Statement .outPayloadCookie := fun _ => Nat.le_refl 8

theorem outPayloadOther (payload : List Byte) : Statement (.outPayloadOther payload) := fun h => by
  simp only [Instr.wf, Bool.and_eq_true, decide_eq_true_eq] at h
  exact h.1

theorem sendNoCrc (token : Byte) (ptr : Word) (len : Nat) : Statement (.sendNoCrc token ptr len) := fun h =>
  ⟨.inl rfl, of_decide_eq_true h⟩

theorem sendCrc16 (token : Byte) (ptr : Word) (len : Nat) : Statement (.sendCrc16 token ptr len) := fun h =>
  ⟨.inr rfl, of_decide_eq_true h⟩

theorem sync : Statement .sync := fun _ => ⟨Nat.le_refl 8, by decide⟩

theorem eop : Statement .eop := fun _ => LineSymbol.noConfusion

theorem keepalive : Statement .keepalive := fun _ => ⟨Nat.le_add_left 1 7, by decide⟩

theorem bit0 : Statement .bit0 := fun _ => LineSymbol.noConfusion

theorem bit1 : Statement .bit1 := fun _ => LineSymbol.noConfusion

end Sys2Proof.Laws.EncodingFits
end

