-- ==== Sys2Proof/Tests/Slice0.lean ====
section
/-! SUPPORT. Tests: the checks of WellFormed, decoding, single steps, and for each statement a state and operands that meet its
hypotheses. Expected values are those of spec/95_test_vectors.md or of the examples in the rules named. -/

namespace Sys2Proof.Tests

open Sys2Proof.Machine Config

/-! ## States to start from -/

/-- The parameters of spec/95_test_vectors.md section 2.10, with the Device descriptor at 0x1000 and the product string at 0x2000 as in its
section 2.7, and addresses for the scratch buffer, the two zero bytes and the "ERR" string. -/
def cfg0 : Params where
  trimBand := 1000
  trimThreshold := 2000
  trimW := 5
  trimShift := 3
  trimUpIsFaster := true
  scratchBase := 0x3000
  zero2 := 0x4000
  customInit := []
  deviceDesc := 0x1000
  productString := (0x2000, 8)
  hidDeclared := [63]
  hidActual := [63]
  errString := 0x5000
  descTable := [⟨0x00000F00, none⟩]

/-- The same after a self-test that found another length. -/
def cfgErr : Params := { cfg0 with hidActual := [64] }

/-- The reset state with those parameters. -/
def start : State := { State.reset with cfg := cfg0 }

/-- The start state with the packet received and the dispatcher reached. -/
def received (bytes : List Byte) : State := placeCode (.packet bytes) start

/-- The start state with entry 0 of the endpoint file and the device state given. -/
def withEp0 (e : EpEntry) (d : Dev) (s : State) : State := setDev (setEp s 0 e) d

/-- The device state after a SETUP token to endpoint 0. -/
def devSetup : Dev := { Dev.reset with setupRequest := true }

/-- An entry at reset but for the toggles. -/
def entry (tin tout : Bool) : EpEntry := { EpEntry.reset with toggleIn := tin, toggleOut := tout }

/-- What a next state shows. -/
def after {α : Type} (o : Out) (f : State → α) : Option α :=
  match o with
  | .next t => some (f t)
  | _ => none

/-- Transmit states: a frame of the bytes given, begun and not yet begun. -/
def sending (bytes : List Byte) : State := loadTx bytes start

def sendingData (bits : List Bool) (ones : Nat) : State :=
  { start with rxPhase := .transmit, tx := { Tx.reset with level := .K, ones := ones, oe := true, synced := true, bits := bits } }

/-- Receive states: the data loop at the level, run and packet record given, with the symbols to come. -/
def receiving (prev : LineLevel) (ones : Nat) (p : Pkt) (syms : List LineSymbol) : State :=
  { start with rxPhase := .data, rx := ⟨prev, ones⟩, pkt := p, io := { start.io with lineIn := syms } }

/-! ## WellFormed refuses -/

theorem test_wf_data0_too_long : (Instr.data0 (List.replicate 9 0) 0).wf = false := by decide
theorem test_wf_data1_too_long : (Instr.data1 (List.replicate 9 0) 0).wf = false := by decide
theorem test_wf_unknownPid_known : (Instr.unknownPid 0xD2 []).wf = false := by decide
theorem test_wf_unknownPid_too_long : (Instr.unknownPid 0x5A (List.replicate 12 0)).wf = false := by decide
theorem test_wf_unrecognised_hides_row : (Instr.unrecognisedRequest 0x80 0x06 0 0 0).wf = false := by decide
theorem test_wf_unrecognised_hides_boot : (Instr.unrecognisedRequest 0x22 0x09 0x03FD 0 0).wf = false := by decide
theorem test_wf_other_is_cookie : (Instr.outPayloadOther BOOT_COOKIE).wf = false := by decide
theorem test_wf_other_too_long : (Instr.outPayloadOther (List.replicate 9 0)).wf = false := by decide
theorem test_wf_sendNoCrc_too_long : (Instr.sendNoCrc 0xD2 0 9).wf = false := by decide
theorem test_wf_sendCrc16_too_long : (Instr.sendCrc16 0xC3 0 9).wf = false := by decide

/-! ## Decoding, words written out from the spec's encodings -/

/-- spec/95_test_vectors.md 2.2: address 0x15, endpoint 0xE, CRC5 0x1D. -/
theorem test_decode_in : decode (.packet [0b01101001, 0b00010101, 0b11101111]) = .ok (.inTok 0x15 0xE 0x1D) := by decide
/-- 2.2: address 0x3A, endpoint 0xA, CRC5 0x07. -/
theorem test_decode_out : decode (.packet [0b11100001, 0b00111010, 0b00111101]) = .ok (.outTok 0x3A 0xA 0x07) := by decide
/-- 2.2: address 0x70, endpoint 4, CRC5 0x0E. -/
theorem test_decode_setup : decode (.packet [0b00101101, 0b01110000, 0b01110010]) = .ok (.setup 0x70 4 0x0E) := by decide
/-- spec/30_encoding.md R87. -/
theorem test_decode_ack : decode (.packet [0b11010010]) = .ok .ack := by decide
/-- 2.1: the CRC16 of 01 is 0x7F81. -/
theorem test_decode_data0 : decode (.packet [0b11000011, 0x01, 0x81, 0x7F]) = .ok (.data0 [0x01] 0x7F81) := by decide
/-- 2.3. -/
theorem test_decode_data1 : decode (.packet [0b01001011, 0x12, 0x01, 0x10, 0x01, 0x00, 0x00, 0x00, 0x08, 0x11, 0x77]) =
    .ok (.data1 [0x12, 0x01, 0x10, 0x01, 0x00, 0x00, 0x00, 0x08] 0x7711) := by decide
/-- 2.5 row 8. -/
theorem test_decode_unknownPid : decode (.packet [0xA5, 0x00, 0x10]) = .ok (.unknownPid 0xA5 [0x00, 0x10]) := by decide
/-- 2.5 rows 3 and 12. -/
theorem test_decode_lengths : decode (.packet [0x69, 0x00, 0x10, 0x00]) = .error (.drop .eLength) ∧
    decode (.packet [0xC3, 1, 2, 3, 4, 5, 6, 7, 8, 9, 0xF1, 0x4D]) = .error (.drop .eLength) := by decide
/-- spec/30_encoding.md R106: string descriptor 2 in language 0x0409. -/
theorem test_decode_getDescriptor : decode (.urb [0b10000000, 0x06, 0x02, 0x03, 0x09, 0x04, 0xFF, 0x00]) =
    .ok (.getDescriptor 0 0x0302 0x0409 0x00FF) := by decide
theorem test_decode_setAddress : decode (.urb [0b00000000, 0x05, 0x05, 0x00, 0x00, 0x00, 0x00, 0x00]) = .ok (.setAddress 0 5 0 0) := by
  decide
/-- spec/44_endpoint.md R257: the recipient bits do not matter. -/
theorem test_decode_setReportBoot : decode (.urb [0b00100010, 0x09, 0xFD, 0x03, 0x00, 0x00, 0x08, 0x00]) = .ok (.setReportBoot 2 8) := by
  decide
/-- spec/44_endpoint.md R258: another selector. -/
theorem test_decode_unrecognised : decode (.urb [0x21, 0x09, 0xFE, 0x03, 0x00, 0x00, 0x08, 0x00]) =
    .ok (.unrecognisedRequest 0x21 0x09 0x03FE 0 8) := by decide
theorem test_decode_cookie : decode (.payload [0xFD, 0x12, 0x34, 0xAA, 0xBB, 0xCC, 0xDD, 0x00]) = .ok .outPayloadCookie := by decide
theorem test_decode_other : decode (.payload [0xFD, 0x12, 0x34, 0xAA, 0xBB, 0xCC, 0xDD, 0x01]) =
    .ok (.outPayloadOther [0xFD, 0x12, 0x34, 0xAA, 0xBB, 0xCC, 0xDD, 0x01]) := by decide
theorem test_decode_sendNoCrc : decode (.send ⟨0xC3, 0x1000, 2, 0b00000000⟩) = .ok (.sendNoCrc 0xC3 0x1000 2) := by decide
theorem test_decode_sendCrc16 : decode (.send ⟨0x4B, 0x1000, 8, 0b00000010⟩) = .ok (.sendCrc16 0x4B 0x1000 8) := by decide
theorem test_decode_sync : decode (.preamble [.K, .J, .K, .J, .K, .J, .K, .K]) = .ok .sync := by decide
/-- 2.4 rows 4 and 7. -/
theorem test_decode_preamble : decode (.preamble [.K, .J, .K, .SE0, .SE0, .J]) = .ok .keepalive ∧
    decode (.preamble [.K, .J, .K, .J, .K, .J, .K, .J]) = .error (.drop .ePreamble) := by decide
theorem test_decode_eop : decode (.line .K .SE0) = .ok .eop := by decide
theorem test_decode_bits : decode (.line .K .J) = .ok .bit0 ∧ decode (.line .K .K) = .ok .bit1 := by decide
/-- The table's numbering. -/
theorem test_table_words : decodeTableWord 24 0x608569 = some (.inTok 5 1 0x0C) ∧
    decodeTableWord 64 0x00DDCCBBAA3412FD = some .outPayloadCookie ∧ decodeTableWord 16 0x999A = some .sync ∧
    decodeTableWord 6 1 = some .eop ∧ decodeTableWord 8 0xD2 = some .ack := by decide +kernel

/-! ## The CRC unit and frames (2.1, 2.2, 2.3) -/

theorem test_crc16 : crc16 [0x80, 0x06, 0x00, 0x01, 0x00, 0x00, 0x40, 0x00] = 0x94DD := by decide +kernel
theorem test_crc5 : crc5 5 1 = 0x0C ∧ crc5Norm 0x6084 = 0x06 := by decide +kernel
/-- `D2`, and `C3 FA C0 FC` with its stuffed bit after the last data bit. -/
theorem test_frame_ack : frame [0xD2] = [.K, .J, .K, .J, .K, .J, .K, .K, .J, .J, .K, .J, .J, .K, .K, .K, .SE0, .SE0, .J] := by
  decide +kernel
theorem test_frame_stuffed : (frame [0xC3, 0xFA, 0xC0, 0xFC]).drop 33 = [.K, .K, .K, .K, .K, .K, .K, .J, .SE0, .SE0, .J] := by
  decide +kernel

/-! ## Single steps -/

/-- 2.6 row 2. -/
theorem test_ack : after (step (received [0xD2])) (fun t => (t.ep[0]?, t.rxPhase)) =
    some (some { EpEntry.reset with toggleIn := true, count := 1 }, .idle) := by decide +kernel
/-- 2.6 row 8: a duplicate is acknowledged. -/
theorem test_data0 : after (step (withEp0 (entry true true) Dev.reset (received [0xC3, 0xAA, 0xC0, 0xC0]))) (fun t => (t.tx.cmd, t.ep[0]?)) =
    some (some ⟨0xD2, 0, 0, 0⟩, some (entry true true)) := by decide +kernel
/-- 2.6 row 12: a URB of the wrong length. -/
theorem test_data0_urblen :
    after (step (withEp0 (entry true false) devSetup (received [0xC3, 0x80, 0x06, 0x00, 0x01, 0xF7, 0xDA]))) (fun t => (t.dev, t.rxPhase)) =
    some (devSetup, .idle) := by decide +kernel
/-- 2.6 row 9. -/
theorem test_data1 : after (step (withEp0 (entry true true) Dev.reset (received [0x4B, 0xAA, 0xC0, 0xC0]))) (fun t => (t.rxPhase, t.stage)) =
    some (.dispatch, .payload) := by decide +kernel
/-- 2.6 row 1: nothing is armed. -/
theorem test_in : after (step (received [0x69, 0x00, 0x10])) (fun t => t.tx.cmd) = some (some ⟨0xC3, 0x4000, 2, 0⟩) := by decide +kernel
/-- spec/44_endpoint.md R247: the third packet of 18 bytes. -/
theorem test_in_last :
    after (step (withEp0 { entry true false with count := 2, maxLen := 18, source := 0x1000 } Dev.reset (received [0x69, 0x00, 0x10])))
      (fun t => t.tx.cmd) = some (some ⟨0x4B, 0x1010, 2, 2⟩) := by decide +kernel
/-- 2.2: a token to address 5, endpoint 1. -/
theorem test_out : after (step (setDev (received [0xE1, 0x85, 0x60]) { Dev.reset with myAddress := 5 })) (fun t => t.dev.currentEndpoint) =
    some 1 := by decide +kernel
/-- 2.5 row 18: another address. -/
theorem test_out_foreign : after (step (received [0xE1, 0x7F, 0x28])) (fun t => (t.dev, t.rxPhase)) = some (Dev.reset, .idle) := by
  decide +kernel
/-- spec/20_memory.md R64: the callback writes bytes 8 and 9 of the packet buffer and sends them from there. -/
theorem test_in_callback : after (exec (.inTok 0 2 0x07)
    { start with io := { start.io with userIn := ⟨.send none 0x3008 2 2, none, [(⟨8, by decide⟩, 0x12), (⟨9, by decide⟩, 0x01)]⟩ } })
      (fun t => (t.tx.cmd, sourceReadN t 0x3008 2)) = some (some ⟨0xC3, 0x3008, 2, 2⟩, [0x12, 0x01]) := by decide +kernel
/-- spec/44_endpoint.md R241. -/
theorem test_setup : after (step (received [0x2D, 0x00, 0x10])) (fun t => (t.dev.setupRequest, t.ep[0]?)) =
    some (true, some { EpEntry.reset with toggleIn := true }) := by decide +kernel
theorem test_unknownPid : after (step (received [0x5A])) (fun t => (t.registers, t.rxPhase)) = some (start.registers, .idle) := by
  decide +kernel
/-- spec/95_test_vectors.md T5: 18 bytes for a `wLength` of 64. -/
theorem test_getDescriptor : after (exec (.getDescriptor 0 0x0100 0 64) start) (fun t => (t.ep[0]?).map fun e => (e.maxLen, e.source)) =
    some (some (18, 0x1000)) := by decide +kernel
/-- spec/95_test_vectors.md 2.7 row 6: the product string, and the "ERR" string in its place (T8; spec/70_reset_and_hazards.md R367). -/
theorem test_product_string : after (exec (.getDescriptor 0 0x0302 0x0409 255) start) (fun t => (t.ep[0]?).map fun e => (e.maxLen, e.source)) =
    some (some (8, 0x2000)) := by decide +kernel
theorem test_err_string :
    sourceReadN { start with cfg := cfgErr } ((descLookup cfgErr 0x04090302).getD (0, 0)).1 8 = [0x08, 0x03, 0x45, 0x00, 0x52, 0x00, 0x52, 0x00] := by
  decide +kernel
/-- spec/44_endpoint.md R255: a lookup miss. -/
theorem test_getDescriptor_miss : after (exec (.getDescriptor 0 0x0F00 0 64) start) (fun t => t.ep[0]?) =
    some (some (entry false true)) := by decide +kernel
theorem test_setAddress : after (exec (.setAddress 0 0x0105 0 0) start) (fun t => (t.dev.myAddress, t.tx.cmd)) =
    some (0x0105, some ⟨0xD2, 0, 0, 0⟩) := by decide +kernel
/-- spec/44_endpoint.md R259, from 2. -/
theorem test_setReportBoot : after (exec (.setReportBoot 1 8) (setDev start { Dev.reset with rebootArmed := 2 })) (fun t => t.dev.rebootArmed) =
    some 1 := by decide +kernel
theorem test_unrecognisedRequest :
    after (exec (.unrecognisedRequest 0x21 0x0A 0 0 0) (setDev start { Dev.reset with rebootArmed := 2 })) (fun t => t.dev.rebootArmed) =
    some 0 := by decide +kernel
/-- spec/44_endpoint.md R259, from 1 and from 0. -/
theorem test_cookie_armed : after (exec .outPayloadCookie (setDev start { Dev.reset with rebootArmed := 1 })) (fun t => t.dev.rebootArmed) =
    some 2 := by decide +kernel
theorem test_cookie_idle : after (exec .outPayloadCookie start) (fun t => t.dev.rebootArmed) = some 0 := by decide +kernel
theorem test_outPayloadOther :
    after (exec (.outPayloadOther []) (setDev start { Dev.reset with rebootArmed := 2 })) (fun t => t.dev.rebootArmed) = some 0 := by
  decide +kernel
/-- 2.3: `send(0xC3, 0x1000, 2, 0)`, with 12 01 at 0x1000. -/
theorem test_sendNoCrc :
    after (exec (.sendNoCrc 0xC3 0x1000 2) { start with mem := [(0x1000, 0x12), (0x1001, 0x01)] }) (fun t => (t.tx.bits, t.tx.oe)) =
    some (bitsLsb [0xC3, 0x12, 0x01], true) := by decide +kernel
/-- 2.3: the CRC of 12 01 is 0x2F33. -/
theorem test_sendCrc16 :
    after (exec (.sendCrc16 0xC3 0x1000 2) { start with mem := [(0x1000, 0x12), (0x1001, 0x01)] }) (fun t => t.tx.bits) =
    some (bitsLsb [0xC3, 0x12, 0x01, 0x33, 0x2F]) := by decide +kernel
/-- 1.2: the symbols of the sync byte. -/
theorem test_sync_sent : after (step (sending [0xD2])) (fun t => t.io.out) =
    some [.sym .K, .sym .J, .sym .K, .sym .J, .sym .K, .sym .J, .sym .K, .sym .K] := by decide +kernel
/-- spec/41_receive.md R156. -/
theorem test_sync_received : after (step (placeCode (.preamble [.K, .J, .K, .J, .K, .J, .K, .K, .J]) start))
    (fun t => (t.rxPhase, t.rx, t.io.lineIn)) = some (.data, ⟨.K, 1⟩, [.J]) := by decide +kernel
/-- spec/44_endpoint.md R268. -/
theorem test_eop_sent : after (step { sendingData [] 0 with tx := { (sendingData [] 0).tx with boot := true } })
    (fun t => (t.io.out, t.halted, t.tx.oe)) = some ([.sym .SE0, .sym .SE0, .sym .J, .bootReset], true, false) := by decide +kernel
/-- 2.4 row 11: seven bits. -/
theorem test_eop_received : after (step (receiving .K 2 { Pkt.reset with nbits := 7 } [.SE0, .SE0, .J])) (fun t => t.rxPhase) =
    some .idle := by decide +kernel
/-- spec/45_se0_trim.md R302: from `last` 100000 and `windup` 1900 at 148150, one step towards slower. -/
theorem test_keepalive :
    after (exec .keepalive { setDev start { Dev.reset with lastSe0 := 100000, se0Windup := 1900 } with chip := ⟨0x83, 148150⟩ })
      (fun t => (t.dev.lastSe0, t.dev.deltaSe0, t.dev.se0Windup, t.chip.oscCtl, t.io.out)) = some (148150, 48150, 0, 0x7B, [.oscCtl 0x7B]) := by decide +kernel
/-- R308: at code 0 the write still takes place. -/
theorem test_keepalive_saturated :
    after (exec .keepalive { setDev start { Dev.reset with lastSe0 := 100000, se0Windup := 1900 } with chip := ⟨0x03, 148150⟩ })
      (fun t => (t.dev.se0Windup, t.chip.oscCtl, t.io.out)) = some (0, 0x03, [.oscCtl 0x03]) := by decide +kernel
/-- R304: out of band. -/
theorem test_keepalive_out_of_band :
    after (exec .keepalive { setDev start { Dev.reset with lastSe0 := 100000, se0Windup := 1900 } with chip := ⟨0x83, 149000⟩ })
      (fun t => (t.dev.lastSe0, t.dev.deltaSe0, t.dev.se0Windup, t.chip.oscCtl)) = some (149000, 49000, 1900, 0x83) := by decide +kernel
/-- spec/40_transmit.md R123, R124. -/
theorem test_bit0_sent : after (step (sendingData [false] 3)) (fun t => (t.io.out, t.tx.level, t.tx.ones)) = some ([.sym .J], .J, 0) := by
  decide +kernel
/-- spec/41_receive.md R159: bit 7 of the PID, which is complete with it. -/
theorem test_bit0_received :
    after (step (receiving .K 0 { Pkt.reset with nbits := 7, cur := 0x69 } [.J])) (fun t => (t.pkt.buf, t.pkt.poly, t.pkt.crc)) =
    some ([0x69], .crc5, 0x001F) := by decide +kernel
/-- R123: the sixth 1. -/
theorem test_bit1_sent : after (step (sendingData [true] 5)) (fun t => (t.io.out, t.tx.ones)) = some ([.sym .K, .sym .J], 0) := by
  decide +kernel
/-- 2.4 row 14: a seventh 1. -/
theorem test_bit1_received : after (step (receiving .K 6 { Pkt.reset with nbits := 5 } [.K])) (fun t => (t.rxPhase, t.pkt.nbits)) =
    some (.idle, 5) := by decide +kernel

/-! ## The invariant on states of the tests -/

theorem cfg0_wf : cfg0.wf = true := by decide +kernel

theorem start_inv : Inv start where
  endpoints := by decide
  current := by decide
  latch := by decide
  mem := by decide
  driver := by decide
  txOnes := by decide
  txBits := by decide
  rxOnes := by decide
  rxData := fun h => absurd h (by decide)
  rxPacket := fun h => absurd h (by decide)
  halted := by decide
  boot := fun h => absurd h (by decide)
  params := cfg0_wf
  windup := by decide

/-! ## A state and operands for the hypotheses of every statement -/

/-- StepRunsTheDecodedInstruction: the preamble, the data loop, the dispatcher's three stages, and the transmit unit's four places; a
decoded and a rejected code. -/
theorem witness_StepRunsTheDecodedInstruction :
    (Running (placeCode (.preamble syncPattern) start) ∧ decode (fetch (placeCode (.preamble syncPattern) start)) = .ok .sync ∧
      (placeCode (.preamble syncPattern) start).rxPhase = .preamble) ∧
    (Running (receiving .K 1 Pkt.reset [.SE1]) ∧ decode (fetch (receiving .K 1 Pkt.reset [.SE1])) = .error (.drop .eSe1) ∧
      (receiving .K 1 Pkt.reset [.SE1]).rxPhase = .data) ∧
    (Running (received [0xD2]) ∧ (received [0xD2]).rxPhase = .dispatch ∧ (received [0xD2]).stage = .packet) ∧
    (Running (placeCode (.urb [1, 2]) start) ∧ (placeCode (.urb [1, 2]) start).stage = .request ∧
      ∃ pid lo hi, (placeCode (.urb [1, 2]) start).pkt.buf = pid :: ([1, 2] ++ [lo, hi])) ∧
    (Running (placeCode (.payload []) start) ∧ (placeCode (.payload []) start).stage = .payload ∧
      ∃ pid lo hi, (placeCode (.payload []) start).pkt.buf = pid :: ([] ++ [lo, hi])) ∧
    (Running (placeCode (.send ⟨0xD2, 0, 0, 0⟩) start) ∧ (placeCode (.send ⟨0xD2, 0, 0, 0⟩) start).rxPhase = .transmit ∧
      (placeCode (.send ⟨0xD2, 0, 0, 0⟩) start).tx.cmd = some ⟨0xD2, 0, 0, 0⟩) ∧
    (Running (sending [0xD2]) ∧ (sending [0xD2]).tx.cmd = none ∧ (sending [0xD2]).tx.synced = false) ∧
    (Running (sendingData [true] 1) ∧ (sendingData [true] 1).tx.synced = true ∧ (sendingData [true] 1).tx.bits = [true]) ∧
    (Running (sendingData [] 1) ∧ (sendingData [] 1).tx.synced = true ∧ (sendingData [] 1).tx.bits = []) := by
  refine ⟨⟨?_, ?_, ?_⟩, ⟨?_, ?_, ?_⟩, ⟨?_, ?_, ?_⟩, ⟨?_, ?_, PID_DATA0, lo8 (crc16 [1, 2]), hi8 (crc16 [1, 2]), ?_⟩,
    ⟨?_, ?_, PID_DATA0, lo8 (crc16 []), hi8 (crc16 []), ?_⟩, ⟨?_, ?_, ?_⟩, ⟨?_, ?_, ?_⟩, ⟨?_, ?_, ?_⟩, ⟨?_, ?_, ?_⟩⟩ <;>
    first | decide +kernel | exact ⟨by decide +kernel, by decide +kernel, by decide +kernel⟩

theorem witness_ResetInputFromAnyState : ({ start with io := { start.io with rst := true } } : State).io.rst = true := rfl

theorem witness_HaltedEngineTakesNoStep :
    ({ start with halted := true } : State).io.rst = false ∧ ({ start with halted := true } : State).halted = true := ⟨rfl, rfl⟩

/-- A bus event: the line shows the symbols, the counter the value, and the callback answers. -/
def event (line : List LineSymbol) (now : Word) (a : UserAction) : BusEvent := ⟨line, now, ⟨a, none, []⟩, [], none, 0⟩

/-- The start state with the events given still to come. -/
def withEvents (evs : List BusEvent) : State := { start with io := { start.io with events := evs } }

/-- InterruptEntry: with no event, and with one that leaves address 0 alone. -/
theorem witness_InterruptEntry :
    (start.io.rst = false ∧ start.halted = false ∧ start.rxPhase = .idle ∧ start.io.events = []) ∧
    ((withEvents [event [.SE0] 7 .silent]).rxPhase = .idle ∧
      (withEvents [event [.SE0] 7 .silent]).io.events = event [.SE0] 7 .silent :: [] ∧
      ∀ w ∈ (event [.SE0] 7 .silent).memWrites, w.1.toNat ≠ 0) :=
  ⟨⟨rfl, rfl, rfl, rfl⟩, rfl, rfl, fun _ h => absurd h List.not_mem_nil⟩

/-- An event with which the application has rewritten the last byte of the space twice and the first byte between. -/
def rewriting : BusEvent := { event [.SE0] 7 .silent with memWrites := [(0xFFFFFFFF, 1), (0, 2), (0xFFFFFFFF, 3)] }

/-- InterruptEntry: a byte that is not written again after. -/
theorem witness_InterruptEntry_rewritten :
    (withEvents [rewriting]).io.events = rewriting :: [] ∧
    rewriting.memWrites = [(0xFFFFFFFF, 1)] ++ (0, 2) :: [(0xFFFFFFFF, 3)] ∧ ∀ w ∈ [((0xFFFFFFFF : Word), (3 : Byte))], w.1 ≠ 0 :=
  ⟨rfl, rfl, by simp⟩

/-- The last write counts (spec/20_memory.md R73, R63). -/
theorem test_rewritten_bytes : after (step (withEvents [rewriting])) (fun t => [memRead t.mem 0xFFFFFFFF, memRead t.mem 0]) = some [3, 2] := by
  decide +kernel

theorem witness_DropIsSilent :
    Running (received [0xD2, 0x00]) ∧ decode (fetch (received [0xD2, 0x00])) = .error (.drop .eLength) :=
  ⟨⟨by decide +kernel, by decide +kernel, by decide +kernel⟩, by decide +kernel⟩

/-- SendOutsideTheContractIsRefused: eight bytes, nine bytes, and a reserved `poly`. -/
theorem witness_SendOutsideTheContractIsRefused :
    (∀ c : SendCmd, Running (placeCode (.send c) start) ∧ (placeCode (.send c) start).rxPhase = .transmit ∧
      (placeCode (.send c) start).tx.cmd = some c) ∧
    (((2#8 : Byte) = 0#8 ∨ (2#8 : Byte) = 2#8) ∧ 8 ≤ 8) ∧ ¬ (((0#8 : Byte) = 0#8 ∨ (0#8 : Byte) = 2#8) ∧ 9 ≤ 8) ∧
    ¬ (((1#8 : Byte) = 0#8 ∨ (1#8 : Byte) = 2#8) ∧ 0 ≤ 8) :=
  ⟨fun _ => ⟨⟨rfl, rfl, by simp [placeCode]⟩, rfl, rfl⟩, by decide, by decide, by decide⟩

theorem witness_DecodeUndoesEncode : (Instr.data0 (List.replicate 8 0xFF) 0x70FE).wf = true ∧ (Instr.unknownPid 0x5A (List.replicate 11 0)).wf = true := by
  decide

theorem witness_DecoderAcceptsOnlyEncodings :
    decode (.packet [0xD2]) = .ok .ack ∧ decode (.send ⟨0xD2, 0, 0, 0⟩) = .ok (.sendNoCrc 0xD2 0 0) := by decide

/-- LineSymbolsDecode: the whole pattern, and a first difference of each kind at the first and at the last symbol. -/
theorem witness_LineSymbolsDecode :
    (∀ j, j < 8 → syncPattern.getD j .J = syncPattern.getD j .J) ∧
    (([.J] : List LineSymbol).getD 0 .J ≠ syncPattern.getD 0 .J) ∧ (([.SE0] : List LineSymbol).getD 0 .J ≠ syncPattern.getD 0 .J) ∧
    (([.SE1] : List LineSymbol).getD 0 .J ≠ syncPattern.getD 0 .J) ∧
    (∀ x ∈ [LineSymbol.J, .SE0, .SE1],
      (∀ j, j < 7 → ([.K, .J, .K, .J, .K, .J, .K, x] : List LineSymbol).getD j .J = syncPattern.getD j .J) ∧
      ([.K, .J, .K, .J, .K, .J, .K, x] : List LineSymbol).getD 7 .J ≠ syncPattern.getD 7 .J) := by
  decide

/-- PacketsAreClassifiedByThePidByte: each format at the ends of its byte count. -/
theorem witness_PacketsAreClassifiedByThePidByte :
    ([] : List Byte).length < 12 ∧ (List.replicate 11 (0x55 : Byte)).length < 12 ∧
    (List.replicate 11 (0x55 : Byte)).length + 1 ≠ 3 ∧ 11 < (List.replicate 11 (0x55 : Byte)).length + 1 ∧
    ([0x00] : List Byte).length + 1 < 3 ∧ ([0x00, 0x10] : List Byte) = [0x00, 0x10] ∧
    ([0x00, 0x00] : List Byte) = [] ++ [0x00, 0x00] ∧ (List.replicate 8 (0xFF : Byte) ++ [0xFE, 0x70]).length < 12 ∧
    (0x5A : Byte) ∉ [0xD2#8, 0x69#8, 0xE1#8, 0x2D#8, 0xC3#8, 0x4B#8] := by
  decide

/-- UrbRowsAreTriedInOrder: a URB of every row, the fourth one differing from the third in a byte of the selector. -/
theorem witness_UrbRowsAreTriedInOrder :
    (0x9F#8 &&& 0xE0#8 = 0x80#8) ∧ (0x1F#8 &&& 0xE0#8 = 0x00#8) ∧ (0x21#8 &&& 0xE0#8 = 0x20#8) ∧
    ¬ (0x21#8 &&& 0xE0#8 = 0x20#8 ∧ 0x09#8 = 0x09#8 ∧ [0xFE#8, 0x03#8, 0x00#8, 0x00#8] = [0xFD#8, 0x03#8, 0x00#8, 0x00#8]) := by
  decide

/-- The dispatcher's states of the tests meet the invariant. -/
theorem received_inv : ∀ bytes ∈ [[0xD2], [0x69, 0x85, 0x60], [0xC3, 0x01, 0x81, 0x7F]], Inv (received bytes) := by
  intro bytes h
  have hd : RxOk (received bytes).pkt ∧ CrcTracks (received bytes).pkt ∧ (received bytes).pkt.nbits % 8 = 0 ∧
      0 < (received bytes).pkt.nbits := by
    simp only [List.mem_cons, List.not_mem_nil, or_false] at h
    rcases h with rfl | rfl | rfl <;>
      exact ⟨⟨by decide +kernel, by decide +kernel⟩, ⟨by decide +kernel, by decide +kernel, by decide +kernel, by decide +kernel⟩,
        by decide +kernel, by decide +kernel⟩
  exact {
    endpoints := by show 1 ≤ 3 ∧ 3 ≤ 16; decide
    current := by show 0 < 3; decide
    latch := by show (0 : BitVec 2) ≠ 3; decide
    mem := start_inv.mem
    driver := by simp [received, placeCode, start, State.reset, Tx.reset]
    txOnes := by simp [received, placeCode, start, State.reset, Tx.reset]
    txBits := by simp [received, placeCode, start, State.reset, Tx.reset]
    rxOnes := by simp [received, placeCode]
    rxData := by simp [received, placeCode]
    rxPacket := fun _ => hd
    halted := by simp [received, placeCode]
    boot := by simp [received, placeCode, start, State.reset, Tx.reset]
    params := cfg0_wf
    windup := start_inv.windup }

theorem witness_RunningRegisterDecidesAsTheFieldsDo :
    (Inv (received [0xC3, 0x01, 0x81, 0x7F]) ∧ (received [0xC3, 0x01, 0x81, 0x7F]).rxPhase = .dispatch ∧
      (received [0xC3, 0x01, 0x81, 0x7F]).stage = .packet ∧
      decode (fetch (received [0xC3, 0x01, 0x81, 0x7F])) = .ok (dataInstr false [0x01] 0x7F81)) ∧
    (Inv (received [0x69, 0x85, 0x60]) ∧ decode (fetch (received [0x69, 0x85, 0x60])) = .ok (TokenKind.inTok.instr 5 1 0x0C)) :=
  ⟨⟨received_inv _ (by simp), rfl, rfl, by decide +kernel⟩, received_inv _ (by simp), by decide +kernel⟩

theorem witness_SyncStartsTheDataLoop : (placeCode (.preamble syncPattern) start).rxPhase ≠ .transmit := by decide

/-- DataBitIsStored and PidSelectsTheCrcAndLaterBitsEnterIt: inside the PID, at its last bit, just after it, and at the last bit the
buffer holds. -/
theorem witness_DataBitIsStored : ∀ n ∈ [0, 7, 8, 15, 95], (receiving .K 5 { Pkt.reset with nbits := n } []).rxPhase ≠ .transmit ∧
    (receiving .K 5 { Pkt.reset with nbits := n } []).rx.ones ≠ 6 ∧ (receiving .K 5 { Pkt.reset with nbits := n } []).pkt.nbits < 96 := by
  decide

theorem witness_PidSelectsTheCrcAndLaterBitsEnterIt :
    (∀ poly ∈ [Poly.crc16, .crc5, .none], (receiving .K 5 { Pkt.reset with nbits := 8, poly := poly } []).pkt.poly = poly ∧
      8 ≤ (receiving .K 5 { Pkt.reset with nbits := 8, poly := poly } []).pkt.nbits) ∧
    (receiving .K 5 { Pkt.reset with nbits := 7 } []).pkt.nbits + 1 = 8 ∧ (receiving .K 5 { Pkt.reset with nbits := 6 } []).pkt.nbits < 7 ∧
    (∀ pid ∈ [0x69#8, 0xC3#8, 0xD2#8], ∃ b cur, after (exec (bitInstr b) (receiving .K 5 { Pkt.reset with nbits := 7, cur := cur } []))
      (fun t => t.pkt.pid) = some pid) := by
  refine ⟨by decide, by decide, by decide, ?_⟩
  intro pid h
  simp only [List.mem_cons, List.not_mem_nil, or_false] at h
  rcases h with rfl | rfl | rfl
  · exact ⟨false, 0x69, by decide +kernel⟩
  · exact ⟨true, 0x43, by decide +kernel⟩
  · exact ⟨true, 0x52, by decide +kernel⟩

theorem witness_BitsThatAreNotStored :
    (receiving .K 6 Pkt.reset []).rxPhase ≠ .transmit ∧ (receiving .K 6 Pkt.reset []).rx.ones = 6 ∧
    (receiving .K 5 { Pkt.reset with nbits := 96 } []).rx.ones ≠ 6 ∧ (receiving .K 5 { Pkt.reset with nbits := 96 } []).pkt.nbits = 96 ∧
    (receiving .K 5 { Pkt.reset with nbits := 95 } []).pkt.nbits < 96 := by
  decide

theorem witness_EndOfPacketChecksAlignment :
    (receiving .K 1 Pkt.reset []).rxPhase ≠ .transmit ∧ (receiving .K 1 Pkt.reset []).pkt.nbits = 0 ∧
    (receiving .K 1 { Pkt.reset with nbits := 7 } []).pkt.nbits % 8 ≠ 0 ∧
    ¬ ((receiving .K 1 { Pkt.reset with nbits := 8 } []).pkt.nbits = 0 ∨ (receiving .K 1 { Pkt.reset with nbits := 8 } []).pkt.nbits % 8 ≠ 0) := by
  decide

/-- ReceivingAFrameGivesItsBytes: one byte, and twelve. -/
theorem witness_ReceivingAFrameGivesItsBytes : ∀ bytes ∈ [[0xD2], List.replicate 12 (0x55 : Byte)],
    1 ≤ bytes.length ∧ bytes.length ≤ 12 ∧ (placeCode (.preamble (frame bytes ++ [.J])) start).io.rst = false ∧
    (placeCode (.preamble (frame bytes ++ [.J])) start).halted = false ∧
    (placeCode (.preamble (frame bytes ++ [.J])) start).rxPhase = .preamble ∧
    (placeCode (.preamble (frame bytes ++ [.J])) start).io.lineIn = frame bytes ++ [.J] := by
  intro bytes h
  simp only [List.mem_cons, List.not_mem_nil, or_false] at h
  rcases h with rfl | rfl <;> exact ⟨by decide, by decide, rfl, rfl, rfl, rfl⟩

theorem witness_SendLoadsTheBytes : (8 : Nat) ≤ 8 ∧ (8 : Nat) < 9 ∧ (0 : Nat) < 8 := by decide

/-- SourceSpaceReads: twelve bytes, the last index, the addresses next to the three windows, and the "ERR" string substituted. -/
theorem witness_SourceSpaceReads : start.cfg.wf = true ∧ cfgErr.wf = true ∧ cfgErr.hidDeclared ≠ cfgErr.hidActual ∧
    (List.replicate 12 (0 : Byte)).length ≤ 12 ∧ 11 < 12 ∧
    (∀ a ∈ [0x4002#32, 0x300C#32, 0x5008#32], 2 ≤ (a - cfgErr.zero2).toNat ∧ 12 ≤ (a - cfgErr.scratchBase).toNat ∧
      8 ≤ (a - cfgErr.errString).toNat) ∧ start.cfg.hidDeclared = start.cfg.hidActual := by
  refine ⟨cfg0_wf, by decide +kernel, by decide, by decide, by decide, ?_, rfl⟩
  show ∀ a ∈ [0x4002#32, 0x300C#32, 0x5008#32], 2 ≤ (a - 0x4000#32).toNat ∧ 12 ≤ (a - 0x3000#32).toNat ∧ 8 ≤ (a - 0x5000#32).toNat
  simp

theorem witness_SymbolsAreDrivenWithStuffing :
    (sendingData [true] 5).rxPhase = .transmit ∧ (sendingData [true] 5).tx.ones + 1 = 6 ∧ (sendingData [true] 4).tx.ones + 1 ≠ 6 ∧
    (sending [0xD2]).rxPhase = .transmit ∧ (sending [0xD2]).tx.level = .J ∧ (sending [0xD2]).tx.ones = 0 := by
  decide

theorem witness_EndOfPacketIsDriven :
    (sendingData [] 0).rxPhase = .transmit ∧ (sendingData [] 0).tx.boot = false ∧
    ({ sendingData [] 0 with tx := { (sendingData [] 0).tx with boot := true } } : State).tx.boot = true := by
  decide

theorem witness_TransmittingDrivesTheFrame : (sending [0xD2]).io.rst = false ∧ (sending [0xD2]).halted = false ∧ AtFrameStart [0xD2] (sending [0xD2]) :=
  ⟨rfl, rfl, rfl, rfl, rfl, rfl, rfl, rfl, rfl⟩

/-- StuffingIsSafeAndLosesNothing: a stuffed sequence of nine, and one frame. -/
theorem witness_StuffingIsSafeAndLosesNothing : 2 + 7 ≤ (stuff 0 (List.replicate 8 true)).length ∧ frame [0xD2] = frame [0xD2] := by
  decide

/-- KeepaliveMeasuresTheInterval: at the edges of the open band. -/
theorem witness_KeepaliveMeasuresTheInterval : ∀ now ∈ [49000#32, 47000#32],
    ¬ (-(start.cfg.trimBand : Int) < (now - start.dev.lastSe0 - 48000#32).toInt ∧ (now - start.dev.lastSe0 - 48000#32).toInt < start.cfg.trimBand) := by
  show ∀ now ∈ [49000#32, 47000#32], ¬ (-1000 < (now - 0#32 - 48000#32).toInt ∧ (now - 0#32 - 48000#32).toInt < 1000)
  simp only [List.forall_mem_cons]
  exact ⟨by decide, by decide, fun _ h => absurd h List.not_mem_nil⟩

/-- A state whose counter and windup are given. -/
def atKeepalive (now windup : Word) : State := { setDev start { Dev.reset with se0Windup := windup } with chip := ⟨0x83, now⟩ }

theorem atKeepalive_inv (now windup : Word) (h : -2000 < windup.toInt ∧ windup.toInt < 2000) : Inv (atKeepalive now windup) :=
  { start_inv with current := by show 0 < 3; decide, latch := by show (0 : BitVec 2) ≠ 3; decide, boot := fun h => Bool.noConfusion h, windup := h }

/-- KeepaliveTrimsAtTheThreshold: exactly at the threshold above and below, and one short of it. -/
theorem witness_KeepaliveTrimsAtTheThreshold :
    (Inv (atKeepalive 48001 1999) ∧ (48001#32 - 0#32 - 48000#32).toInt = 1 ∧ (2000 : Int) ≤ (1999#32).toInt + 1) ∧
    (Inv (atKeepalive 47999 (-1999)) ∧ (47999#32 - 0#32 - 48000#32).toInt = -1 ∧ (-1999#32).toInt + -1 ≤ -2000) ∧
    (Inv (atKeepalive 48001 1998) ∧ -2000 < (1998#32).toInt + 1 ∧ (1998#32).toInt + 1 < 2000) ∧
    (-1000 < (1 : Int) ∧ (1 : Int) < 1000 ∧ (-1000 : Int) < -1) :=
  ⟨⟨atKeepalive_inv _ _ (by decide), by decide, by decide⟩, ⟨atKeepalive_inv _ _ (by decide), by decide, by decide⟩,
    ⟨atKeepalive_inv _ _ (by decide), by decide, by decide⟩, by decide⟩

theorem witness_TrimStepMovesTheFieldByOne : cfg0.wf = true ∧ (TrimDir.tooSlow = .tooSlow ↔ cfg0.trimUpIsFaster = true) ∧
    ¬ (TrimDir.tooFast = .tooSlow ↔ cfg0.trimUpIsFaster = true) := by
  decide +kernel

theorem witness_ServoIsIsolated : Instr.ack ≠ .keepalive := by decide

/-- Tokens: 5 and 1 with their CRC5 in a device of address 5, a token to address 0 there, and the three ways not to be good. -/
theorem witness_TokenTestsPassExactlyGoodTokens :
    (∀ addr ∈ [(5 : BitVec 7), 0], TokenGood addr 1 (crc5 addr 1) (setDev start { Dev.reset with myAddress := 5 })) ∧
    (0x0D : BitVec 5) ≠ crc5 5 1 ∧
    ((0x12 : BitVec 5) = crc5 6 0 ∧ (6 : BitVec 7) ≠ 0 ∧ (6 : BitVec 7).setWidth 16 ≠ (5 : BitVec 16)) ∧
    ((0x11 : BitVec 5) = crc5 0 3 ∧ start.ep.length ≤ (3 : BitVec 4).toNat) ∧ ¬ TokenGood 0 3 0x11 start := by
  refine ⟨?_, by decide +kernel, by decide +kernel, by decide +kernel, fun h => absurd h.2.2 (by decide)⟩
  intro addr h
  simp only [List.mem_cons, List.not_mem_nil, or_false] at h
  rcases h with rfl | rfl <;> exact ⟨rfl, by decide +kernel, by decide⟩

/-- A good token to address 0 and endpoint 0 or 2. -/
theorem good0 (s : State) (h : s.ep.length = 3) : TokenGood 0 0 0x02 s ∧ TokenGood 0 2 0x07 s :=
  ⟨⟨by decide +kernel, .inl rfl, by rw [h]; decide⟩, ⟨by decide +kernel, .inl rfl, by rw [h]; decide⟩⟩

theorem witness_SetupTokenTearsDownTheTransfer : TokenGood 0 0 0x02 start ∧ start.endpoint? 0 = some EpEntry.reset :=
  ⟨(good0 _ rfl).1, rfl⟩

theorem witness_OutTokenRecordsTheEndpoint : TokenGood 0 2 0x07 start := (good0 _ rfl).2

theorem witness_InTokenFiresTheLatch :
    TokenGood 0 0 0x02 (setDev start { Dev.reset with rebootArmed := 2 }) ∧
    (setDev start { Dev.reset with rebootArmed := 2 }).endpoint? 0 = some EpEntry.reset ∧
    (setDev start { Dev.reset with rebootArmed := 2 }).dev.rebootArmed = 2 :=
  ⟨(good0 _ rfl).1, rfl, rfl⟩

/-- InTokenDrainsTheBuffer: nothing left to send at exactly 16 of 16 bytes, and one byte left at 17. -/
theorem witness_InTokenDrainsTheBuffer : ∀ n ∈ [(16 : Word), 17],
    TokenGood 0 0 0x02 (setEp start 0 { EpEntry.reset with count := 2, maxLen := n }) ∧
    (setEp start 0 { EpEntry.reset with count := 2, maxLen := n }).endpoint? 0 = some { EpEntry.reset with count := 2, maxLen := n } ∧
    (setEp start 0 { EpEntry.reset with count := 2, maxLen := n }).dev.rebootArmed ≠ 2 ∧
    (n.toNat ≤ (2 : Word).toNat * 8 % 2 ^ 32 ∨ (2 : Word).toNat * 8 % 2 ^ 32 < n.toNat) := by
  intro n _
  exact ⟨(good0 _ rfl).1, rfl, fun h => absurd (show (0 : BitVec 2) = 2 from h) (by decide), by omega⟩

/-- A callback that sends two bytes of the packet buffer, one of them written twice. -/
def answering (a : UserAction) : State :=
  { start with io := { start.io with userIn := ⟨a, some EpEntry.reset, [(⟨8, by decide⟩, 0x12), (⟨11, by decide⟩, 0x01), (⟨8, by decide⟩, 0x13)]⟩ } }

/-- InTokenCallsTheCallback: endpoint 2, and endpoint 0 with `custom`; every action; a byte written last at its second write, the last
byte of the buffer, and one that is not written. -/
theorem witness_InTokenCallsTheCallback :
    (∀ a ∈ [UserAction.silent, .send none 0x3008 2 2, .empty none],
      TokenGood 0 2 0x07 (answering a) ∧ (answering a).endpoint? 2 = some EpEntry.reset ∧ (answering a).io.userIn.action = a ∧
      CallbackCalled 2 EpEntry.reset (answering a)) ∧
    CallbackCalled 0 { EpEntry.reset with custom := true } start ∧ ¬ CallbackCalled 0 EpEntry.reset start ∧
    ((answering .silent).io.userIn.scratch =
        [(⟨8, by decide⟩, 0x12), (⟨11, by decide⟩, 0x01)] ++ (⟨8, by decide⟩, 0x13) :: [] ∧
      (∀ w ∈ (answering .silent).io.userIn.scratch, w.1.val ≠ 9)) ∧ start.io.userIn.scratch = [] :=
  ⟨fun _ _ => ⟨(good0 _ rfl).2, rfl, rfl, .inl (by decide), fun h => absurd h.2 (by decide)⟩,
    ⟨.inr rfl, fun h => absurd (show (0 : BitVec 2) = 2 from h.1) (by decide)⟩,
    fun h => h.1.elim (fun g => g rfl) (fun g => Bool.noConfusion g), ⟨rfl, by simp [answering]⟩, rfl⟩

theorem witness_HostAckTogglesAndCounts : start.endpoint? start.dev.currentEndpoint.toNat = some EpEntry.reset := rfl

theorem witness_PacketsThatAreDiscarded : (received [0xC3, 0x01, 0x01, 0x7F]).pkt.crc ≠ 0xB001 := by decide +kernel

/-- DuplicateDataIsReAcknowledged and ExpectedDataIsTakenAsUrbOrPayload. -/
theorem witness_DuplicateDataIsReAcknowledged : (received [0x4B, 0x00, 0x00]).pkt.crc = 0xB001 ∧
    (received [0x4B, 0x00, 0x00]).endpoint? (received [0x4B, 0x00, 0x00]).dev.currentEndpoint.toNat = some EpEntry.reset ∧
    EpEntry.reset.toggleOut ≠ true :=
  ⟨by decide +kernel, rfl, by decide⟩

theorem witness_ExpectedDataIsTakenAsUrbOrPayload : (received [0xC3, 0x01, 0x81, 0x7F]).pkt.crc = 0xB001 ∧
    (received [0xC3, 0x01, 0x81, 0x7F]).endpoint? 0 = some EpEntry.reset ∧
    (received [0xC3, 0x01, 0x81, 0x7F]).dev.setupRequest = false ∧
    (setDev (received [0xC3, 0x01, 0x81, 0x7F]) devSetup).dev.setupRequest = true ∧
    (List.replicate 8 (0 : Byte)).length = 8 ∧ ([0x01] : List Byte).length ≠ 8 :=
  ⟨by decide +kernel, rfl, rfl, rfl, by decide, by decide⟩

theorem witness_GetDescriptorArmsTheTransfer : start.endpoint? start.dev.currentEndpoint.toNat = some EpEntry.reset ∧
    descLookup start.cfg (selector 0x0100 0) = some (0x1000, 18) ∧ descLookup start.cfg (selector 0x0F00 0) = none :=
  ⟨rfl, by decide +kernel, by decide +kernel⟩

/-- DescriptorLookupKeepsItsThreeFacts: both outcomes of the self-test. -/
theorem witness_DescriptorLookupKeepsItsThreeFacts : start.endpoint? start.dev.currentEndpoint.toNat = some EpEntry.reset ∧
    cfg0.hidDeclared = cfg0.hidActual ∧ cfgErr.hidDeclared ≠ cfgErr.hidActual := ⟨rfl, rfl, by decide⟩

theorem witness_OtherRequestsWriteAddressAndLatchOnly : start.endpoint? start.dev.currentEndpoint.toNat = some EpEntry.reset := rfl

theorem witness_OutPayloadMovesTheLatch : start.endpoint? start.dev.currentEndpoint.toNat = some EpEntry.reset := rfl

/-- StepKeepsTheInvariant, DriverIsOnOnlyWhileTransmitting and BootResetIsGuarded: a state of the dispatcher that meets the invariant,
and its step. -/
theorem witness_StepKeepsTheInvariant : Inv (received [0xD2]) ∧ ∃ t, step (received [0xD2]) = .next t :=
  ⟨received_inv _ (by simp), _, rfl⟩

/-- The last step of the response that fires the latch. -/
def firing : State :=
  { start with dev := { Dev.reset with rebootArmed := 2 }, rxPhase := .transmit,
               tx := { Tx.reset with oe := true, synced := true, boot := true } }

/-- The same response before its first step, with a gap of two symbols. -/
def aboutToFire : State :=
  { firing with tx := { Tx.reset with cmd := some ⟨0x4B, 0x4000, 2, 0⟩, boot := true }, io := { start.io with gap := 2 } }

theorem firing_inv : Inv firing :=
  { start_inv with
    current := by show 0 < 3; decide
    latch := by decide
    driver := by decide
    txOnes := by decide
    txBits := by decide
    rxOnes := by decide
    rxData := fun h => absurd h (by decide)
    rxPacket := fun h => absurd h (by decide)
    halted := by decide
    boot := fun _ => ⟨rfl, rfl, rfl, true, .inr ⟨rfl, List.nil_suffix⟩⟩
    windup := start_inv.windup }

theorem aboutToFire_inv : Inv aboutToFire :=
  { firing_inv with
    driver := by decide
    txOnes := by decide
    txBits := by decide
    boot := fun _ => ⟨rfl, rfl, rfl, true, .inl rfl⟩ }

theorem witness_FiringDrivesTheEmptyResponseThenBootReset : Inv aboutToFire ∧ aboutToFire.io.rst = false ∧
    aboutToFire.tx.cmd = some ⟨0x4B, 0x4000, 2, 0⟩ ∧ aboutToFire.tx.boot = true := ⟨aboutToFire_inv, rfl, rfl, rfl⟩

theorem witness_BootResetIsGuarded : Inv firing ∧ step firing = .next (txEop firing) ∧ firing.halted = false ∧ (txEop firing).halted = true ∧
    (txEop firing).io.out.count .bootReset ≠ firing.io.out.count .bootReset :=
  ⟨firing_inv, rfl, rfl, by decide, by decide⟩

/-- DriverIsOnOnlyWhileTransmitting: a step that drives symbols, one that writes `OSC_CTL`, and one in which a gap passes. -/
theorem witness_DriverIsOnOnlyWhileTransmitting : Inv firing ∧ step firing = .next (txEop firing) ∧ Output.sym .SE0 ∈ (txEop firing).io.out ∧
    Inv start ∧ start.rxPhase ≠ .transmit ∧
    after (step { atKeepalive 48001 1999 with rxPhase := .preamble, io := { start.io with lineIn := [.SE0] } }) (fun t => t.io.out) =
      some [.oscCtl 0x7B] ∧
    Inv aboutToFire ∧ after (step aboutToFire) (fun t => (t.io.out, t.tx.oe)) = some ([.idle, .idle], true) :=
  ⟨firing_inv, rfl, by decide, start_inv, by decide, by decide +kernel, aboutToFire_inv, by decide +kernel⟩

theorem witness_TheOnlyFaultIsAMissingEndpoint : Inv start ∧
    (setDev start { Dev.reset with currentEndpoint := 3 }).endpoint? (setDev start { Dev.reset with currentEndpoint := 3 }).dev.currentEndpoint.toNat = none ∧
    (setDev (received [0xC3, 0x01, 0x81, 0x7F]) { Dev.reset with currentEndpoint := 3 }).pkt.crc = 0xB001 ∧
    exec .ack (setDev start { Dev.reset with currentEndpoint := 3 }) = .fault .noEndpoint :=
  ⟨start_inv, rfl, by decide +kernel, rfl⟩

theorem witness_EveryInvocationEnds : Inv (received [0xD2]) ∧ (received [0xD2]).io.rst = false ∧ ContractKept (received [0xD2]) :=
  ⟨received_inv _ (by simp), rfl, ⟨fun _ _ _ _ h => UserAction.noConfusion h, fun _ h => nomatch h⟩⟩

theorem witness_LatchMovesOnlyAsTheTableSays : ∃ t, exec (.setReportBoot 0 0) start = .next t := ⟨_, rfl⟩

/-- DeviceRegistersHaveNoOtherWriters: each register that moves. -/
theorem witness_DeviceRegistersHaveNoOtherWriters :
    after (exec (.setAddress 0 5 0 0) start) (fun t => t.dev.myAddress != start.dev.myAddress) = some true ∧
    after (exec (.outTok 0 2 0x07) start) (fun t => t.dev.currentEndpoint != start.dev.currentEndpoint) = some true ∧
    after (exec (.setup 0 0 0x02) start) (fun t => t.dev.setupRequest) = some true ∧
    after (exec (dataInstr false (List.replicate 8 0) 0x40BF)
      { setDev start devSetup with stage := .packet, pkt := { Pkt.reset with crc := 0xB001 } }) (fun t => t.dev.setupRequest) = some false ∧
    Instr.ack ≠ .keepalive := by
  decide +kernel

theorem witness_EndpointFileHasNoOtherWriters :
    after (exec .ack start) (fun t => t.endpoint? 0 != start.endpoint? 0) = some true ∧
    after (exec (.setup 0 2 0x07) start) (fun t => t.endpoint? 2 != start.endpoint? 2) = some true ∧
    after (exec (.inTok 0 2 0x07) { start with io := { start.io with userIn := ⟨.silent, some (entry true true), []⟩ } })
      (fun t => t.endpoint? 2 != start.endpoint? 2) = some true := by
  decide +kernel

theorem witness_EngineNeverWritesMemoryOrParameters : start.cfg.wf = true ∧ (∃ t, exec .keepalive start = .next t) ∧ Instr.ack ≠ .keepalive :=
  ⟨cfg0_wf, ⟨_, rfl⟩, by decide⟩

/-- EngineSendsOnlyAckAndDataInContract: the acknowledgement, the empty response, the drain, and the callback. -/
theorem witness_EngineSendsOnlyAckAndDataInContract : start.tx.cmd = none ∧
    after (exec (.outPayloadOther []) start) (fun t => t.tx.cmd.isSome) = some true ∧
    after (exec (.inTok 0 0 0x02) start) (fun t => t.tx.cmd.isSome) = some true ∧
    after (exec (.inTok 0 0 0x02) (setEp start 0 { EpEntry.reset with maxLen := 1 })) (fun t => t.tx.cmd.isSome) = some true ∧
    after (exec (.inTok 0 2 0x07) { start with io := { start.io with userIn := ⟨.send none 0x3000 1 2, none, []⟩ } }) (fun t => t.tx.cmd.isSome) =
      some true := by
  decide +kernel

/-- The start state with the same data packet twice on the bus. -/
def twice (setup : Bool) (payload : List Byte) : State :=
  { withEvents [event (frame (dataBytes false payload)) 7 .silent, event (frame (dataBytes false payload)) 7 .silent] with
    dev := { Dev.reset with setupRequest := setup } }

/-- RepeatedDataPacketIsIdempotent: an empty OUT payload, and a URB of eight bytes. -/
theorem witness_RepeatedDataPacketIsIdempotent : ∀ p ∈ [(false, []), (true, List.replicate 8 (0 : Byte))],
    Inv (twice p.1 p.2) ∧ (twice p.1 p.2).io.rst = false ∧ (twice p.1 p.2).halted = false ∧ (twice p.1 p.2).rxPhase = .idle ∧
    (twice p.1 p.2).io.events = event (frame (dataBytes false p.2)) 7 .silent :: event (frame (dataBytes false p.2)) 7 .silent :: [] ∧
    (event (frame (dataBytes false p.2)) 7 .silent).memWrites = [] ∧ (twice p.1 p.2).endpoint? 0 = some EpEntry.reset ∧ p.2.length ≤ 8 ∧
    ((twice p.1 p.2).dev.setupRequest = true → p.2.length = 8) ∧
    (event (frame (dataBytes false p.2)) 7 .silent).line = frame (dataBytes EpEntry.reset.toggleOut p.2) ++ [] := by
  intro p h
  have hi : Inv (twice p.1 p.2) :=
    { start_inv with
      current := by show 0 < 3; decide
      latch := by show (0 : BitVec 2) ≠ 3; decide
      boot := fun h => Bool.noConfusion h
      windup := start_inv.windup }
  simp only [List.mem_cons, List.not_mem_nil, or_false] at h
  rcases h with rfl | rfl <;> exact ⟨hi, rfl, rfl, rfl, rfl, rfl, rfl, by decide, by decide, by rw [List.append_nil]; rfl⟩

end Sys2Proof.Tests
end

section
/-! PROOFS. What an instruction that completes leaves: one inversion of `exec`, from which the statements about the writers of the
registers and the step lemma of the invariant follow. -/

namespace Sys2Proof.Machine

open Config

/-! ## A token's tests -/

/-- The token field in wire order: address and endpoint, then the CRC5. -/
theorem tokenBits_tokenField (addr : BitVec 7) (endp : BitVec 4) (crc : BitVec 5) :
    tokenBits 16 (tokenField addr endp crc) = tokenBits 11 (tokenField addr endp 0) ++ (List.range 5).map crc.getLsbD := by
  simp [tokenBits, tokenField, List.range_succ]

/-- The residual is good exactly for the CRC5 of the address and the endpoint (spec/42_crc.md R197). -/
theorem crc5Norm_tokenField (addr : BitVec 7) (endp : BitVec 4) (crc : BitVec 5) :
    crc5Norm (tokenField addr endp crc) = CRC5_GOOD ↔ crc = crc5 addr endp := by
  have hres := crcReg_residual CRC5_POLY 0x1F#5 CRC5_RAW_RESIDUAL (by decide) (by decide) (crc5Reg (tokenBits 11 (tokenField addr endp 0)))
    ((List.range 5).map crc.getLsbD) (by simp)
  have hreg : crc5Reg (tokenBits 16 (tokenField addr endp crc)) =
      ((List.range 5).map crc.getLsbD).foldl (crcStep CRC5_POLY) (crc5Reg (tokenBits 11 (tokenField addr endp 0))) := by
    rw [tokenBits_tokenField, crc5Reg, crcReg_append]; rfl
  rw [crc5Norm, show CRC5_GOOD = 0#5 from rfl, BitVec.xor_eq_zero_iff, hreg, hres, crc5]
  exact ⟨bits_injective _ _, fun h => by rw [h]⟩

theorem addrIgnored_eq_false (addr : BitVec 7) (mine : BitVec 16) :
    addrIgnored addr mine = false ↔ addr = 0 ∨ addr.setWidth 16 = mine := by
  simp only [addrIgnored, Bool.and_eq_false_iff, bne_eq_false_iff_eq]

/-- The tests of spec/43_dispatch.md R213 pass exactly the good tokens. -/
theorem tokenFault_eq_none (addr : BitVec 7) (endp : BitVec 4) (crc : BitVec 5) (s : State) :
    tokenFault addr endp crc s = none ↔ TokenGood addr endp crc s := by
  rw [TokenGood, ← crc5Norm_tokenField, ← addrIgnored_eq_false]
  simp only [tokenFault]
  split
  · simp [*]
  · split
    · simp [*]
    · split
      · simp; omega
      · simp_all

/-- The callback answers when the latch does not fire and the endpoint is not left to the drain. -/
theorem callbackCalled_of_flags {endp : BitVec 4} {e : EpEntry} {s : State} (hl : latchFires s.dev endp = false)
    (hc : isCallback endp e = true) : CallbackCalled endp e s := by
  simp only [latchFires, Bool.and_eq_false_iff, beq_eq_false_iff_ne] at hl
  simp only [isCallback, Bool.or_eq_true, bne_iff_ne] at hc
  exact ⟨hc, fun h => hl.elim (· h.1) (· h.2)⟩

theorem latchFires_eq_true (d : Dev) (endp : BitVec 4) :
    latchFires d endp = true ↔ d.rebootArmed = 2#2 ∧ endp = 0#4 := by
  simp [latchFires]

/-! ## What a callback leaves alone -/

@[simp] theorem withCallback_dev (endp : BitVec 4) (s : State) : (withCallback endp s).dev = s.dev := by
  obtain ⟨_, _, h, _, _⟩ := withCallback_eq endp s; rw [h]

@[simp] theorem withCallback_tx (endp : BitVec 4) (s : State) : (withCallback endp s).tx = s.tx := by
  obtain ⟨_, _, h, _, _⟩ := withCallback_eq endp s; rw [h]

@[simp] theorem withCallback_halted (endp : BitVec 4) (s : State) : (withCallback endp s).halted = s.halted := by
  obtain ⟨_, _, h, _, _⟩ := withCallback_eq endp s; rw [h]

@[simp] theorem withCallback_mem (endp : BitVec 4) (s : State) : (withCallback endp s).mem = s.mem := by
  obtain ⟨_, _, h, _, _⟩ := withCallback_eq endp s; rw [h]

@[simp] theorem withCallback_cfg (endp : BitVec 4) (s : State) : (withCallback endp s).cfg = s.cfg := by
  obtain ⟨_, _, h, _, _⟩ := withCallback_eq endp s; rw [h]

theorem withCallback_ep (endp : BitVec 4) (s : State) :
    (withCallback endp s).ep = (s.io.userIn.entry.map (s.ep.set endp.toNat)).getD s.ep := by
  obtain ⟨_, _, h, he, _⟩ := withCallback_eq endp s
  rw [h]
  exact he.trans (by cases s.io.userIn.entry <;> rfl)

@[simp] theorem withCallback_ep_length (endp : BitVec 4) (s : State) : (withCallback endp s).ep.length = s.ep.length := by
  rw [withCallback_ep]; cases s.io.userIn.entry <;> simp

/-! ## The effects -/

/-- The instructions of the line and the `send` commands, which write no register of the endpoint file or of the device state. -/
def lineOrSend : Instr → Bool
  | .sync | .eop | .bit0 | .bit1 | .sendNoCrc _ _ _ | .sendCrc16 _ _ _ => true
  | _ => false

/-- For a request or an OUT payload: what it writes into the current entry, and `my_address` and the latch after it
(spec/44_endpoint.md R252 to R258). -/
def acceptArgs (s : State) : Instr → Option ((EpEntry → EpEntry) × BitVec 16 × BitVec 2)
  | .getDescriptor _ wValue wIndex wLength =>
    some (armEntry (descLookup s.cfg (selector wValue wIndex)) wLength, s.dev.myAddress, 0#2)
  | .setAddress _ wValue _ _ => some (id, wValue, 0#2)
  | .setReportBoot _ _ => some (id, s.dev.myAddress, 1#2)
  | .unrecognisedRequest _ _ _ _ _ => some (id, s.dev.myAddress, 0#2)
  | .outPayloadCookie => some (id, s.dev.myAddress, latchAfterCookie s.dev.rebootArmed)
  | .outPayloadOther _ => some (id, s.dev.myAddress, 0#2)
  | _ => none

/-- A request or an OUT payload is accepted with its arguments. -/
theorem exec_eq_acceptData {i : Instr} {s : State} {write : EpEntry → EpEntry} {addr : BitVec 16} {latch : BitVec 2}
    (h : acceptArgs s i = some (write, addr, latch)) : exec i s = acceptData write addr latch s := by
  cases i <;> cases h <;> rfl

/-- The endpoint of a good token becomes the current one (spec/44_endpoint.md R241 to R243). -/
abbrev selectEndpoint (endp : BitVec 4) (s : State) : State := setDev s { s.dev with currentEndpoint := endp }

/-- What an instruction that completes can leave, by who wrote it. -/
inductive Effect (s : State) : Instr → State → Prop
  /-- The invocation returns and no register is written (spec/60_exceptions.md R330). -/
  | dropped {i} (hi : acceptArgs s i = none) : Effect s i (endInvocation s)
  /-- The line and the `send` commands write other things. -/
  | line {i t} (hi : lineOrSend i = true) (hep : t.ep = s.ep) (hdev : t.dev = s.dev) (hmem : t.mem = s.mem) (hcfg : t.cfg = s.cfg) :
      Effect s i t
  /-- The servo's registers, and perhaps `OSC_CTL` (spec/45_se0_trim.md R302). -/
  | keepalive {s1} (hdev : s1.dev = (servo s.cfg s.chip.cycCnt s.dev s.chip.oscCtl).1) (hep : s1.ep = s.ep) (htx : s1.tx = s.tx)
      (hh : s1.halted = s.halted) (hmem : s1.mem = s.mem) (hcfg : s1.cfg = s.cfg) : Effect s .keepalive (endInvocation s1)
  /-- A host ACK (spec/44_endpoint.md R248). -/
  | ack {e} (he : s.currentEp? = some e) : Effect s .ack (endInvocation (setCurrentEp s (ackEntry e)))
  /-- A duplicate data packet is acknowledged again (R250). -/
  | duplicate (tg payload crc) : Effect s (dataInstr tg payload crc) (sendAck s)
  /-- A data packet whose payload is the URB (R251). -/
  | request (tg) {payload} (crc) (hcrc : crc16Good s.pkt = true) (hs : s.dev.setupRequest = true) (hn : payload.length = 8) :
      Effect s (dataInstr tg payload crc)
        { setDev s { s.dev with setupRequest := false } with rxPhase := .dispatch, stage := .request }
  /-- Any other data packet that is taken (R252). -/
  | payload (tg payload crc) : Effect s (dataInstr tg payload crc) { s with rxPhase := .dispatch, stage := .payload }
  /-- A request or a payload accepted (R253). -/
  | accept {i write addr latch e} (ha : acceptArgs s i = some (write, addr, latch)) (he : s.currentEp? = some e) :
      Effect s i (sendAck (setDev (setCurrentEp s { write e with toggleOut := !(write e).toggleOut })
        { s.dev with myAddress := addr, rebootArmed := latch }))
  /-- A good SETUP token (R241). -/
  | setup {addr endp crc e} (hg : TokenGood addr endp crc s) (he : s.endpoint? endp.toNat = some e) :
      Effect s (.setup addr endp crc)
        (endInvocation (setEp (setDev s { s.dev with currentEndpoint := endp, setupRequest := true }) endp.toNat (setupEntry e)))
  /-- A good OUT token (R242). -/
  | out {addr endp crc} (hg : TokenGood addr endp crc s) : Effect s (.outTok addr endp crc) (endInvocation (selectEndpoint endp s))
  /-- A good IN token that fires the latch (R244). -/
  | fires {addr crc} (tg) (hg : TokenGood addr 0#4 crc s) (hl : s.dev.rebootArmed = 2#2) :
      Effect s (.inTok addr 0#4 crc) (sendEmpty (dataPid tg) { selectEndpoint 0#4 s with tx := { s.tx with boot := true } })
  /-- A good IN token on which the callback is silent (R262). -/
  | silent {addr endp crc e} (hg : TokenGood addr endp crc s) (he : s.endpoint? endp.toNat = some e) (hc : CallbackCalled endp e s) :
      Effect s (.inTok addr endp crc) (endInvocation (withCallback endp (selectEndpoint endp s)))
  /-- A good IN token on which the callback sends (R262). -/
  | answers {addr endp crc e} (c : SendCmd) (hg : TokenGood addr endp crc s) (he : s.endpoint? endp.toNat = some e)
      (hc : CallbackCalled endp e s) : Effect s (.inTok addr endp crc) (callSend c (withCallback endp (selectEndpoint endp s)))
  /-- A good IN token served by the drain (R247). -/
  | drains {addr endp crc} (c : SendCmd) (hg : TokenGood addr endp crc s) :
      Effect s (.inTok addr endp crc) (callSend c (selectEndpoint endp s))

theorem acceptArgs_dataInstr (s : State) (tg : Bool) (payload : List Byte) (crc : BitVec 16) :
    acceptArgs s (dataInstr tg payload crc) = none := by
  cases tg <;> rfl

theorem exec_dataInstr (tg : Bool) (payload : List Byte) (crc : BitVec 16) (s : State) :
    exec (dataInstr tg payload crc) s = handleData (dataPid tg) payload.length s := by
  cases tg <;> rfl

theorem effect_dataInstr {tg : Bool} {p : List Byte} {crc : BitVec 16} {s t : State}
    (h : exec (dataInstr tg p crc) s = .next t) : Effect s (dataInstr tg p crc) t := by
  rw [exec_dataInstr] at h
  obtain rfl | ⟨hg, e, -, ⟨-, rfl⟩ | ⟨-, hs, hn, rfl⟩ | ⟨-, -, rfl⟩⟩ := handleData_next h
  · exact .dropped (acceptArgs_dataInstr ..)
  · exact .duplicate ..
  · exact .request _ _ hg hs hn
  · exact .payload ..

theorem effect_inTok {addr : BitVec 7} {endp : BitVec 4} {crc : BitVec 5} {s t : State}
    (h : exec (.inTok addr endp crc) s = .next t) : Effect s (.inTok addr endp crc) t := by
  obtain rfl | ⟨e, hg, he, hh⟩ := dispatchToken_next h
  · exact .dropped rfl
  rw [tokenFault_eq_none] at hg
  obtain ⟨hl, heq⟩ | ⟨hl, hc, heq⟩ | ⟨-, -, heq⟩ := handleIn_cases endp e s
  · obtain ⟨harmed, rfl⟩ := (latchFires_eq_true _ _).1 hl
    cases heq.symm.trans hh
    exact .fires _ hg harmed
  · have hc := callbackCalled_of_flags hl hc
    rw [heq, callUserIn_eq] at hh
    split at hh <;> cases hh
    · exact .silent hg he hc
    · exact .answers _ hg he hc
    · exact .answers _ hg he hc
  · rw [heq, drain] at hh
    split at hh <;> cases hh
    · exact .drains _ hg
    · exact .drains _ hg

theorem effect_outTok {addr : BitVec 7} {endp : BitVec 4} {crc : BitVec 5} {s t : State}
    (h : exec (.outTok addr endp crc) s = .next t) : Effect s (.outTok addr endp crc) t := by
  obtain rfl | ⟨e, hg, -, hh⟩ := dispatchToken_next h
  · exact .dropped rfl
  · cases hh; exact .out ((tokenFault_eq_none ..).1 hg)

theorem effect_setup {addr : BitVec 7} {endp : BitVec 4} {crc : BitVec 5} {s t : State}
    (h : exec (.setup addr endp crc) s = .next t) : Effect s (.setup addr endp crc) t := by
  obtain rfl | ⟨e, hg, he, hh⟩ := dispatchToken_next h
  · exact .dropped rfl
  · cases hh; exact .setup ((tokenFault_eq_none ..).1 hg) he

theorem effect_ack {s t : State} (h : exec .ack s = .next t) : Effect s .ack t := by
  simp only [exec, execAck] at h
  split at h <;> cases h
  exact .ack (by assumption)

theorem effect_keepalive {s t : State} (h : exec .keepalive s = .next t) : Effect s .keepalive t := by
  obtain ⟨-, heq⟩ | ⟨dir, -, heq⟩ := execKeepalive_cases s <;> cases heq.symm.trans h <;> exact .keepalive rfl rfl rfl rfl rfl rfl

theorem effect_accept {i : Instr} {s t : State} {write : EpEntry → EpEntry} {addr : BitVec 16} {latch : BitVec 2}
    (ha : acceptArgs s i = some (write, addr, latch)) (h : exec i s = .next t) : Effect s i t := by
  rw [exec_eq_acceptData ha] at h
  obtain ⟨e, he, rfl⟩ := acceptData_next h
  exact .accept ha he

theorem exec_bitInstr (b : Bool) (s : State) :
    exec (bitInstr b) s = if s.rxPhase = .transmit then .next (txBit b s) else rxBit b s := by
  cases b <;> rfl

/-- A bit writes no register, sent or received. -/
theorem effect_bit {b : Bool} {s t : State} (h : exec (bitInstr b) s = .next t) : Effect s (bitInstr b) t := by
  have hl : lineOrSend (bitInstr b) = true := by cases b <;> rfl
  rw [exec_bitInstr] at h
  split at h
  · cases h
    obtain ⟨_, _, _, htx, -⟩ := txBit_eq b s
    exact .line hl (by rw [htx]) (by rw [htx]) (by rw [htx]) (by rw [htx])
  · obtain rfl | ⟨-, -, rfl⟩ | ⟨-, -, rfl⟩ := rxBit_next h <;> exact .line hl rfl rfl rfl rfl

theorem exec_sync (s : State) : exec .sync s = .next (if s.rxPhase = .transmit then txSync s else rxSync s) := by
  simp only [exec, execSync]; split <;> rfl

theorem effect_sync {s t : State} (h : exec .sync s = .next t) : Effect s .sync t := by
  cases (exec_sync s).symm.trans h
  split
  · obtain ⟨_, _, _, htx, -⟩ := txBits_eq (byteBits 0x80#8) s
    exact .line rfl (by rw [txSync, htx]) (by rw [txSync, htx]) (by rw [txSync, htx]) (by rw [txSync, htx])
  · exact .line rfl rfl rfl rfl rfl

theorem exec_eop (s : State) : exec .eop s = if s.rxPhase = .transmit then .next (txEop s) else rxEop s := rfl

theorem effect_eop {s t : State} (h : exec .eop s = .next t) : Effect s .eop t := by
  rw [exec_eop] at h
  split at h
  · cases h
    simp only [txEop]
    split <;> exact .line rfl rfl rfl rfl rfl
  · obtain rfl | ⟨-, -, rfl⟩ := rxEop_next h <;> exact .line rfl rfl rfl rfl rfl

theorem effect_sendNoCrc {token : Byte} {ptr : Word} {len : Nat} {s t : State} (h : exec (.sendNoCrc token ptr len) s = .next t) :
    Effect s (.sendNoCrc token ptr len) t := by
  simp only [exec, execSendNoCrc] at h
  split at h <;> cases h
  exact .line rfl rfl rfl rfl rfl

theorem effect_sendCrc16 {token : Byte} {ptr : Word} {len : Nat} {s t : State} (h : exec (.sendCrc16 token ptr len) s = .next t) :
    Effect s (.sendCrc16 token ptr len) t := by
  simp only [exec, execSendCrc16] at h
  split at h <;> cases h
  exact .line rfl rfl rfl rfl rfl

/-- Everything an instruction that completes can leave. -/
theorem exec_effect {i : Instr} {s t : State} (h : exec i s = .next t) : Effect s i t := by
  cases i with
  | ack => exact effect_ack h
  | data0 payload crc => exact effect_dataInstr (tg := false) h
  | data1 payload crc => exact effect_dataInstr (tg := true) h
  | inTok addr endp crc => exact effect_inTok h
  | outTok addr endp crc => exact effect_outTok h
  | setup addr endp crc => exact effect_setup h
  | unknownPid pid rest => cases h; exact .dropped rfl
  | getDescriptor r v x l => exact effect_accept rfl h
  | setAddress r v x l => exact effect_accept rfl h
  | setReportBoot r l => exact effect_accept rfl h
  | unrecognisedRequest rt rq v x l => exact effect_accept rfl h
  | outPayloadCookie => exact effect_accept rfl h
  | outPayloadOther p => exact effect_accept rfl h
  | sendNoCrc token ptr len => exact effect_sendNoCrc h
  | sendCrc16 token ptr len => exact effect_sendCrc16 h
  | sync => exact effect_sync h
  | eop => exact effect_eop h
  | keepalive => exact effect_keepalive h
  | bit0 => exact effect_bit (b := false) h
  | bit1 => exact effect_bit (b := true) h

end Sys2Proof.Machine
end

section
/-! PROOFS. The invariant: it holds at reset and every step keeps it. -/

namespace Sys2Proof.Machine

open Config

/-! ## The part of the invariant about the registers -/

/-- What the invariant says of the registers and of the memory, whatever the phase. -/
structure RegistersOk (s : State) : Prop where
  endpoints : 1 ≤ s.ep.length ∧ s.ep.length ≤ ENDPOINTS_MAX
  current : s.dev.currentEndpoint.toNat < s.ep.length
  latch : s.dev.rebootArmed ≠ 3#2
  mem : Memory.wf s.mem
  params : s.cfg.wf = true
  windup : -(s.cfg.trimThreshold : Int) < s.dev.se0Windup.toInt ∧ s.dev.se0Windup.toInt < s.cfg.trimThreshold

theorem Inv.registersOk {s : State} (h : Inv s) : RegistersOk s :=
  ⟨h.endpoints, h.current, h.latch, h.mem, h.params, h.windup⟩

/-- The registers stay right if the file keeps its length and the device state goes on to legal values. -/
theorem RegistersOk.rewrite {s t : State} (h : RegistersOk s) (hep : t.ep.length = s.ep.length)
    (hcur : t.dev.currentEndpoint.toNat < s.ep.length) (hlatch : t.dev.rebootArmed ≠ 3#2)
    (hwind : t.dev.se0Windup = s.dev.se0Windup) (hmem : t.mem = s.mem) (hcfg : t.cfg = s.cfg) : RegistersOk t where
  endpoints := hep ▸ h.endpoints
  current := hep ▸ hcur
  latch := hlatch
  mem := hmem ▸ h.mem
  params := hcfg ▸ h.params
  windup := by rw [hcfg, hwind]; exact h.windup

/-- The device state, the memory and the parameters are as before. -/
theorem RegistersOk.of_eq {s t : State} (h : RegistersOk s) (hep : t.ep.length = s.ep.length) (hdev : t.dev = s.dev)
    (hmem : t.mem = s.mem) (hcfg : t.cfg = s.cfg) : RegistersOk t :=
  h.rewrite hep (hdev ▸ h.current) (hdev ▸ h.latch) (hdev ▸ rfl) hmem hcfg

theorem RegistersOk.advance {s : State} (h : RegistersOk s) : RegistersOk (advance s) := by
  obtain ⟨_, _, _, _, ha⟩ := advance_eq s
  rw [ha]
  exact h.of_eq rfl rfl rfl rfl

/-- The latch an accepted packet leaves is never 3 (spec/44_endpoint.md R259). -/
theorem acceptArgs_latch {s : State} {i : Instr} {write : EpEntry → EpEntry} {addr : BitVec 16} {latch : BitVec 2}
    (h : acceptArgs s i = some (write, addr, latch)) : latch ≠ 3#2 := by
  have hcookie : ∀ l, latchAfterCookie l ≠ 3#2 := by decide
  cases i <;> cases h
  case outPayloadCookie => exact hcookie _
  all_goals decide

theorem trimThreshold_pos {p : Params} (h : p.wf = true) : 0 < p.trimThreshold := by
  simp only [Params.wf, Bool.and_eq_true, decide_eq_true_eq] at h
  tauto

/-- The servo leaves the windup below the threshold: it adds up to less, or starts again at 0 (spec/45_se0_trim.md R305). -/
theorem servo_windup {p : Params} (now : Word) {d : Dev} (osc : Word) (hp : 0 < p.trimThreshold)
    (h : -(p.trimThreshold : Int) < d.se0Windup.toInt ∧ d.se0Windup.toInt < p.trimThreshold) :
    -(p.trimThreshold : Int) < (servo p now d osc).1.se0Windup.toInt ∧ (servo p now d osc).1.se0Windup.toInt < p.trimThreshold := by
  have hzero : -(p.trimThreshold : Int) < (0 : Word).toInt ∧ (0 : Word).toInt < p.trimThreshold := by simp; omega
  simp only [servo]
  split
  · split
    · exact hzero
    split
    · exact hzero
    · exact ⟨Int.not_le.1 ‹_›, Int.not_le.1 ‹_›⟩
  · exact h

/-- No instruction spoils the registers. -/
theorem Effect.registersOk {s t : State} {i : Instr} (hs : RegistersOk s) (h : Effect s i t) : RegistersOk t := by
  cases h with
  | dropped => exact hs.of_eq rfl rfl rfl rfl
  | line _ hep hdev hmem hcfg => exact hs.of_eq (congrArg _ hep) hdev hmem hcfg
  | @keepalive s1 hdev hep _ _ hmem hcfg =>
    have hd := hdev.trans (servo_dev ..)
    refine ⟨hep ▸ hs.endpoints, ?_, ?_, hmem ▸ hs.mem, hcfg ▸ hs.params, ?_⟩
    · show s1.dev.currentEndpoint.toNat < s1.ep.length
      rw [hd, hep]; exact hs.current
    · show s1.dev.rebootArmed ≠ 3#2
      rw [hd]; exact hs.latch
    · show -(s1.cfg.trimThreshold : Int) < s1.dev.se0Windup.toInt ∧ s1.dev.se0Windup.toInt < s1.cfg.trimThreshold
      rw [hcfg, hdev]
      exact servo_windup _ _ (trimThreshold_pos hs.params) hs.windup
  | ack => exact hs.of_eq (by simp) rfl rfl rfl
  | duplicate => exact hs.of_eq rfl rfl rfl rfl
  | request => exact hs.rewrite rfl hs.current hs.latch rfl rfl rfl
  | payload => exact hs.of_eq rfl rfl rfl rfl
  | accept ha => exact hs.rewrite (by simp) hs.current (acceptArgs_latch ha) rfl rfl rfl
  | setup hg => exact hs.rewrite (by simp) hg.2.2 hs.latch rfl rfl rfl
  | out hg => exact hs.rewrite rfl hg.2.2 hs.latch rfl rfl rfl
  | fires _ hg => exact hs.rewrite rfl hg.2.2 hs.latch rfl rfl rfl
  | silent hg => exact hs.rewrite (by simp) (by simpa using hg.2.2) (by simpa using hs.latch) (by simp) (by simp) (by simp)
  | answers _ hg => exact hs.rewrite (by simp) (by simpa using hg.2.2) (by simpa using hs.latch) (by simp) (by simp) (by simp)
  | drains _ hg => exact hs.rewrite rfl hg.2.2 hs.latch rfl rfl rfl

/-! ## The invariant by the phase reached -/

/-- A state outside transmission: the driver is off and no `boot_reset()` is pending. -/
theorem inv_of_not_transmit {s : State} (h : RegistersOk s) (hp : s.rxPhase ≠ .transmit) (hoe : s.tx.oe = false)
    (hboot : s.tx.boot = false) (hhalt : s.halted = true → s.rxPhase = .idle)
    (hdata : s.rxPhase = .data → s.rx.ones ≤ STUFF_RUN ∧ RxOk s.pkt ∧ CrcTracks s.pkt)
    (hpkt : s.rxPhase = .dispatch → RxOk s.pkt ∧ CrcTracks s.pkt ∧ s.pkt.nbits % 8 = 0 ∧ 0 < s.pkt.nbits) : Inv s where
  endpoints := h.endpoints
  current := h.current
  latch := h.latch
  mem := h.mem
  driver := by simp [hoe, hp]
  txOnes := by simp [hoe]
  txBits := by simp [hoe]
  rxOnes := fun hd => (hdata hd).1
  rxData := fun hd => (hdata hd).2
  rxPacket := hpkt
  halted := hhalt
  boot := by simp [hboot]
  params := h.params
  windup := h.windup

theorem inv_of_idle {s : State} (h : RegistersOk s) (hp : s.rxPhase = .idle) (hoe : s.tx.oe = false)
    (hboot : s.tx.boot = false) : Inv s :=
  inv_of_not_transmit h (by simp [hp]) hoe hboot (fun _ => hp) (by simp [hp]) (by simp [hp])

/-- A transmission: the driver is on exactly if no `send` waits, and then within its bounds. -/
theorem inv_of_transmit {s : State} (h : RegistersOk s) (hp : s.rxPhase = .transmit) (hhalt : s.halted = false)
    (hoe : s.tx.oe = true ↔ s.tx.cmd = none) (hrun : s.tx.oe = true → s.tx.ones < STUFF_RUN ∧ s.tx.bits.length ≤ 88)
    (hboot : s.tx.boot = true → s.dev.rebootArmed = 2#2 ∧ s.dev.currentEndpoint = 0#4 ∧ ∃ tg, EmptyResponseQueued tg s) :
    Inv s where
  endpoints := h.endpoints
  current := h.current
  latch := h.latch
  mem := h.mem
  driver := by simp [hoe, hp]
  txOnes := fun ho => (hrun ho).1
  txBits := fun ho => (hrun ho).2
  rxOnes := by simp [hp]
  rxData := by simp [hp]
  rxPacket := by simp [hp]
  halted := by simp [hhalt]
  boot := fun hb => ⟨hp, hboot hb⟩
  params := h.params
  windup := h.windup

/-- A `send` called while none was pending a `boot_reset()`. -/
theorem inv_callSend {s : State} (h : RegistersOk s) (c : SendCmd) (hhalt : s.halted = false) (hoe : s.tx.oe = false)
    (hboot : s.tx.boot = false) : Inv (callSend c s) :=
  inv_of_transmit (h.of_eq rfl rfl rfl rfl) rfl hhalt (by simp [hoe]) (by simp [hoe]) (by simp [hboot])

/-- The place inside a transmission moves on: symbols are driven, bits are consumed (spec/40_transmit.md R122 to R124). -/
theorem Inv.transmit_moves {s : State} (h : Inv s) (hh : s.halted = false) (hp : s.rxPhase = .transmit) (hc : s.tx.cmd = none)
    (level : LineLevel) {ones : Nat} (synced : Bool) {bits : List Bool} (io : Io) (ho : ones < STUFF_RUN) (hb : bits <:+ s.tx.bits) :
    Inv { s with tx := { s.tx with level := level, ones := ones, synced := synced, bits := bits }, io := io } := by
  have hoe : s.tx.oe = true := h.driver.2 ⟨hp, hc⟩
  refine inv_of_transmit (h.registersOk.of_eq rfl rfl rfl rfl) hp hh (by simp [hoe, hc])
    (fun _ => ⟨ho, hb.length_le.trans (h.txBits hoe)⟩) fun hboot => ?_
  obtain ⟨-, hlatch, hcur, tg, hq⟩ := h.boot hboot
  obtain hq | ⟨-, hq⟩ := hq
  · cases hc.symm.trans hq
  · exact ⟨hlatch, hcur, tg, .inr ⟨hc, hb.trans hq⟩⟩

theorem Inv.oe_of_not_transmit {s : State} (h : Inv s) (hp : s.rxPhase ≠ .transmit) : s.tx.oe = false :=
  Bool.eq_false_iff.2 fun ho => hp (h.driver.1 ho).1

theorem Inv.boot_of_not_transmit {s : State} (h : Inv s) (hp : s.rxPhase ≠ .transmit) : s.tx.boot = false :=
  Bool.eq_false_iff.2 fun hb => hp (h.boot hb).1

/-! ## The step by the phase it starts in -/

/-- The transmit unit fetches nothing that is dropped. -/
theorem rxPhase_of_decode_drop {s : State} {c : Cause} (h : decode (fetch s) = .error (.drop c)) : s.rxPhase ≠ .transmit := by
  intro hp
  simp only [fetch, hp] at h
  split at h
  · simp only [decode, decodeSend] at h
    split at h
    · split at h <;> cases h
    · split at h
      · split at h <;> cases h
      · cases h
  · split at h
    · split at h
      · rw [decode, decodeLine_nrziSymbol] at h; cases h
      · cases h
    · cases h

theorem inv_resetEngine {s : State} (h : Inv s) : Inv (resetEngine s) := by
  have hlen : (resetEngine s).ep.length = s.ep.length := by simp [initEndpoints]
  have hthr := trimThreshold_pos h.params
  refine inv_of_idle ⟨hlen ▸ h.endpoints, ?_, (by decide : 0#2 ≠ 3#2), h.mem, h.params, ?_⟩ rfl rfl rfl
  · rw [hlen]; exact h.endpoints.1
  · simp [Dev.reset]; omega

/-- The invariant says nothing of the interfaces. -/
theorem Inv.with_io {s : State} (h : Inv s) (io : Io) : Inv { s with io := io } :=
  ⟨h.endpoints, h.current, h.latch, h.mem, h.driver, h.txOnes, h.txBits, h.rxOnes, h.rxData, h.rxPacket, h.halted, h.boot,
    h.params, h.windup⟩

/-- Outside transmission only the line is moved past. -/
theorem advance_of_not_transmit {s : State} (hp : s.rxPhase ≠ .transmit) : ∃ io, advance s = { s with io := io } := by
  simp only [advance]
  split
  · exact ⟨_, rfl⟩
  · exact ⟨_, rfl⟩
  · exact ⟨_, rfl⟩
  · exact ⟨_, rfl⟩
  · exact absurd ‹_› hp

theorem inv_idleStep {s : State} (h : Inv s) (hh : s.halted = false) (hp : s.rxPhase = .idle) : Inv (idleStep s) := by
  rw [idleStep]
  split
  · exact h
  · rename_i ev later _
    have hregs : RegistersOk (enterInvocation ev later s) :=
      ⟨h.endpoints, h.current, h.latch, memWrites_wf _ _ h.mem, h.params, h.windup⟩
    have hboot := h.boot_of_not_transmit (by simp [hp])
    exact inv_of_not_transmit hregs (by simp) rfl hboot (by simp [hh]) (by simp) (by simp)

/-- A drop ends the invocation. -/
theorem inv_endInvocation {s : State} (h : Inv s) (hp : s.rxPhase ≠ .transmit) : Inv (endInvocation s) :=
  inv_of_idle (h.registersOk.of_eq rfl rfl rfl rfl) rfl rfl (h.boot_of_not_transmit hp)

/-- A handler leaves the invocation ended, a `send` waiting, or the payload to be looked at. -/
theorem inv_handler {s t : State} {i : Instr} (h : Inv s) (hh : s.halted = false) (hp : s.rxPhase ≠ .transmit)
    (hpkt : RxOk s.pkt ∧ CrcTracks s.pkt ∧ s.pkt.nbits % 8 = 0 ∧ 0 < s.pkt.nbits)
    (hi : lineOrSend i = false) (he : Effect s i t) : Inv t := by
  have hoe := h.oe_of_not_transmit hp
  have hboot := h.boot_of_not_transmit hp
  have hs := h.registersOk
  have ht := he.registersOk hs
  cases he with
  | dropped | ack | setup | out => exact inv_of_idle ht rfl rfl hboot
  | line hl => exact absurd hl (by simp [hi])
  | keepalive _ _ htx => exact inv_of_idle ht rfl rfl (by simpa [htx] using hboot)
  | duplicate => exact inv_callSend hs _ hh hoe hboot
  | request | payload => exact inv_of_not_transmit ht (by simp) hoe hboot (by simp [hh]) (by simp) fun _ => hpkt
  | accept => exact inv_of_transmit ht rfl hh (by simp [hoe]) (by simp [hoe]) (by simp [hboot])
  | fires tg hg hl => exact inv_of_transmit ht rfl hh (by simp [hoe]) (by simp [hoe]) fun _ => ⟨hl, rfl, tg, .inl rfl⟩
  | silent => exact inv_of_idle ht rfl rfl (by simpa using hboot)
  | answers => exact inv_of_transmit ht rfl (by simpa using hh) (by simp [hoe]) (by simp [hoe]) (by simp [hboot])
  | drains => exact inv_of_transmit ht rfl hh (by simp [hoe]) (by simp [hoe]) (by simp [hboot])

/-- What the dispatcher decodes is no line symbol and no `send`. -/
theorem lineOrSend_of_dispatch {s : State} {i : Instr} (hp : s.rxPhase = .dispatch) (hd : decode (fetch s) = .ok i) :
    lineOrSend i = false := by
  simp only [fetch, hp] at hd
  split at hd
  · obtain rfl | ⟨_, _, rfl⟩ | ⟨_, _, rfl⟩ | ⟨_, _, _, rfl⟩ | ⟨_, _, _, rfl⟩ | ⟨_, _, _, rfl⟩ | ⟨_, _, rfl⟩ := decodePacket_ok hd <;> rfl
  · obtain ⟨_, _, _, _, rfl⟩ | ⟨_, _, _, _, rfl⟩ | ⟨_, _, rfl⟩ | ⟨_, _, _, _, _, rfl⟩ := decodeUrb_ok hd <;> rfl
  · obtain rfl | rfl := decodePayload_ok hd <;> rfl

/-- SYNC received: the packet record starts anew. -/
theorem inv_rxSync {s : State} (h : Inv s) (hh : s.halted = false) (hp : s.rxPhase ≠ .transmit) : Inv (rxSync s) :=
  inv_of_not_transmit (h.registersOk.of_eq rfl rfl rfl rfl) (by simp) (h.oe_of_not_transmit hp) (h.boot_of_not_transmit hp)
    (by simp [hh]) (fun _ => ⟨(by decide : 1 ≤ STUFF_RUN), .start _, .start _⟩) (by simp)

/-- A bit received is dropped with its packet, unstuffed, or stored. -/
theorem inv_rxBit {s t : State} {b : Bool} (h : Inv s) (hh : s.halted = false) (hp : s.rxPhase = .data)
    (hb : rxBit b s = .next t) : Inv t := by
  have hnt : s.rxPhase ≠ .transmit := by simp [hp]
  have hdata : ∀ rx pkt, rx.ones ≤ STUFF_RUN ∧ RxOk pkt ∧ CrcTracks pkt → Inv { s with rx := rx, pkt := pkt } := fun _ _ hok =>
    inv_of_not_transmit (h.registersOk.of_eq rfl rfl rfl rfl) hnt (h.oe_of_not_transmit hnt) (h.boot_of_not_transmit hnt)
      (by simp [hh]) (fun _ => hok) (by simp [hp])
  obtain ⟨hrx, hcrc⟩ := h.rxData hp
  obtain rfl | ⟨-, -, rfl⟩ | ⟨hne, hcap, rfl⟩ := rxBit_next hb
  · exact inv_endInvocation h hnt
  · exact hdata _ s.pkt ⟨Nat.zero_le _, hrx, hcrc⟩
  · have hones : (if b then s.rx.ones + 1 else 0) ≤ STUFF_RUN := by
      have := Nat.lt_of_le_of_ne (h.rxOnes hp) hne
      split <;> omega
    exact hdata _ _ ⟨hones, hrx.push (Nat.lt_of_le_of_ne hrx.cap hcap) b, hcrc.push hrx b⟩

/-- The end of packet received leads to the dispatcher with a whole number of bytes. -/
theorem inv_rxEop {s t : State} (h : Inv s) (hh : s.halted = false) (hp : s.rxPhase = .data) (he : rxEop s = .next t) : Inv t := by
  have hnt : s.rxPhase ≠ .transmit := by simp [hp]
  obtain ⟨hrx, hcrc⟩ := h.rxData hp
  obtain rfl | ⟨h0, h8, rfl⟩ := rxEop_next he
  · exact inv_endInvocation h hnt
  · exact inv_of_not_transmit (h.registersOk.of_eq rfl rfl rfl rfl) (by simp) (h.oe_of_not_transmit hnt) (h.boot_of_not_transmit hnt)
      (by simp [hh]) (by simp) fun _ => ⟨hrx, hcrc, h8, Nat.pos_of_ne_zero h0⟩

theorem inv_keepalive {s t : State} (h : Inv s) (hp : s.rxPhase ≠ .transmit) (he : exec .keepalive s = .next t) : Inv t := by
  have hregs := (exec_effect he).registersOk h.registersOk
  have hboot := h.boot_of_not_transmit hp
  obtain ⟨-, heq⟩ | ⟨dir, -, heq⟩ := execKeepalive_cases s <;> cases heq.symm.trans he <;> exact inv_of_idle hregs rfl rfl hboot

/-- A step of reception or of the dispatcher: what it runs, it runs on a state that differs from `s` in the interfaces alone. -/
theorem inv_exec_receiving {s t : State} {i : Instr} (h : Inv s) (hh : s.halted = false) (hi : s.rxPhase ≠ .idle)
    (hp : s.rxPhase ≠ .transmit) (hd : decode (fetch s) = .ok i) (he : exec i (advance s) = .next t) : Inv t := by
  obtain ⟨io, ha⟩ := advance_of_not_transmit hp
  rw [ha] at he
  have h' := h.with_io io
  cases hph : s.rxPhase with
  | idle => exact absurd hph hi
  | transmit => exact absurd hph hp
  | dispatch => exact inv_handler h' hh hp (h.rxPacket hph) (lineOrSend_of_dispatch hph hd) (exec_effect he)
  | preamble =>
    simp only [fetch, hph] at hd
    obtain rfl | rfl := matchPreamble_ok hd
    · rw [exec_sync, if_neg (by exact hp)] at he
      cases he
      exact inv_rxSync h' hh hp
    · exact inv_keepalive h' hp he
  | data =>
    simp only [fetch, hph] at hd
    have hbit : ∀ b, exec (bitInstr b) { s with io := io } = .next t → Inv t := fun b hb => by
      rw [exec_bitInstr, if_neg (by exact hp)] at hb
      exact inv_rxBit h' hh hph hb
    obtain rfl | rfl | rfl := decodeLine_ok hd
    · rw [exec_eop, if_neg (by exact hp)] at he
      exact inv_rxEop h' hh hph he
    · exact hbit false he
    · exact hbit true he

/-- A waiting `send` is loaded: at most 11 bytes, and behind a pending `boot_reset()` the empty response. -/
theorem inv_loadTx {s : State} {c : SendCmd} {bytes : List Byte} (h : Inv s) (hh : s.halted = false) (hc : s.tx.cmd = some c)
    (hlen : bytes.length ≤ 11) (hempty : ∀ tg, c = ⟨dataPid tg, s.cfg.zero2, 2, 0#8⟩ → bytes = [dataPid tg, 0x00#8, 0x00#8]) :
    Inv (loadTx bytes { s with tx := { s.tx with cmd := none } }) := by
  refine inv_of_transmit (h.registersOk.of_eq rfl rfl rfl rfl) rfl hh (by simp)
    (fun _ => ⟨(by decide : 0 < STUFF_RUN), by simp; omega⟩) fun hboot => ?_
  obtain ⟨-, hlatch, hcur, tg, hq | ⟨hq, -⟩⟩ := h.boot hboot
  · obtain rfl := hempty tg (Option.some.inj (hc.symm.trans hq))
    exact ⟨hlatch, hcur, tg, .inr ⟨rfl, List.suffix_refl _⟩⟩
  · cases hc.symm.trans hq

/-- The transmit unit takes up the waiting `send`. -/
theorem inv_exec_send {s t : State} {i : Instr} {c : SendCmd} (h : Inv s) (hh : s.halted = false) (hp : s.rxPhase = .transmit)
    (hc : s.tx.cmd = some c) (hd : decode (fetch s) = .ok i) (he : exec i (advance s) = .next t) : Inv t := by
  rw [show advance s = { s with tx := { s.tx with cmd := none } } by simp [advance, hp, hc]] at he
  simp only [fetch, hp, hc] at hd
  obtain ⟨hlen, rfl | rfl⟩ := decodeSend_ok hd
  · simp only [exec, execSendNoCrc, hlen, if_true] at he
    cases he
    simp only [MAX_PAYLOAD, hardware_maxPayload] at hlen
    refine inv_loadTx h hh hc (by simp [txBytesNoCrc]; omega) ?_
    rintro tg rfl
    exact congrArg (txBytesNoCrc (dataPid tg)) (sourceReadN_zero2 { s with tx := { s.tx with cmd := none } })
  · simp only [exec, execSendCrc16, hlen, if_true] at he
    cases he
    simp only [MAX_PAYLOAD, hardware_maxPayload] at hlen
    refine inv_loadTx h hh hc (by simp [txBytesCrc16]; omega) ?_
    rintro tg rfl
    cases hd

/-- The end of packet ends the invocation, or halts the engine too. -/
theorem inv_txEop {s : State} (h : RegistersOk s) : Inv (txEop s) := by
  rw [txEop]
  split <;> exact inv_of_idle (h.of_eq rfl rfl rfl rfl) rfl rfl rfl

/-- A step of a transmission in progress. -/
theorem inv_step_driving {s t : State} (h : Inv s) (hr : s.io.rst = false) (hh : s.halted = false) (hp : s.rxPhase = .transmit)
    (hc : s.tx.cmd = none) (hst : step s = .next t) : Inv t := by
  have hones : s.tx.ones < STUFF_RUN := h.txOnes (h.driver.2 ⟨hp, hc⟩)
  cases hy : s.tx.synced with
  | false =>
    have hd : decode (fetch s) = .ok .sync := by simp only [fetch, hp, hc, hy]; rfl
    have ha : advance s = { s with tx := { s.tx with synced := true } } := by simp [advance, hp, hc, hy]
    rw [step_of_decode ⟨hr, hh, by simp [hp]⟩ hd, ha, exec_sync, if_pos (by exact hp)] at hst
    cases hst
    obtain ⟨l, k, more, heq, hk, -⟩ := txBits_eq (byteBits 0x80#8) { s with tx := { s.tx with synced := true } }
    rw [txSync, heq]
    exact h.transmit_moves hh hp hc _ _ _ (hk hones) (List.suffix_refl _)
  | true =>
    cases hb : s.tx.bits with
    | nil =>
      cases (step_txEop hr hh hp hc hy hb).symm.trans hst
      exact inv_txEop h.registersOk
    | cons b bs =>
      cases (step_txBit hr hh hp hc hy hb).symm.trans hst
      obtain ⟨l, k, more, heq, hk, -⟩ := txBit_eq b { s with tx := { s.tx with bits := bs } }
      rw [heq]
      exact h.transmit_moves hh hp hc _ _ _ (hk hones) (hb ▸ List.suffix_cons b bs)

/-- Settles O47, by the phase the step starts in. -/
theorem stepKeepsTheInvariant : Obligations.StepKeepsTheInvariant := by
  intro s t h hst
  obtain ⟨-, rfl⟩ | ⟨-, -, rfl⟩ | ⟨-, hh, hp, rfl⟩ | ⟨-, -, -, c, hd, rfl⟩ | ⟨hr, hh, hi, i, hd, he⟩ := step_cases hst
  · exact inv_resetEngine h
  · exact h.with_io _
  · exact inv_idleStep h hh hp
  · have hp := rxPhase_of_decode_drop hd
    obtain ⟨io, ha⟩ := advance_of_not_transmit hp
    exact ha ▸ inv_endInvocation (h.with_io io) hp
  · by_cases hp : s.rxPhase = .transmit
    · cases hc : s.tx.cmd with
      | some c => exact inv_exec_send h hh hp hc hd he
      | none => exact inv_step_driving h hr hh hp hc hst
    · exact inv_exec_receiving h hh hi hp hd he

/-- The reset state's registers, with its free parameters within their constraints. -/
theorem registersOk_reset : RegistersOk State.reset where
  endpoints := by decide
  current := by decide
  latch := by decide
  mem := reset_mem_wf
  params := reset_wf
  windup := by
    have := trimThreshold_pos reset_wf
    simp only [State.reset, Dev.reset]
    simp; omega

/-- Settles O48: the engine is idle and the registers are right. -/
theorem resetMeetsTheInvariant : Obligations.ResetMeetsTheInvariant :=
  inv_of_idle registersOk_reset rfl rfl rfl

/-- Settles O2, each value read off the definition of the reset state. -/
theorem resetStateHoldsTheTable : Obligations.ResetStateHoldsTheTable :=
  ⟨rfl, rfl, rfl, rfl, rfl⟩

end Sys2Proof.Machine
end

section
/-! PROOFS. The writers of the device state and of the endpoint file. -/

namespace Sys2Proof.Machine

open Config

theorem crc16Good_eq_true (p : Pkt) : crc16Good p = true ↔ p.crc = 0xB001#16 := by
  simp [crc16Good, CRC16_RESIDUAL]

/-! ## The device state -/

/-- Only SET_ADDRESS brings an address of its own (spec/44_endpoint.md R256). -/
theorem acceptArgs_addr {s : State} {i : Instr} {write : EpEntry → EpEntry} {addr : BitVec 16} {latch : BitVec 2}
    (h : acceptArgs s i = some (write, addr, latch)) : addr = s.dev.myAddress ∨ ∃ r x l, i = .setAddress r addr x l := by
  cases i <;> cases h
  case setAddress r x l => exact .inr ⟨r, x, l, rfl⟩
  all_goals exact .inl rfl

/-- The device state after an instruction, by its writer. -/
theorem Effect.dev_cases {s t : State} {i : Instr} (h : Effect s i t) :
    t.dev = s.dev ∨
    (i = .keepalive ∧ ∃ last delta windup, t.dev = { s.dev with lastSe0 := last, deltaSe0 := delta, se0Windup := windup }) ∨
    (∃ write addr latch, acceptArgs s i = some (write, addr, latch) ∧ t.dev = { s.dev with myAddress := addr, rebootArmed := latch }) ∨
    (∃ tg payload crc, i = dataInstr tg payload crc ∧ payload.length = 8 ∧ crc16Good s.pkt = true ∧
      t.dev = { s.dev with setupRequest := false }) ∨
    (∃ (k : TokenKind) (addr : BitVec 7) (endp : BitVec 4) (crc : BitVec 5), i = k.instr addr endp crc ∧ TokenGood addr endp crc s ∧
      t.dev = { s.dev with currentEndpoint := endp, setupRequest := if k = .setup then true else s.dev.setupRequest }) := by
  cases h with
  | dropped | ack | duplicate | payload => exact .inl rfl
  | line _ _ hdev => exact .inl hdev
  | keepalive hdev => exact .inr (.inl ⟨rfl, _, _, _, hdev.trans (servo_dev ..)⟩)
  | accept ha => exact .inr (.inr (.inl ⟨_, _, _, ha, rfl⟩))
  | request tg crc hcrc _ hn => exact .inr (.inr (.inr (.inl ⟨tg, _, crc, rfl, hn, hcrc, rfl⟩)))
  | setup hg => exact .inr (.inr (.inr (.inr ⟨.setup, _, _, _, rfl, hg, rfl⟩)))
  | out hg => exact .inr (.inr (.inr (.inr ⟨.outTok, _, _, _, rfl, hg, rfl⟩)))
  | fires _ hg | silent hg | answers _ hg | drains _ hg => exact .inr (.inr (.inr (.inr ⟨.inTok, _, _, _, rfl, hg, by simp⟩)))

/-- Settles O54: each writer of the device state leaves the registers that are not its own. -/
theorem deviceRegistersHaveNoOtherWriters : Obligations.DeviceRegistersHaveNoOtherWriters := by
  intro i s t h
  obtain hd | ⟨rfl, _, _, _, hd⟩ | ⟨_, addr, _, ha, hd⟩ | ⟨tg, payload, crc, rfl, hn, hcrc, hd⟩ | ⟨k, addr, endp, crc, rfl, hg, hd⟩ :=
    (exec_effect h).dev_cases
  · simp +contextual [hd]
  · simp +contextual [hd]
  · obtain rfl | ⟨r, x, l, rfl⟩ := acceptArgs_addr ha
    · simp +contextual [hd]
    · exact ⟨fun _ => ⟨r, addr, x, l, rfl, by rw [hd]⟩, by simp +contextual [hd]⟩
  · exact ⟨by simp [hd], by simp [hd], by simp [hd],
      fun _ _ => ⟨tg, payload, crc, rfl, hn, (crc16Good_eq_true _).1 hcrc⟩, by simp [hd]⟩
  · refine ⟨by simp [hd], fun _ => ⟨k, addr, endp, crc, rfl, hg, by rw [hd]⟩, ?_, by simp +contextual [hd], by simp [hd]⟩
    cases k with
    | setup => exact fun _ _ => ⟨addr, endp, crc, rfl, hg⟩
    | inTok | outTok => simp +contextual [hd]

/-! ## The endpoint file -/

/-- After one entry is written, an entry that has changed is that one. -/
theorem endpoint?_set (s t : State) {n j : Nat} {e : EpEntry} (h : t.ep = s.ep.set n e) (hj : t.endpoint? j ≠ s.endpoint? j) :
    j = n ∧ t.endpoint? j = some e := by
  simp only [State.endpoint?, h, List.getElem?_set] at hj ⊢
  split at hj
  · split at hj <;> simp_all
  · exact absurd rfl hj

/-- The instructions that are accepted. -/
theorem instr_of_acceptArgs {s : State} {i : Instr} {args : (EpEntry → EpEntry) × BitVec 16 × BitVec 2} (h : acceptArgs s i = some args) :
    (∃ r v x l, i = .getDescriptor r v x l) ∨ (∃ r v x l, i = .setAddress r v x l) ∨ (∃ r l, i = .setReportBoot r l) ∨
      (∃ rt rq v x l, i = .unrecognisedRequest rt rq v x l) ∨ i = .outPayloadCookie ∨ ∃ p, i = .outPayloadOther p := by
  cases i <;> cases h
  case getDescriptor => exact .inl ⟨_, _, _, _, rfl⟩
  case setAddress => exact .inr (.inl ⟨_, _, _, _, rfl⟩)
  case setReportBoot => exact .inr (.inr (.inl ⟨_, _, rfl⟩))
  case unrecognisedRequest => exact .inr (.inr (.inr (.inl ⟨_, _, _, _, _, rfl⟩)))
  case outPayloadCookie => exact .inr (.inr (.inr (.inr (.inl rfl))))
  case outPayloadOther => exact .inr (.inr (.inr (.inr (.inr ⟨_, rfl⟩))))

/-- Who may write the entry `n` of the endpoint file, and what: the handlers of the current entry, SETUP, and the callback. -/
inductive EntryWriter (s : State) : Instr → Nat → EpEntry → Prop
  | ack {e} (he : s.currentEp? = some e) : EntryWriter s .ack s.dev.currentEndpoint.toNat (ackEntry e)
  | accept {i args} (e) (ha : acceptArgs s i = some args) : EntryWriter s i s.dev.currentEndpoint.toNat e
  | setup {addr endp crc} (e) (hg : TokenGood addr endp crc s) : EntryWriter s (.setup addr endp crc) endp.toNat e
  | callback {addr endp crc e e'} (hg : TokenGood addr endp crc s) (he : s.endpoint? endp.toNat = some e)
      (hc : CallbackCalled endp e s) (hu : s.io.userIn.entry = some e') : EntryWriter s (.inTok addr endp crc) endp.toNat e'

/-- The endpoint file after an instruction: as before, or one entry written. -/
theorem Effect.ep_cases {s t : State} {i : Instr} (h : Effect s i t) :
    t.ep = s.ep ∨ ∃ n e, t.ep = s.ep.set n e ∧ EntryWriter s i n e := by
  cases h with
  | dropped | duplicate | payload | request | out | fires | drains => exact .inl rfl
  | line _ hep => exact .inl hep
  | keepalive _ hep => exact .inl hep
  | ack he => exact .inr ⟨_, _, rfl, .ack he⟩
  | accept ha => exact .inr ⟨_, _, rfl, .accept _ ha⟩
  | setup hg => exact .inr ⟨_, _, rfl, .setup _ hg⟩
  | @silent _ endp _ _ hg he hc | @answers _ endp _ _ _ hg he hc =>
    have hep := withCallback_ep endp (selectEndpoint endp s)
    cases hu : s.io.userIn.entry with
    | none => exact .inl (by simpa [hu] using hep)
    | some e' => exact .inr ⟨_, e', by simpa [hu] using hep, .callback hg he hc hu⟩

/-- Settles O55: the entry that has changed is its writer's. -/
theorem endpointFileHasNoOtherWriters : Obligations.EndpointFileHasNoOtherWriters := by
  intro i s t j h
  obtain hep | ⟨n, e, hep, hw⟩ := (exec_effect h).ep_cases
  · simp [State.endpoint?, hep]
  refine ⟨by simp [hep], fun hj => ?_, ?_⟩
  · obtain ⟨rfl, hj⟩ := endpoint?_set s t hep hj
    cases hw with
    | ack => exact .inl ⟨rfl, .inl rfl⟩
    | accept _ ha => exact .inl ⟨rfl, .inr (instr_of_acceptArgs ha)⟩
    | setup _ hg => exact .inr ⟨_, _, _, rfl, hg, .inl rfl⟩
    | callback hg he hc hu => exact .inr ⟨_, _, _, rfl, hg, .inr ⟨rfl, hj.trans hu.symm, _, he, hc⟩⟩
  · rintro rfl
    by_cases hj : t.endpoint? j = s.endpoint? j
    · rw [hj]
    obtain ⟨rfl, hj⟩ := endpoint?_set s t hep hj
    cases hw with
    | ack he =>
      rw [hj, show s.endpoint? s.dev.currentEndpoint.toNat = _ from he]; rfl
    | accept _ ha => cases ha

end Sys2Proof.Machine
end

section
/-! PROOFS. When an instruction faults, and that no step from the invariant does. -/

namespace Sys2Proof.Machine

open Config

/-! ## Without the current entry -/

theorem acceptData_none {write : EpEntry → EpEntry} {addr : BitVec 16} {latch : BitVec 2} {s : State} (h : s.currentEp? = none) :
    acceptData write addr latch s = .fault .noEndpoint := by
  simp [acceptData, h]

theorem execAck_none {s : State} (h : s.currentEp? = none) : exec .ack s = .fault .noEndpoint := by
  simp [exec, execAck, h]

theorem handleData_none {pid : Byte} {n : Nat} {s : State} (hcrc : crc16Good s.pkt = true) (h : s.currentEp? = none) :
    handleData pid n s = .fault .noEndpoint := by
  simp [handleData, hcrc, h]

/-! ## What faults -/

theorem acceptData_fault {write : EpEntry → EpEntry} {addr : BitVec 16} {latch : BitVec 2} {s : State} {r : Fault}
    (h : acceptData write addr latch s = .fault r) : s.currentEp? = none := by
  cases he : s.currentEp? with
  | none => rfl
  | some e => rw [acceptData_some he] at h; cases h

theorem handleData_fault {pid : Byte} {n : Nat} {s : State} {r : Fault} (h : handleData pid n s = .fault r) :
    crc16Good s.pkt = true ∧ s.currentEp? = none := by
  rw [handleData] at h
  split at h
  · cases he : s.currentEp? with
    | none => exact ⟨by assumption, rfl⟩
    | some e =>
      simp only [he] at h
      split at h
      · cases h
      split at h
      · split at h <;> cases h
      · cases h
  · cases h

theorem callUserIn_total (endp : BitVec 4) (tok : Byte) (s : State) : ∃ t, callUserIn endp tok s = .next t := by
  rw [callUserIn_eq]
  split <;> exact ⟨_, rfl⟩

theorem handleIn_total (endp : BitVec 4) (e : EpEntry) (s : State) : ∃ t, handleIn endp e s = .next t := by
  obtain ⟨-, heq⟩ | ⟨-, -, heq⟩ | ⟨-, -, heq⟩ := handleIn_cases endp e s <;> rw [heq]
  · exact ⟨_, rfl⟩
  · exact callUserIn_total ..
  · rw [drain]
    split <;> exact ⟨_, rfl⟩

/-- The instructions that act on the current entry: ACK, a data packet with a good CRC, and what is accepted. -/
def needsCurrent (s : State) (i : Instr) : Prop :=
  i = .ack ∨ (∃ tg payload crc, i = dataInstr tg payload crc ∧ crc16Good s.pkt = true) ∨ ∃ args, acceptArgs s i = some args

/-- They alone fault, and only when the entry is missing. -/
theorem exec_fault {i : Instr} {s : State} {r : Fault} (h : exec i s = .fault r) : needsCurrent s i ∧ s.currentEp? = none := by
  have total : (∃ t, exec i s = .next t) → needsCurrent s i ∧ s.currentEp? = none := fun ⟨t, ht⟩ => by cases ht.symm.trans h
  have accept : ∀ {args}, acceptArgs s i = some args → needsCurrent s i ∧ s.currentEp? = none := fun ha =>
    ⟨.inr (.inr ⟨_, ha⟩), acceptData_fault ((exec_eq_acceptData ha).symm.trans h)⟩
  have data : ∀ tg payload crc, i = dataInstr tg payload crc → needsCurrent s i ∧ s.currentEp? = none := by
    rintro tg payload crc rfl
    rw [exec_dataInstr] at h
    obtain ⟨hcrc, hnone⟩ := handleData_fault h
    exact ⟨.inr (.inl ⟨tg, payload, crc, rfl, hcrc⟩), hnone⟩
  have bit : ∀ b, ∃ t, exec (bitInstr b) s = .next t := fun b => by
    rw [exec_bitInstr]
    split
    · exact ⟨_, rfl⟩
    · exact rxBit_total b s
  cases i with
  | ack =>
    cases he : s.currentEp? with
    | none => exact ⟨.inl rfl, rfl⟩
    | some e => simp [exec, execAck, he] at h
  | data0 payload crc => exact data false payload crc rfl
  | data1 payload crc => exact data true payload crc rfl
  | inTok addr endp crc => exact total (dispatchToken_total _ _ _ _ _ fun e s => handleIn_total endp e s)
  | outTok addr endp crc => exact total (dispatchToken_total _ _ _ _ _ fun e s => ⟨_, rfl⟩)
  | setup addr endp crc => exact total (dispatchToken_total _ _ _ _ _ fun e s => ⟨_, rfl⟩)
  | unknownPid pid rest => exact total ⟨_, rfl⟩
  | getDescriptor r v x l => exact accept rfl
  | setAddress r v x l => exact accept rfl
  | setReportBoot r l => exact accept rfl
  | unrecognisedRequest rt rq v x l => exact accept rfl
  | outPayloadCookie => exact accept rfl
  | outPayloadOther p => exact accept rfl
  | sendNoCrc token ptr len =>
    simp only [exec, execSendNoCrc] at h
    split at h <;> cases h
  | sendCrc16 token ptr len =>
    simp only [exec, execSendCrc16] at h
    split at h <;> cases h
  | sync => exact total ⟨_, exec_sync s⟩
  | eop =>
    refine total ?_
    rw [exec_eop]
    split
    · exact ⟨_, rfl⟩
    · exact rxEop_total s
  | keepalive => exact total ⟨_, rfl⟩
  | bit0 => exact total (bit false)
  | bit1 => exact total (bit true)

/-- A step faults only where the instruction it runs does. -/
theorem step_fault {s : State} {r : Fault} (h : step s = .fault r) : ∃ i, exec i (advance s) = .fault r := by
  rw [step, stepWith] at h
  split at h
  · cases h
  split at h
  · cases h
  split at h
  · cases h
  split at h
  · exact ⟨_, h⟩
  · rename_i reject _
    cases reject <;> cases h

/-- The invariant excludes the fault (spec/10_state.md R31). -/
theorem Inv.noFault {s : State} (h : Inv s) : Out.noFault (step s) := by
  cases hst : step s with
  | next | refused => trivial
  | fault r =>
    obtain ⟨i, he⟩ := step_fault hst
    have hnone : (advance s).ep.length ≤ (advance s).dev.currentEndpoint.toNat := List.getElem?_eq_none_iff.1 (exec_fault he).2
    exact absurd h.registersOk.advance.current (Nat.not_lt.2 hnone)

/-- Settles O49: an instruction faults exactly if it acts on the current entry and the entry is missing. -/
theorem theOnlyFaultIsAMissingEndpoint : Obligations.TheOnlyFaultIsAMissingEndpoint := by
  refine ⟨fun s h => h.noFault, fun s hnone => ?_, fun i s r h => ?_⟩
  · have accept : ∀ {i args}, acceptArgs s i = some args → exec i s = .fault .noEndpoint := fun ha =>
      (exec_eq_acceptData ha).trans (acceptData_none hnone)
    refine ⟨execAck_none hnone, fun tg payload crc hcrc => ?_, fun r v x l => ⟨accept rfl, accept rfl⟩, fun r l => accept rfl,
      fun rt rq v x l => accept rfl, accept rfl, fun p => accept rfl⟩
    rw [exec_dataInstr, handleData_none ((crc16Good_eq_true _).2 hcrc) hnone]
  · obtain ⟨hi, hnone⟩ := exec_fault h
    refine ⟨by cases r; rfl, hnone, ?_⟩
    obtain hack | ⟨tg, payload, crc, hdata, hcrc⟩ | ⟨args, ha⟩ := hi
    · exact .inl hack
    · exact .inr (.inl ⟨tg, payload, crc, hdata, (crc16Good_eq_true _).1 hcrc⟩)
    · exact .inr (.inr (instr_of_acceptArgs ha))

end Sys2Proof.Machine
end

section
/-! PROOFS. What a step fetches and runs, and that it reads nothing of what has been put out. -/

namespace Sys2Proof.Machine

open Config

/-! ## What each place fetches -/

theorem step_of_reject {s : State} (h : Running s) {r : Reject} (hd : decode (fetch s) = .error r) :
    step s = rejected r (advance s) := by
  obtain ⟨hrst, hhalt, hidle⟩ := h
  simp [step, stepWith, hrst, hhalt, hidle, hd]

theorem pktPayload_of_buf {p : Pkt} {pid lo hi : Byte} {payload : List Byte} (h : p.buf = pid :: (payload ++ [lo, hi])) :
    pktPayload p = payload := by
  simp [pktPayload, h]

/-- With nothing left to drive there is nothing to move past. -/
theorem advance_at_eop {s : State} (hp : s.rxPhase = .transmit) (hc : s.tx.cmd = none) (hy : s.tx.synced = true) (hb : s.tx.bits = []) :
    advance s = s := by
  have hdrop : s.tx.bits.drop 1 = s.tx.bits := by rw [hb]; rfl
  simp only [advance, hp, hc, hy, hdrop, if_true]
  rw [← hy, ← hc, ← hp]

/-- Settles O1, phase by phase from the definitions of `fetch` and `advance`. -/
theorem stepRunsTheDecodedInstruction : Obligations.StepRunsTheDecodedInstruction := by
  intro s hr
  refine ⟨fun i hd => step_of_decode hr hd, fun r hd => step_of_reject hr hd, fun hp => ?_, fun hp => ?_, fun hp => ?_, fun hp => ?_⟩
  · simp [fetch, advance, hp, PREAMBLE_MIN]
  · simp [fetch, advance, hp]
  · refine ⟨by simp [advance, hp], fun hs => by simp [fetch, hp, hs], fun pid payload lo hi hbuf => ⟨fun hs => ?_, fun hs => ?_⟩⟩
    · simp [fetch, hp, hs, pktPayload_of_buf hbuf]
    · simp [fetch, hp, hs, pktPayload_of_buf hbuf]
  · refine ⟨fun c hc => by simp [fetch, advance, hp, hc], fun hc hy => ?_, fun hc hy b rest hb => ?_, fun hc hy hb => ?_⟩
    · simp [fetch, advance, hp, hc, hy, syncPattern]
    · simp only [fetch, advance, hp, hc, hy, hb, if_true]
      exact ⟨rfl, rfl⟩
    · exact ⟨by simp [fetch, hp, hc, hy, hb], advance_at_eop hp hc hy hb⟩

/-! ## Nothing reads what has been put out
Each operation commutes with `withEarlierOut`: what it tests and reads is the same field of both states, by definition, so once the
change is moved into the branches (`apply_ite`) the two sides are equal by `rfl`; only the operations that put something out need
associativity of `++`. -/

section EarlierOut

variable (earlier : List Output)

@[simp] theorem withEarlierOut_dev (s : State) : (withEarlierOut earlier s).dev = s.dev := rfl
@[simp] theorem withEarlierOut_tx (s : State) : (withEarlierOut earlier s).tx = s.tx := rfl
@[simp] theorem withEarlierOut_rxPhase (s : State) : (withEarlierOut earlier s).rxPhase = s.rxPhase := rfl
@[simp] theorem withEarlierOut_halted (s : State) : (withEarlierOut earlier s).halted = s.halted := rfl

theorem drive_withEarlierOut (s : State) (syms : List LineSymbol) :
    drive (withEarlierOut earlier s) syms = withEarlierOut earlier (drive s syms) := by
  simp [drive, withEarlierOut]

theorem writeOscCtl_withEarlierOut (s : State) (v : Word) :
    writeOscCtl (withEarlierOut earlier s) v = withEarlierOut earlier (writeOscCtl s v) := by
  simp [writeOscCtl, withEarlierOut]

theorem bootReset_withEarlierOut (s : State) : bootReset (withEarlierOut earlier s) = withEarlierOut earlier (bootReset s) := by
  simp [bootReset, withEarlierOut]

theorem loadTx_withEarlierOut (bytes : List Byte) (s : State) :
    loadTx bytes (withEarlierOut earlier s) = withEarlierOut earlier (loadTx bytes s) := by
  simp [loadTx, passGap, withEarlierOut]

theorem txSymbol_withEarlierOut (b : Bool) (s : State) :
    txSymbol b (withEarlierOut earlier s) = withEarlierOut earlier (txSymbol b s) :=
  drive_withEarlierOut earlier { s with tx := { s.tx with level := levelAfter s.tx.level b } } [(levelAfter s.tx.level b).sym]

theorem txBit_withEarlierOut (b : Bool) (s : State) :
    txBit b (withEarlierOut earlier s) = withEarlierOut earlier (txBit b s) := by
  simp only [txBit, txSymbol_withEarlierOut, apply_ite (withEarlierOut earlier)]
  rfl

theorem txSync_withEarlierOut (s : State) : txSync (withEarlierOut earlier s) = withEarlierOut earlier (txSync s) := by
  simp only [txSync]
  induction byteBits 0x80#8 generalizing s with
  | nil => rfl
  | cons b bits ih => rw [List.foldl_cons, List.foldl_cons, txBit_withEarlierOut, ih]

theorem txEop_withEarlierOut (s : State) : txEop (withEarlierOut earlier s) = withEarlierOut earlier (txEop s) := by
  simp only [txEop, drive_withEarlierOut, bootReset_withEarlierOut, withEarlierOut_tx]
  split <;> rfl

theorem writesScratch_withEarlierOut (ws : List (Fin PACKET_BUF_CAP × Byte)) (s : State) :
    writesScratch (withEarlierOut earlier s) ws = withEarlierOut earlier (writesScratch s ws) := by
  induction ws generalizing s with
  | nil => rfl
  | cons w ws ih => exact ih (writeScratch s w)

theorem withCallback_withEarlierOut (endp : BitVec 4) (s : State) :
    withCallback endp (withEarlierOut earlier s) = withEarlierOut earlier (withCallback endp s) := by
  have hu : (withEarlierOut earlier s).io.userIn = s.io.userIn := rfl
  simp only [withCallback, hu, ← writesScratch_withEarlierOut]
  cases s.io.userIn.entry <;> rfl

theorem advance_withEarlierOut (s : State) : advance (withEarlierOut earlier s) = withEarlierOut earlier (advance s) := by
  simp only [advance, withEarlierOut_rxPhase, withEarlierOut_tx]
  split
  · rfl
  · rfl
  · rfl
  · rfl
  · split
    · rfl
    · rw [apply_ite (withEarlierOut earlier)]; rfl

/-! ### The meanings -/

theorem handleIn_withEarlierOut (endp : BitVec 4) (e : EpEntry) (s : State) :
    handleIn endp e (withEarlierOut earlier s) = Out.map (withEarlierOut earlier) (handleIn endp e s) := by
  obtain ⟨hl, -⟩ | ⟨hl, hc, -⟩ | ⟨hl, hc, -⟩ := handleIn_cases endp e s
  · simp only [handleIn, withEarlierOut_dev, hl, if_true]; rfl
  · have hu : ∀ s, (withEarlierOut earlier s).io.userIn = s.io.userIn := fun _ => rfl
    have hd : ∀ d, setDev (withEarlierOut earlier s) d = withEarlierOut earlier (setDev s d) := fun _ => rfl
    simp only [handleIn, withEarlierOut_dev, hl, hc, if_true, if_false, Bool.false_eq_true, callUserIn_eq, hd, hu,
      withCallback_withEarlierOut]
    split <;> rfl
  · simp only [handleIn, withEarlierOut_dev, hl, hc, if_false, Bool.false_eq_true, drain]
    split <;> rfl

theorem dispatchToken_withEarlierOut (addr : BitVec 7) (endp : BitVec 4) (crc : BitVec 5) (s : State) {handler : EpEntry → State → Out}
    (hh : ∀ e, handler e (withEarlierOut earlier s) = Out.map (withEarlierOut earlier) (handler e s)) :
    dispatchToken addr endp crc (withEarlierOut earlier s) handler =
      Out.map (withEarlierOut earlier) (dispatchToken addr endp crc s handler) := by
  have hf : tokenFault addr endp crc (withEarlierOut earlier s) = tokenFault addr endp crc s := rfl
  have he : (withEarlierOut earlier s).endpoint? endp.toNat = s.endpoint? endp.toNat := rfl
  simp only [dispatchToken, hf, he]
  split
  · rfl
  · split
    · exact hh _
    · rfl

theorem currentEp?_withEarlierOut (s : State) : (withEarlierOut earlier s).currentEp? = s.currentEp? := rfl

theorem handleData_withEarlierOut (pid : Byte) (n : Nat) (s : State) :
    handleData pid n (withEarlierOut earlier s) = Out.map (withEarlierOut earlier) (handleData pid n s) := by
  simp only [handleData, currentEp?_withEarlierOut]
  cases s.currentEp? with
  | none => rw [apply_ite (Out.map _)]; rfl
  | some e => simp only [apply_ite (Out.map _)]; rfl

theorem acceptData_withEarlierOut (write : EpEntry → EpEntry) (addr : BitVec 16) (latch : BitVec 2) (s : State) :
    acceptData write addr latch (withEarlierOut earlier s) = Out.map (withEarlierOut earlier) (acceptData write addr latch s) := by
  simp only [acceptData, currentEp?_withEarlierOut]
  cases s.currentEp? <;> rfl

theorem rxBit_withEarlierOut (b : Bool) (s : State) :
    rxBit b (withEarlierOut earlier s) = Out.map (withEarlierOut earlier) (rxBit b s) := by
  simp only [rxBit, apply_ite (Out.map _)]
  rfl

theorem execBit_withEarlierOut (b : Bool) (s : State) :
    exec (bitInstr b) (withEarlierOut earlier s) = Out.map (withEarlierOut earlier) (exec (bitInstr b) s) := by
  simp only [exec_bitInstr, txBit_withEarlierOut, rxBit_withEarlierOut, apply_ite (Out.map _)]
  rfl

theorem execSync_withEarlierOut (s : State) :
    exec .sync (withEarlierOut earlier s) = Out.map (withEarlierOut earlier) (exec .sync s) := by
  simp only [exec_sync, withEarlierOut_rxPhase, txSync_withEarlierOut]
  split <;> rfl

theorem execEop_withEarlierOut (s : State) :
    exec .eop (withEarlierOut earlier s) = Out.map (withEarlierOut earlier) (exec .eop s) := by
  simp only [exec_eop, txEop_withEarlierOut, rxEop, apply_ite (Out.map _)]
  rfl

theorem execKeepalive_withEarlierOut (s : State) :
    exec .keepalive (withEarlierOut earlier s) = Out.map (withEarlierOut earlier) (exec .keepalive s) := by
  have hservo : servo (withEarlierOut earlier s).cfg (withEarlierOut earlier s).chip.cycCnt (withEarlierOut earlier s).dev
      (withEarlierOut earlier s).chip.oscCtl = servo s.cfg s.chip.cycCnt s.dev s.chip.oscCtl := rfl
  simp only [exec, execKeepalive, hservo]
  cases (servo s.cfg s.chip.cycCnt s.dev s.chip.oscCtl).2 with
  | none => rfl
  | some v => exact congrArg (fun u => (.next (endInvocation u) : Out)) (writeOscCtl_withEarlierOut earlier (setDev s _) v)

theorem execAck_withEarlierOut (s : State) :
    exec .ack (withEarlierOut earlier s) = Out.map (withEarlierOut earlier) (exec .ack s) := by
  simp only [exec, execAck, currentEp?_withEarlierOut]
  cases s.currentEp? <;> rfl

theorem execSend_withEarlierOut (token : Byte) (ptr : Word) (len : Nat) (s : State) :
    exec (.sendNoCrc token ptr len) (withEarlierOut earlier s) =
        Out.map (withEarlierOut earlier) (exec (.sendNoCrc token ptr len) s) ∧
      exec (.sendCrc16 token ptr len) (withEarlierOut earlier s) =
        Out.map (withEarlierOut earlier) (exec (.sendCrc16 token ptr len) s) := by
  have hr : sourceReadN (withEarlierOut earlier s) ptr len = sourceReadN s ptr len := rfl
  simp only [exec, execSendNoCrc, execSendCrc16, hr, loadTx_withEarlierOut]
  split
  · exact ⟨rfl, rfl⟩
  · exact ⟨rfl, rfl⟩

theorem exec_withEarlierOut (i : Instr) (s : State) :
    exec i (withEarlierOut earlier s) = Out.map (withEarlierOut earlier) (exec i s) := by
  cases i with
  | ack => exact execAck_withEarlierOut earlier s
  | data0 payload crc => exact handleData_withEarlierOut ..
  | data1 payload crc => exact handleData_withEarlierOut ..
  | inTok addr endp crc => exact dispatchToken_withEarlierOut _ _ _ _ _ fun e => handleIn_withEarlierOut ..
  | outTok addr endp crc => exact dispatchToken_withEarlierOut _ _ _ _ _ fun e => rfl
  | setup addr endp crc => exact dispatchToken_withEarlierOut _ _ _ _ _ fun e => rfl
  | unknownPid pid rest => rfl
  | getDescriptor r v x l => exact acceptData_withEarlierOut ..
  | setAddress r v x l => exact acceptData_withEarlierOut ..
  | setReportBoot r l => exact acceptData_withEarlierOut ..
  | unrecognisedRequest rt rq v x l => exact acceptData_withEarlierOut ..
  | outPayloadCookie => exact acceptData_withEarlierOut ..
  | outPayloadOther p => exact acceptData_withEarlierOut ..
  | sendNoCrc token ptr len => exact (execSend_withEarlierOut earlier token ptr len s).1
  | sendCrc16 token ptr len => exact (execSend_withEarlierOut earlier token ptr len s).2
  | sync => exact execSync_withEarlierOut earlier s
  | eop => exact execEop_withEarlierOut earlier s
  | keepalive => exact execKeepalive_withEarlierOut earlier s
  | bit0 => exact execBit_withEarlierOut earlier false s
  | bit1 => exact execBit_withEarlierOut earlier true s

theorem idleStep_withEarlierOut (s : State) : idleStep (withEarlierOut earlier s) = withEarlierOut earlier (idleStep s) := by
  have he : (withEarlierOut earlier s).io.events = s.io.events := rfl
  simp only [idleStep, he]
  split <;> rfl

end EarlierOut

/-- Settles O59: every operation commutes with putting something before what has been put out. -/
theorem noStepReadsWhatWasPutOut : Obligations.NoStepReadsWhatWasPutOut := by
  intro s earlier
  have hrst : (withEarlierOut earlier s).io.rst = s.io.rst := rfl
  have hfetch : fetch (withEarlierOut earlier s) = fetch s := rfl
  simp only [step, stepWith, hrst, hfetch, withEarlierOut_halted, withEarlierOut_rxPhase, idleStep_withEarlierOut,
    advance_withEarlierOut, exec_withEarlierOut]
  split
  · rfl
  split
  · rfl
  split
  · rfl
  split
  · rfl
  · rename_i r _
    cases r <;> rfl

end Sys2Proof.Machine
end

section
/-! PROOFS. The source memory space: what the transmit unit reads, and what the descriptor lookup answers. -/

namespace Sys2Proof.Machine

open Config

/-! ## The windows of the source memory space -/

/-- A byte of a range is found at its index. -/
theorem toNat_add_sub_self (a : Word) {k : Nat} (hk : k < 2 ^ 32) : (a + BitVec.ofNat 32 k - a).toNat = k := by
  rw [BitVec.add_comm, BitVec.add_sub_cancel, BitVec.toNat_ofNat, Nat.mod_eq_of_lt hk]

/-- No byte of a range lies in a range apart from it. -/
theorem le_toNat_sub_of_apart {a b : Word} {n m k : Nat} (h : apart a n b m = true) (hk : k < n) : m ≤ (a + BitVec.ofNat 32 k - b).toNat := by
  obtain ⟨hab, hba⟩ := (apart_iff ..).1 h
  bv_omega

/-- The three windows lie apart (notes/assumptions/10.md, 32.md). -/
theorem windows_apart {p : Params} (h : p.wf = true) : apart p.scratchBase PACKET_BUF_CAP p.zero2 2 = true ∧
    apart p.errString ERR_STRING.length p.scratchBase PACKET_BUF_CAP = true ∧ apart p.errString ERR_STRING.length p.zero2 2 = true := by
  simp only [Params.wf, Bool.and_eq_true] at h
  obtain ⟨⟨⟨_, hzero⟩, hscratch⟩, herr⟩ := h
  exact ⟨hzero, hscratch, herr⟩

/-- The packet buffer appears at `SCRATCH_BASE` (spec/20_memory.md R64). -/
theorem sourceRead_scratch {s : State} (h : s.cfg.wf = true) {k : Nat} (hk : k < PACKET_BUF_CAP) :
    sourceRead s (s.cfg.scratchBase + BitVec.ofNat 32 k) = scratchByte s k := by
  have hcap : PACKET_BUF_CAP = 12 := rfl
  have hzero := le_toNat_sub_of_apart (windows_apart h).1 hk
  rw [sourceRead, toNat_add_sub_self _ (by omega), if_neg (Nat.not_lt.2 hzero), if_pos hk]

/-- A list that is read byte by byte is what the range holds. -/
theorem sourceReadN_eq {s : State} {a : Word} {bytes : List Byte}
    (h : ∀ k, (hk : k < bytes.length) → sourceRead s (a + BitVec.ofNat 32 k) = bytes[k]) : sourceReadN s a bytes.length = bytes := by
  refine List.ext_getElem (sourceReadN_length ..) fun k _ hk => ?_
  simp only [sourceReadN, List.getElem_map, List.getElem_range, h k hk]

/-- The stored bytes of the packet buffer are read as they stand. -/
theorem sourceReadN_scratch {s : State} (h : s.cfg.wf = true) (hcap : s.pkt.buf.length ≤ PACKET_BUF_CAP) :
    sourceReadN s s.cfg.scratchBase s.pkt.buf.length = s.pkt.buf := by
  refine sourceReadN_eq fun k hk => ?_
  rw [sourceRead_scratch h (by omega), scratchByte, List.getElem?_eq_getElem hk, Option.getD_some]

/-- The "ERR" string is read as it stands where it is substituted (spec/70_reset_and_hazards.md R367). -/
theorem sourceReadN_errString {s : State} (h : s.cfg.wf = true) (hsub : s.cfg.errSubstituted = true) :
    sourceReadN s s.cfg.errString ERR_STRING.length = ERR_STRING := by
  obtain ⟨-, hscratch, hzero⟩ := windows_apart h
  refine sourceReadN_eq fun k hk => ?_
  have hlen : ERR_STRING.length = 8 := rfl
  rw [sourceRead, toNat_add_sub_self s.cfg.errString (by omega), if_neg (Nat.not_lt.2 (le_toNat_sub_of_apart hzero hk)),
    if_neg (Nat.not_lt.2 (le_toNat_sub_of_apart hscratch hk)), if_pos ⟨hsub, hk⟩, List.getD_eq_getElem _ _ hk]

/-- Outside the windows the memory is read (spec/20_memory.md R63). -/
theorem sourceRead_outside {s : State} {a : Word} (hzero : 2 ≤ (a - s.cfg.zero2).toNat)
    (hscratch : PACKET_BUF_CAP ≤ (a - s.cfg.scratchBase).toNat)
    (herr : s.cfg.errSubstituted = false ∨ ERR_STRING.length ≤ (a - s.cfg.errString).toNat) : sourceRead s a = memRead s.mem a.toNat := by
  rw [sourceRead, if_neg (Nat.not_lt.2 hzero), if_neg (Nat.not_lt.2 hscratch), if_neg]
  rintro ⟨hsub, hlt⟩
  cases herr with
  | inl hno => rw [hno] at hsub; cases hsub
  | inr hge => omega

theorem errSubstituted_eq_true (p : Params) : p.errSubstituted = true ↔ p.hidDeclared ≠ p.hidActual := bne_iff_ne

theorem errSubstituted_eq_false (p : Params) : p.errSubstituted = false ↔ p.hidDeclared = p.hidActual := bne_eq_false_iff_eq

/-! ## The `send` commands -/

theorem exec_sendNoCrc (token : Byte) (ptr : Word) {len : Nat} (s : State) (h : len ≤ MAX_PAYLOAD) :
    exec (.sendNoCrc token ptr len) s = .next (loadTx (txBytesNoCrc token (sourceReadN s ptr len)) s) := if_pos h

theorem exec_sendCrc16 (token : Byte) (ptr : Word) {len : Nat} (s : State) (h : len ≤ MAX_PAYLOAD) :
    exec (.sendCrc16 token ptr len) s = .next (loadTx (txBytesCrc16 token (sourceReadN s ptr len)) s) := if_pos h

/-- A `send` taken up stands at the start of its packet. -/
theorem loadTx_atFrameStart (bytes : List Byte) (s : State) : AtFrameStart bytes (loadTx bytes s) := ⟨rfl, rfl, rfl, rfl, rfl, rfl, rfl⟩

/-- The CRC16 of an empty payload is two zero bytes (spec/40_transmit.md R130). -/
theorem txBytesCrc16_nil (token : Byte) : txBytesCrc16 token [] = [token, 0x00#8, 0x00#8] := rfl

/-- Settles O23: one lemma per window, and `send_empty` is the empty data packet because the CRC16 of nothing is zero. -/
theorem sourceSpaceReads : Obligations.SourceSpaceReads := by
  intro s h
  refine ⟨sourceReadN_zero2 s, fun bytes hlen => ?_, fun k hk => sourceRead_scratch h hk, fun hne => ?_, fun a hz hs he => ?_,
    fun token p => ⟨_, exec_sendNoCrc token s.cfg.zero2 (len := 2) s (by decide), ?_, ?_⟩⟩
  · exact sourceReadN_scratch (s := { s with pkt := { s.pkt with buf := bytes } }) h hlen
  · exact sourceReadN_errString h ((errSubstituted_eq_true _).2 hne)
  · exact sourceRead_outside hz hs (he.imp_left (errSubstituted_eq_false _).2)
  · rw [sourceReadN_zero2]
    exact loadTx_atFrameStart _ s
  · rw [sourceReadN_zero2, exec_sendCrc16 token p (len := 0) s (by decide), show sourceReadN s p 0 = [] from rfl, txBytesCrc16_nil]
    rfl

/-! ## The descriptor lookup -/

/-- A packet accepted writes the current entry, the address and the latch, and sends ACK (spec/44_endpoint.md R253). -/
theorem acceptData_accepts {write : EpEntry → EpEntry} {addr : BitVec 16} {latch : BitVec 2} {s : State} {e : EpEntry}
    (h : s.currentEp? = some e) : ∃ t, acceptData write addr latch s = .next t ∧
      Accepts { write e with toggleOut := !(write e).toggleOut } { s.dev with myAddress := addr, rebootArmed := latch } s t := by
  obtain ⟨hlt, -⟩ := List.getElem?_eq_some_iff.1 h
  refine ⟨_, acceptData_some h, ?_⟩
  exact {
    entry := List.getElem?_set_self hlt
    others := fun j hj => List.getElem?_set_ne (Ne.symm hj)
    dev := rfl
    pkt := rfl
    ack := ⟨rfl, rfl⟩
    frame := ⟨fun _ => rfl, rfl, rfl, rfl, rfl, rfl, rfl, rfl, rfl, rfl, List.length_set ..⟩ }

/-- A lookup that answers arms the entry with the smaller of the two lengths (spec/44_endpoint.md R255). -/
theorem armEntry_maxLen (ptr len : Word) (wLength : BitVec 16) (e : EpEntry) :
    (armEntry (some (ptr, len)) wLength e).maxLen.toNat = min wLength.toNat len.toNat := by
  show (BitVec.ofNat 32 (min wLength.toNat len.toNat)).toNat = _
  rw [BitVec.toNat_ofNat, Nat.mod_eq_of_lt (by have := len.isLt; omega)]

/-- Settles O44: the two lookups, and the entry that an accepted GET_DESCRIPTOR of the Device descriptor arms. -/
theorem descriptorLookupKeepsItsThreeFacts : Obligations.DescriptorLookupKeepsItsThreeFacts := by
  intro s
  have hdevice : descLookup s.cfg (selector 0x0100 0x0000) = some (s.cfg.deviceDesc, 18#32) := descLookup_device s.cfg
  refine ⟨hdevice, descLookup_product s.cfg, fun r wLength e he => ?_⟩
  obtain ⟨t, ht, hacc⟩ := acceptData_accepts (write := armEntry (some (s.cfg.deviceDesc, 18#32)) wLength) (addr := s.dev.myAddress)
    (latch := 0#2) he
  refine ⟨t, _, ?_, hacc, rfl, armEntry_maxLen s.cfg.deviceDesc 18#32 wLength e, rfl⟩
  rw [exec_eq_acceptData (i := .getDescriptor r 0x0100 0x0000 wLength) rfl, hdevice, ht]

end Sys2Proof.Machine
end

section
/-! PROOFS. No instruction writes the source memory, the cycle counter or the parameters, and KEEPALIVE alone writes the trim field. -/

namespace Sys2Proof.Machine

open Config

/-! ## The memory and the parameters -/

/-- No instruction writes the source memory or the parameters (spec/20_memory.md R63, R73). -/
theorem Effect.mem_cfg {s t : State} {i : Instr} (h : Effect s i t) : t.mem = s.mem ∧ t.cfg = s.cfg := by
  cases h with
  | line _ _ _ hmem hcfg => exact ⟨hmem, hcfg⟩
  | keepalive _ _ _ _ hmem hcfg => exact ⟨hmem, hcfg⟩
  | silent | answers => exact ⟨withCallback_mem .., withCallback_cfg ..⟩
  | dropped | ack | duplicate | request | payload | accept | setup | out | fires | drains => exact ⟨rfl, rfl⟩

/-! ## The chip's registers -/

@[simp] theorem withCallback_chip (endp : BitVec 4) (s : State) : (withCallback endp s).chip = s.chip := by
  obtain ⟨_, _, h, _, _⟩ := withCallback_eq endp s; rw [h]

/-- The receive unit, the transmit unit, the phase, `halted`, the line and what is put out are what a line instruction may move. -/
theorem lineFrame_update (s : State) (pkt : Pkt) (rx : Rx) (tx : Tx) (phase : RxPhase) (stage : Stage) (halted : Bool)
    (line : List LineSymbol) (out : List Output) : LineFrame s { s with
      pkt := pkt, rx := rx, tx := tx, rxPhase := phase, stage := stage, halted := halted, io := { s.io with lineIn := line, out := out } } :=
  ⟨rfl, rfl, fun _ => rfl, rfl, rfl, rfl, rfl, rfl, rfl⟩

theorem bitInstr_frame {b : Bool} {s t : State} (h : exec (bitInstr b) s = .next t) : LineFrame s t := by
  rw [exec_bitInstr] at h
  split at h
  · cases h
    obtain ⟨_, _, _, htx, -⟩ := txBit_eq b s
    rw [htx]
    exact lineFrame_update ..
  · obtain rfl | ⟨-, -, rfl⟩ | ⟨-, -, rfl⟩ := rxBit_next h <;> exact lineFrame_update ..

theorem sync_frame {s t : State} (h : exec .sync s = .next t) : LineFrame s t := by
  cases (exec_sync s).symm.trans h
  split
  · obtain ⟨_, _, _, htx, -⟩ := txBits_eq (byteBits 0x80#8) s
    rw [txSync, htx]
    exact lineFrame_update ..
  · exact lineFrame_update ..

theorem eop_frame {s t : State} (h : exec .eop s = .next t) : LineFrame s t := by
  rw [exec_eop] at h
  split at h
  · cases h
    simp only [txEop]
    split <;> exact lineFrame_update ..
  · obtain rfl | ⟨-, -, rfl⟩ := rxEop_next h <;> exact lineFrame_update ..

/-- The frame of the line instructions and of the `send` commands. -/
theorem lineOrSend_frame {i : Instr} {s t : State} (hi : lineOrSend i = true) (h : exec i s = .next t) : LineFrame s t := by
  cases i with
  | sync => exact sync_frame h
  | eop => exact eop_frame h
  | bit0 => exact bitInstr_frame (b := false) h
  | bit1 => exact bitInstr_frame (b := true) h
  | sendNoCrc token ptr len =>
    simp only [exec, execSendNoCrc] at h
    split at h <;> cases h
    exact lineFrame_update ..
  | sendCrc16 token ptr len =>
    simp only [exec, execSendCrc16] at h
    split at h <;> cases h
    exact lineFrame_update ..
  | _ => cases hi

/-- KEEPALIVE alone writes a register of the chip. -/
theorem exec_chip {i : Instr} {s t : State} (h : exec i s = .next t) (hi : i ≠ .keepalive) : t.chip = s.chip := by
  cases exec_effect h with
  | line hl => exact (lineOrSend_frame hl h).chip
  | keepalive => exact absurd rfl hi
  | silent | answers => exact withCallback_chip ..
  | dropped | ack | duplicate | request | payload | accept | setup | out | fires | drains => rfl

/-- KEEPALIVE leaves the counter as it is, and `OSC_CTL` as it is or with one trim step (spec/45_se0_trim.md R302, R307). -/
theorem keepalive_chip {s t : State} (h : exec .keepalive s = .next t) :
    t.chip = s.chip ∨ ∃ dir, t.chip = { s.chip with oscCtl := applyTrim s.cfg dir s.chip.oscCtl } := by
  obtain ⟨-, heq⟩ | ⟨dir, -, heq⟩ := execKeepalive_cases s <;> cases heq.symm.trans h
  · exact .inl rfl
  · exact .inr ⟨dir, rfl⟩

/-! ## The trim field -/

/-- The mask has no bit outside the field. -/
theorem trimMask_getLsbD_outside (p : Params) {k : Nat} (hk : k < p.trimShift ∨ p.trimShift + p.trimW ≤ k) :
    (trimMask p).getLsbD k = false := by
  rw [trimMask, BitVec.getLsbD_shiftLeft, BitVec.getLsbD_ofNat, Nat.testBit_two_pow_sub_one]
  obtain hlow | hhigh := hk
  · simp [hlow]
  · simp [show ¬ k - p.trimShift < p.trimW by omega]

/-- The trim code has the width of the field. -/
theorem trimCode_lt (p : Params) (v : Word) : trimCode p v < 2 ^ p.trimW := by
  refine Nat.lt_pow_two_of_testBit _ fun k hk => ?_
  rw [trimCode, BitVec.testBit_toNat, BitVec.getLsbD_ushiftRight, BitVec.getLsbD_and,
    trimMask_getLsbD_outside p (.inr (Nat.add_le_add_left hk _)), Bool.and_false]

/-- The step saturates at the greatest code (spec/45_se0_trim.md R308). -/
theorem trimNext_lt (p : Params) (dir : TrimDir) {f : Nat} (h : f < 2 ^ p.trimW) : trimNext p dir f < 2 ^ p.trimW := by
  simp only [trimNext]
  split <;> omega

/-- A trim step leaves every bit outside the field as read (spec/45_se0_trim.md R307). -/
theorem applyTrim_getLsbD_outside (p : Params) (dir : TrimDir) (v : Word) {k : Nat} (hk : k < p.trimShift ∨ p.trimShift + p.trimW ≤ k) :
    (applyTrim p dir v).getLsbD k = v.getLsbD k := by
  have hcode : (BitVec.ofNat 32 (trimNext p dir (trimCode p v)) <<< p.trimShift).getLsbD k = false := by
    rw [BitVec.getLsbD_shiftLeft, BitVec.getLsbD_ofNat]
    obtain hlow | hhigh := hk
    · simp [hlow]
    · have hlt : trimNext p dir (trimCode p v) < 2 ^ (k - p.trimShift) :=
        (trimNext_lt p dir (trimCode_lt p v)).trans_le (Nat.pow_le_pow_right (by decide) (by omega))
      simp [Nat.testBit_lt_two_pow hlt]
  rw [applyTrim, BitVec.getLsbD_or, hcode, BitVec.getLsbD_and, BitVec.getLsbD_not, trimMask_getLsbD_outside p hk]
  by_cases hlt : k < 32
  · simp [hlt]
  · simp [hlt, BitVec.getLsbD_of_ge _ _ (Nat.not_lt.1 hlt)]

/-- Settles O56: no effect writes memory or parameters, and KEEPALIVE's write of `OSC_CTL` is one trim step. -/
theorem engineNeverWritesMemoryOrParameters : Obligations.EngineNeverWritesMemoryOrParameters := by
  intro i s t _ h
  obtain ⟨hmem, hcfg⟩ := (exec_effect h).mem_cfg
  have hchip : t.chip = s.chip ∨ ∃ dir, t.chip = { s.chip with oscCtl := applyTrim s.cfg dir s.chip.oscCtl } := by
    by_cases hi : i = .keepalive
    · subst hi; exact keepalive_chip h
    · exact .inl (exec_chip h hi)
  refine ⟨fun a => by rw [hmem], ?_, hcfg, fun k hk => ?_, fun hi => by rw [exec_chip h hi]⟩
  · obtain hc | ⟨_, hc⟩ := hchip <;> rw [hc]
  · obtain hc | ⟨dir, hc⟩ := hchip <;> rw [hc]
    exact applyTrim_getLsbD_outside s.cfg dir s.chip.oscCtl hk

end Sys2Proof.Machine
end

section
/-! PROOFS. The encodings: the decoder undoes the encoder and accepts nothing else, and the rows of a URB. -/

namespace Sys2Proof

open Config

/-! ## Control requests -/

/-- The recipient bits are outside the type bits (spec/30_encoding.md R94, R95). -/
theorem requestType_key (t : Byte) (r : BitVec 5) : (t ||| r.setWidth 8) &&& 0xE0#8 = t &&& 0xE0#8 := by
  ext i h
  interval_cases i <;> simp

theorem recipientOf_or {t : Byte} (ht : recipientOf t = 0#5) (r : BitVec 5) : recipientOf (t ||| r.setWidth 8) = r := by
  have hor : recipientOf (t ||| r.setWidth 8) = recipientOf t ||| r := by
    ext i h
    simp only [recipientOf]
    interval_cases i <;> simp
  rw [hor, ht, BitVec.zero_or]

/-- A request type is its type bits and its recipient bits (spec/30_encoding.md R94). -/
theorem requestType_parts (rt : Byte) : rt &&& 0xE0#8 ||| (recipientOf rt).setWidth 8 = rt := by
  ext i h
  simp only [recipientOf]
  interval_cases i <;> simp

/-- The three rows of spec/30_encoding.md R97 above the last. -/
theorem isRecognisedRequest_iff (rt rq : Byte) (v x : BitVec 16) : isRecognisedRequest rt rq v x = true ↔
    (rt &&& 0xE0#8 = 0x80#8 ∧ rq = 0x06#8) ∨ (rt &&& 0xE0#8 = 0x00#8 ∧ rq = 0x05#8) ∨
      ((rt &&& 0xE0#8 = 0x20#8 ∧ rq = 0x09#8) ∧ v = 0x03FD#16 ∧ x = 0x0000#16) := by
  simp only [isRecognisedRequest, Bool.or_eq_true, Bool.and_eq_true, beq_iff_eq, reqKey_getDescriptor, reqKey_setAddress,
    reqKey_setReport, selector_eq_magic, or_assoc]

theorem decodeRequest_getDescriptor {rt : Byte} (h : rt &&& 0xE0#8 = 0x80#8) (v x l : BitVec 16) :
    decodeRequest rt 0x06#8 v x l = .getDescriptor (recipientOf rt) v x l :=
  if_pos ((reqKey_getDescriptor ..).2 ⟨h, rfl⟩)

theorem decodeRequest_setAddress {rt : Byte} (h : rt &&& 0xE0#8 = 0x00#8) (v x l : BitVec 16) :
    decodeRequest rt 0x05#8 v x l = .setAddress (recipientOf rt) v x l := by
  simp [decodeRequest, reqKey_getDescriptor, reqKey_setAddress, h]

theorem decodeRequest_setReportBoot {rt : Byte} (h : rt &&& 0xE0#8 = 0x20#8) (l : BitVec 16) :
    decodeRequest rt 0x09#8 0x03FD#16 0x0000#16 l = .setReportBoot (recipientOf rt) l := by
  simp [decodeRequest, reqKey_getDescriptor, reqKey_setAddress, reqKey_setReport, selector_eq_magic, h]

theorem decodeRequest_unrecognised {rt rq : Byte} {v x : BitVec 16} (h : isRecognisedRequest rt rq v x = false) (l : BitVec 16) :
    decodeRequest rt rq v x l = .unrecognisedRequest rt rq v x l := by
  obtain ⟨⟨hg, ha⟩, hb⟩ : (reqKey rt rq ≠ REQ_GET_DESCRIPTOR ∧ reqKey rt rq ≠ REQ_SET_ADDRESS) ∧
      ¬ (reqKey rt rq = REQ_CLASS_SET_REPORT ∧ selector v x = BOOT_SELECTOR_MAGIC) := by
    simpa [isRecognisedRequest] using h
  simp only [decodeRequest, if_neg hg, if_neg ha, if_neg hb]

/-- Every URB is the encoding of the request it decodes to (spec/30_encoding.md R97). -/
theorem encode_decodeRequest (rt rq : Byte) (v x l : BitVec 16) : encode (decodeRequest rt rq v x l) = encodeUrb rt rq v x l := by
  have hrt := requestType_parts rt
  cases h : isRecognisedRequest rt rq v x with
  | false => rw [decodeRequest_unrecognised h]; rfl
  | true =>
    obtain ⟨ht, rfl⟩ | ⟨ht, rfl⟩ | ⟨⟨ht, rfl⟩, rfl, rfl⟩ := (isRecognisedRequest_iff ..).1 h <;> rw [ht] at hrt
    · rw [decodeRequest_getDescriptor ht, encode, hrt]
    · rw [decodeRequest_setAddress ht, encode, hrt]
    · rw [decodeRequest_setReportBoot ht, encode, hrt]

theorem decodeRequest_wf (rt rq : Byte) (v x l : BitVec 16) : (decodeRequest rt rq v x l).wf = true := by
  cases h : isRecognisedRequest rt rq v x with
  | false => rw [decodeRequest_unrecognised h, Instr.wf, h]; rfl
  | true =>
    obtain ⟨ht, rfl⟩ | ⟨ht, rfl⟩ | ⟨⟨ht, rfl⟩, rfl, rfl⟩ := (isRecognisedRequest_iff ..).1 h
    · rw [decodeRequest_getDescriptor ht]; rfl
    · rw [decodeRequest_setAddress ht]; rfl
    · rw [decodeRequest_setReportBoot ht]; rfl

theorem decode_encodeUrb (rt rq : Byte) (v x l : BitVec 16) :
    decode (encodeUrb rt rq v x l) = .ok (decodeRequest rt rq v x l) := by
  simp [encodeUrb, decode, decodeUrb]

/-- The selector's two fields in a URB are its bytes 2 to 5 (spec/30_encoding.md R96). -/
theorem bootSelector_bytes (b2 b3 b4 b5 : Byte) :
    [b2, b3, b4, b5] = [0xFD#8, 0x03#8, 0x00#8, 0x00#8] ↔ le16 b2 b3 = 0x03FD#16 ∧ le16 b4 b5 = 0x0000#16 := by
  constructor
  · rintro ⟨⟩; decide
  · rw [show 0x03FD#16 = le16 0xFD#8 0x03#8 by decide, show 0x0000#16 = le16 0x00#8 0x00#8 by decide]
    rintro ⟨hv, hx⟩
    obtain ⟨⟨rfl, rfl⟩, rfl, rfl⟩ := And.intro (le16_inj hv) (le16_inj hx)
    rfl

/-! ## Packets -/

theorem decodePacket_ack (rest : List Byte) :
    decodePacket (PID_ACK :: rest) = if rest = [] then .ok .ack else .error (.drop .eLength) := rfl

theorem decodePacket_in (rest : List Byte) : decodePacket (PID_IN :: rest) = decodeToken .inTok rest := rfl

theorem decodePacket_out (rest : List Byte) : decodePacket (PID_OUT :: rest) = decodeToken .outTok rest := rfl

theorem decodePacket_setup (rest : List Byte) : decodePacket (PID_SETUP :: rest) = decodeToken .setup rest := rfl

theorem decodePacket_data0 (rest : List Byte) : decodePacket (PID_DATA0 :: rest) = decodeData .data0 rest := rfl

theorem decodePacket_data1 (rest : List Byte) : decodePacket (PID_DATA1 :: rest) = decodeData .data1 rest := rfl

/-- A first byte that is none of the six (spec/43_dispatch.md R220). -/
theorem decodePacket_unknownPid {pid : Byte} (hp : isKnownPid pid = false) (rest : List Byte) :
    decodePacket (pid :: rest) = if rest.length < PACKET_BUF_CAP then .ok (.unknownPid pid rest) else .error (.drop .eOverlen) := by
  simp only [isKnownPid, Bool.or_eq_false_iff, beq_eq_false_iff_ne] at hp
  obtain ⟨⟨⟨⟨⟨hack, hdata0⟩, hdata1⟩, hin⟩, hout⟩, hsetup⟩ := hp
  simp only [decodePacket, if_neg hack, if_neg hdata0, if_neg hdata1, if_neg hin, if_neg hout, if_neg hsetup]

/-- The two bytes of a token field decode to its three parts (spec/30_encoding.md R89, R90). -/
theorem decodeToken_tokenField (mk : BitVec 7 → BitVec 4 → BitVec 5 → Instr) (addr : BitVec 7) (endp : BitVec 4) (crc : BitVec 5) :
    decodeToken mk [lo8 (tokenField addr endp crc), hi8 (tokenField addr endp crc)] = .ok (mk addr endp crc) := by
  simp [decodeToken]

/-- A payload and the two bytes of a CRC16 field decode to them (spec/30_encoding.md R91, R92). -/
theorem decodeData_payload_crc (mk : List Byte → BitVec 16 → Instr) {payload : List Byte} (h : payload.length ≤ MAX_PAYLOAD)
    (crc : BitVec 16) : decodeData mk (payload ++ [lo8 crc, hi8 crc]) = .ok (mk payload crc) := by
  rw [decodeData_append mk payload _ _ h, le16_lo8_hi8]

/-- A packet that decodes has a payload or a rest within the bounds (spec/43_dispatch.md R219, spec/20_memory.md R61). -/
theorem wf_of_decodePacket {bytes : List Byte} {i : Instr} (h : decodePacket bytes = .ok i) : i.wf = true := by
  cases bytes with
  | nil => cases h
  | cons pid rest =>
    cases hp : isKnownPid pid with
    | false =>
      rw [decodePacket_unknownPid hp] at h
      split at h
      case isTrue hr => cases h; simp [Instr.wf, hp, hr]
      case isFalse => cases h
    | true =>
      simp only [isKnownPid, Bool.or_eq_true, beq_iff_eq] at hp
      obtain ((((rfl | rfl) | rfl) | rfl) | rfl) | rfl := hp
      · rw [decodePacket_ack] at h
        split at h <;> cases h
        rfl
      · obtain ⟨payload, _, _, -, hl, rfl⟩ := decodeData_ok (decodePacket_data0 rest ▸ h)
        exact decide_eq_true hl
      · obtain ⟨payload, _, _, -, hl, rfl⟩ := decodeData_ok (decodePacket_data1 rest ▸ h)
        exact decide_eq_true hl
      · obtain ⟨_, _, -, rfl⟩ := decodeToken_ok (decodePacket_in rest ▸ h); rfl
      · obtain ⟨_, _, -, rfl⟩ := decodeToken_ok (decodePacket_out rest ▸ h); rfl
      · obtain ⟨_, _, -, rfl⟩ := decodeToken_ok (decodePacket_setup rest ▸ h); rfl

/-! ## URBs, payloads and `send` commands -/

/-- A URB that decodes is the encoding of a well-formed request (spec/44_endpoint.md R251). -/
theorem encode_wf_of_decodeUrb {bytes : List Byte} {i : Instr} (h : decodeUrb bytes = .ok i) : encode i = .urb bytes ∧ i.wf = true := by
  unfold decodeUrb at h
  split at h
  case h_1 => cases h; exact ⟨by simp [encode_decodeRequest, encodeUrb], decodeRequest_wf ..⟩
  case h_2 => cases h

/-- A payload that decodes is the encoding of a well-formed OUT payload (spec/44_endpoint.md R252). -/
theorem encode_wf_of_decodePayload {bytes : List Byte} {i : Instr} (h : decodePayload bytes = .ok i) :
    encode i = .payload bytes ∧ i.wf = true := by
  unfold decodePayload at h
  split at h
  case isTrue hc => cases h; exact ⟨congrArg Code.payload hc.symm, rfl⟩
  case isFalse hc =>
    split at h
    case isTrue hl => cases h; exact ⟨rfl, by simp [Instr.wf, hl, hc]⟩
    case isFalse => cases h

/-- A command that decodes is the encoding of a well-formed `send` (spec/30_encoding.md R99). -/
theorem encode_wf_of_decodeSend {c : SendCmd} {i : Instr} (h : decodeSend c = .ok i) : encode i = .send c ∧ i.wf = true := by
  obtain ⟨hlen, -⟩ := decodeSend_ok h
  obtain ⟨token, ptr, len, poly⟩ := c
  simp only [decodeSend, if_pos hlen] at h
  split at h
  case isTrue hp => cases h; exact ⟨by rw [hp]; rfl, decide_eq_true hlen⟩
  case isFalse =>
    split at h
    case isTrue hp => cases h; exact ⟨by rw [hp]; rfl, decide_eq_true hlen⟩
    case isFalse => cases h

/-! ## The statements -/

/-- Settles O8, instruction by instruction: each part of an encoding is read back from where the encoder put it. -/
theorem decodeUndoesEncode : Obligations.DecodeUndoesEncode := by
  intro i hi
  cases i with
  | data0 payload crc => exact (decodePacket_data0 _).trans (decodeData_payload_crc _ (of_decide_eq_true hi) crc)
  | data1 payload crc => exact (decodePacket_data1 _).trans (decodeData_payload_crc _ (of_decide_eq_true hi) crc)
  | inTok addr endp crc => exact (decodePacket_in _).trans (decodeToken_tokenField _ addr endp crc)
  | outTok addr endp crc => exact (decodePacket_out _).trans (decodeToken_tokenField _ addr endp crc)
  | setup addr endp crc => exact (decodePacket_setup _).trans (decodeToken_tokenField _ addr endp crc)
  | unknownPid pid rest =>
    obtain ⟨hp, hr⟩ : isKnownPid pid = false ∧ rest.length < PACKET_BUF_CAP := by simpa [Instr.wf] using hi
    exact (decodePacket_unknownPid hp rest).trans (if_pos hr)
  | getDescriptor r v x l =>
    rw [encode, decode_encodeUrb, decodeRequest_getDescriptor (requestType_key ..), recipientOf_or rfl]
  | setAddress r v x l =>
    rw [encode, decode_encodeUrb, decodeRequest_setAddress (requestType_key ..), recipientOf_or rfl]
  | setReportBoot r l =>
    rw [encode, decode_encodeUrb, decodeRequest_setReportBoot (requestType_key ..), recipientOf_or rfl]
  | unrecognisedRequest rt rq v x l =>
    rw [encode, decode_encodeUrb, decodeRequest_unrecognised (by simpa [Instr.wf] using hi)]
  | outPayloadOther payload =>
    obtain ⟨hl, hc⟩ : payload.length ≤ MAX_PAYLOAD ∧ payload ≠ BOOT_COOKIE := by simpa [Instr.wf] using hi
    exact (if_neg hc).trans (if_pos hl)
  | sendNoCrc token ptr len => simpa [encode, decode, decodeSend, Instr.wf] using hi
  | sendCrc16 token ptr len => simpa [encode, decode, decodeSend, Instr.wf] using hi
  | ack | outPayloadCookie | sync | eop | keepalive | bit0 | bit1 => rfl

/-- Settles O9, by the encoding space of the code. -/
theorem decoderAcceptsOnlyEncodings : Obligations.DecoderAcceptsOnlyEncodings := by
  intro c i h
  cases c with
  | preamble syms => obtain rfl | rfl := matchPreamble_ok h <;> simp [Instr.wf]
  | line prev sym => obtain rfl | rfl | rfl := decodeLine_ok h <;> simp [Instr.wf]
  | packet bytes =>
    have he := encode_of_decodePacket h
    exact ⟨wf_of_decodePacket h, fun _ _ => he, fun _ _ => he⟩
  | urb bytes =>
    obtain ⟨he, hwf⟩ := encode_wf_of_decodeUrb h
    exact ⟨hwf, fun _ _ => he, fun _ _ => he⟩
  | payload bytes =>
    obtain ⟨he, hwf⟩ := encode_wf_of_decodePayload h
    exact ⟨hwf, fun _ _ => he, fun _ _ => he⟩
  | send cmd =>
    obtain ⟨he, hwf⟩ := encode_wf_of_decodeSend h
    exact ⟨hwf, fun _ _ => he, fun _ _ => he⟩

/-- Settles O13, one row of the table each, and the selector from its four bytes. -/
theorem urbRowsAreTriedInOrder : Obligations.UrbRowsAreTriedInOrder := by
  intro b0 b1 b2 b3 b4 b5 b6 b7
  rw [bootSelector_bytes]
  refine ⟨?_, ?_, ?_, fun hdesc haddr hboot => ?_, ?_⟩
  · rintro ht rfl
    exact congrArg Except.ok (decodeRequest_getDescriptor ht ..)
  · rintro ht rfl
    exact congrArg Except.ok (decodeRequest_setAddress ht ..)
  · rintro ht rfl ⟨hv, hx⟩
    rw [decode, decodeUrb, hv, hx, decodeRequest_setReportBoot ht]
  · have hno : isRecognisedRequest b0 b1 (le16 b2 b3) (le16 b4 b5) = false := by
      rw [← Bool.not_eq_true, isRecognisedRequest_iff, and_assoc]
      exact not_or.2 ⟨hdesc, not_or.2 ⟨haddr, hboot⟩⟩
    exact congrArg Except.ok (decodeRequest_unrecognised hno _)
  · rw [selector_toNat, le16_toNat, le16_toNat]
    omega

/-- Settles O10, word by word. -/
theorem wordsOfTheTablesDecode : Obligations.WordsOfTheTablesDecode := by
  unfold Obligations.WordsOfTheTablesDecode
  and_intros <;> decide

end Sys2Proof
end

section
/-! PROOFS. The shape of a frame. -/

namespace Sys2Proof.Machine

/-- Settles O27: between the sync pattern and the end of packet stand the levels that carry the stuffed bits. -/
theorem frameShape : Obligations.FrameShape := by
  intro bytes
  have hlen := stuff_length (bitsLsb bytes) 1 (by decide)
  rw [bitsLsb_length] at hlen
  refine ⟨nrziEncode .K (stuff 1 (bitsLsb bytes)), frame_eq bytes, nrziEncode_JK _ .K, ?_⟩
  rwa [nrziEncode_length]

end Sys2Proof.Machine
end

section
/-! PROOFS. The transmit unit: what it drives symbol by symbol and as a whole frame, and which `send` it takes up. -/

namespace Sys2Proof.Machine

open Config

/-! ## The symbols -/

/-- A 0 switches the level (spec/40_transmit.md R124). -/
theorem txBit_zero (s : State) : txBit false s = { s with
    tx := { s.tx with level := s.tx.level.flip, ones := 0 }
    io := { s.io with out := s.io.out ++ [Output.sym s.tx.level.flip.sym] } } := rfl

/-- A 1 repeats the level and is counted (R123, R124). -/
theorem txBit_one {s : State} (h : s.tx.ones + 1 ≠ STUFF_RUN) : txBit true s = { s with
    tx := { s.tx with ones := s.tx.ones + 1 }
    io := { s.io with out := s.io.out ++ [Output.sym s.tx.level.sym] } } := by
  simp [txBit, h, txSymbol, levelAfter, drive]

/-- After the sixth 1 a 0 is stuffed (R123). -/
theorem txBit_sixth {s : State} (h : s.tx.ones + 1 = STUFF_RUN) : txBit true s = { s with
    tx := { s.tx with level := s.tx.level.flip, ones := 0 }
    io := { s.io with out := s.io.out ++ [Output.sym s.tx.level.sym, .sym s.tx.level.flip.sym] } } := by
  simp [txBit, h, txSymbol, levelAfter, drive]

/-- From J the sync byte drives the sync pattern and leaves K and a run of one (spec/40_transmit.md R122). -/
theorem txSync_of_J {s : State} (hl : s.tx.level = .J) : txSync s = { s with
    tx := { s.tx with level := .K, ones := 1 }
    io := { s.io with out := s.io.out ++ syncPattern.map Output.sym } } := by
  rw [txSync, show byteBits 0x80#8 = [false, false, false, false, false, false, false, true] from rfl]
  simp only [List.foldl_cons, List.foldl_nil, txBit_zero]
  rw [txBit_one (by show 0 + 1 ≠ STUFF_RUN; decide)]
  simp [hl, LineLevel.flip, LineLevel.sym, syncPattern]

theorem eopSymbols_eq : eopSymbols = [.SE0, .SE0, .J] := rfl

/-- The end of packet, the release of the line, and the pending `boot_reset()` (spec/40_transmit.md R125, spec/44_endpoint.md R268). -/
theorem txEop_eq (s : State) : txEop s = { s with
    rxPhase := .idle
    halted := s.halted || s.tx.boot
    tx := { s.tx with oe := false, boot := false }
    io := { s.io with
      lineIn := []
      out := s.io.out ++ eopSymbols.map Output.sym ++ if s.tx.boot then [Output.bootReset] else [] } } := by
  cases h : s.tx.boot <;> simp [txEop, h, drive, bootReset, endInvocation, eopSymbols]

/-- Settles O24: a bit by its value and the run counter, and SYNC by its eight bits. -/
theorem symbolsAreDrivenWithStuffing : Obligations.SymbolsAreDrivenWithStuffing := by
  intro s hp
  have hbit : ∀ b, exec (bitInstr b) s = .next (txBit b s) := fun b => by rw [exec_bitInstr, if_pos hp]
  refine ⟨⟨_, hbit false, rfl, rfl, hp, rfl, rfl, rfl, bitInstr_frame (hbit false)⟩, ⟨_, hbit true, ?_⟩, fun hl _ => ?_⟩
  · have hframe := bitInstr_frame (hbit true)
    by_cases h6 : s.tx.ones + 1 = STUFF_RUN
    · rw [txBit_sixth h6] at hframe ⊢
      exact ⟨hp, rfl, rfl, rfl, hframe, fun hne => absurd h6 hne, fun _ => ⟨rfl, rfl⟩⟩
    · rw [txBit_one h6] at hframe ⊢
      exact ⟨hp, rfl, rfl, rfl, hframe, fun _ => ⟨rfl, rfl⟩, fun heq => absurd heq h6⟩
  · have hsync : exec .sync s = .next (txSync s) := by rw [exec_sync, if_pos hp]
    have hframe := sync_frame hsync
    rw [txSync_of_J hl] at hsync hframe
    exact ⟨_, hsync, rfl, rfl, hp, rfl, rfl, rfl, hframe⟩

/-- Settles O25, with and without a pending `boot_reset()`. -/
theorem endOfPacketIsDriven : Obligations.EndOfPacketIsDriven := by
  intro s hp
  have heop : exec .eop s = .next (txEop s) := by rw [exec_eop, if_pos hp]
  have hframe := eop_frame heop
  rw [txEop_eq] at heop hframe
  refine ⟨_, heop, rfl, rfl, rfl, rfl, rfl, hframe, fun hb => ?_, fun hb => ?_⟩
  · simp [hb, eopSymbols_eq]
  · simp [hb, eopSymbols_eq]

/-! ## A whole frame -/

/-- Settles O26: the step of SYNC, one step a bit, and the step of EOP. -/
theorem transmittingDrivesTheFrame : Obligations.TransmittingDrivesTheFrame := by
  rintro s bytes hr hh ⟨hp, hc, -, hl, ho, hy, hb⟩
  have hsync := Steps.one (step_txSync hr hh hp hc hy hl ho)
  obtain ⟨level, ones, hbits⟩ := tx_run (bitsLsb bytes) { s with
    tx := { s.tx with level := .K, ones := 1, synced := true }
    io := { s.io with out := s.io.out ++ syncPattern.map Output.sym } } hr hh hp hc rfl hb (by decide : 1 < STUFF_RUN)
  have heop := Steps.one (step_txEop (s := { s with
    tx := { s.tx with level := level, ones := ones, synced := true, bits := [] }
    io := { s.io with out := s.io.out ++ syncPattern.map Output.sym ++
      (nrziEncode .K (stuff 1 (bitsLsb bytes))).map Output.sym } }) hr hh hp hc rfl rfl)
  rw [txEop_eq] at heop
  have hrun := (hsync.trans hbits).trans heop
  rw [show 1 + (bitsLsb bytes).length + 1 = 8 * bytes.length + 2 by rw [bitsLsb_length]; omega] at hrun
  refine ⟨_, hrun, rfl, rfl, ?_, ?_, ?_, rfl, rfl, hr, hc, rfl⟩
  · simp [frame_eq]
  · simp [hh]
  · simp [State.registers, hh]

/-- Settles O28: a run of ones is broken within seven bits, and no two byte lists are stuffed and encoded alike. -/
theorem stuffingIsSafeAndLosesNothing : Obligations.StuffingIsSafeAndLosesNothing :=
  ⟨fun bits k hk => stuff_window bits 0 (by decide) k hk, frame_injective⟩

/-! ## Taking up a `send` -/

theorem fetch_waiting {s : State} {c : SendCmd} (hp : s.rxPhase = .transmit) (hc : s.tx.cmd = some c) : fetch s = .send c := by
  simp [fetch, hp, hc]

/-- Inside the contract the command is decoded to one of the two instructions (spec/30_encoding.md R99). -/
theorem decodeSend_of_contract {c : SendCmd} (h : SendInContract c) :
    decodeSend c = .ok (.sendNoCrc c.token c.ptr c.len) ∨ decodeSend c = .ok (.sendCrc16 c.token c.ptr c.len) := by
  obtain ⟨hpoly | hpoly, hlen⟩ := h <;> simp [decodeSend, hpoly, hlen]

/-- Outside the contract the command is refused (spec/40_transmit.md R133). -/
theorem decodeSend_of_not_contract {c : SendCmd} (h : ¬ SendInContract c) :
    decodeSend c = .error .reservedPoly ∨ decodeSend c = .error .sendTooLong := by
  simp only [decodeSend]
  split
  · next hpoly => exact .inr (if_neg fun hlen => h ⟨.inl hpoly, hlen⟩)
  split
  · next hpoly => exact .inr (if_neg fun hlen => h ⟨.inr hpoly, hlen⟩)
  · exact .inl rfl

/-- Settles O7: the decoder accepts the `send` exactly inside the contract, and what it accepts completes. -/
theorem sendOutsideTheContractIsRefused : Obligations.SendOutsideTheContractIsRefused := by
  intro s c hr hp hc
  have hfetch : decode (fetch s) = decodeSend c := by rw [fetch_waiting hp hc]; rfl
  refine ⟨fun h => ?_, fun h => ?_⟩
  · obtain hd | hd := decodeSend_of_contract h
    · exact ⟨_, (step_of_decode hr (hfetch.trans hd)).trans (exec_sendNoCrc _ _ _ h.2)⟩
    · exact ⟨_, (step_of_decode hr (hfetch.trans hd)).trans (exec_sendCrc16 _ _ _ h.2)⟩
  · obtain hd | hd := decodeSend_of_not_contract h
    · exact ⟨_, step_of_reject hr (hfetch.trans hd)⟩
    · exact ⟨_, step_of_reject hr (hfetch.trans hd)⟩

/-- Settles O22: the payload is what the source memory space reads at the pointer. -/
theorem sendLoadsTheBytes : Obligations.SendLoadsTheBytes := by
  intro s token ptr len
  refine ⟨fun hlen => ⟨sourceReadN s ptr len, sourceReadN_length .., fun k hk => ?_, ?_, ?_⟩, fun hlen => ⟨?_, ?_⟩⟩
  · simp [sourceReadN, hk]
  · have h := exec_sendNoCrc token ptr s hlen
    exact ⟨_, h, loadTx_atFrameStart _ s, rfl, rfl, rfl, rfl, rfl, lineOrSend_frame rfl h⟩
  · have h := exec_sendCrc16 token ptr s hlen
    exact ⟨_, h, loadTx_atFrameStart _ s, rfl, rfl, rfl, rfl, rfl, lineOrSend_frame rfl h⟩
  · exact if_neg (Nat.not_le.2 hlen)
  · exact if_neg (Nat.not_le.2 hlen)

end Sys2Proof.Machine
end

section
/-! PROOFS. When the driver is on: what a step can put out. -/

namespace Sys2Proof.Machine

open Config

/-- What a step from `s` to `t` puts out. -/
inductive PutsOut (s t : State) : Prop
  | nothing (hout : t.io.out = s.io.out)
  /-- Symbols driven, and `boot_reset()` after the last of them (spec/40_transmit.md R125, spec/44_endpoint.md R268). -/
  | driven (hoe : s.tx.oe = true) (syms : List LineSymbol) (boot : Bool)
      (hout : t.io.out = s.io.out ++ (syms.map Output.sym ++ if boot then [Output.bootReset] else []))
  /-- The gap before a response, after which the driver is enabled (spec/70_reset_and_hazards.md R381). -/
  | gap (hoff : s.tx.oe = false) (hon : t.tx.oe = true) (n : Nat) (hout : t.io.out = s.io.out ++ List.replicate n Output.idle)
  /-- A trim step (spec/45_se0_trim.md R307). -/
  | trim (hp : s.rxPhase = .preamble) (hout : t.io.out = s.io.out ++ [Output.oscCtl t.chip.oscCtl])

/-! ## The transmit unit -/

/-- What a bit drives is that bit stuffed and encoded (spec/40_transmit.md R123, R124). -/
theorem txBit_out (b : Bool) (s : State) :
    (txBit b s).io.out = s.io.out ++ (nrziEncode s.tx.level (stuff s.tx.ones [b])).map Output.sym := by
  cases b with
  | false => rfl
  | true =>
    by_cases h : s.tx.ones + 1 = STUFF_RUN
    · rw [txBit_sixth h, stuff_sixth _ _ h]; rfl
    · rw [txBit_one h, stuff_one _ _ h]; rfl

theorem txBits_out (bits : List Bool) : ∀ s : State,
    ∃ syms : List LineSymbol, (bits.foldl (fun s b => txBit b s) s).io.out = s.io.out ++ syms.map Output.sym := by
  induction bits with
  | nil => exact fun s => ⟨[], by simp⟩
  | cons b bs ih =>
    intro s
    obtain ⟨syms, h⟩ := ih (txBit b s)
    exact ⟨nrziEncode s.tx.level (stuff s.tx.ones [b]) ++ syms, by rw [List.foldl_cons, h, txBit_out]; simp⟩

/-- Everything a step of a transmission in progress can do. -/
theorem step_driving_cases {s t : State} (hr : s.io.rst = false) (hh : s.halted = false) (hp : s.rxPhase = .transmit)
    (hc : s.tx.cmd = none) (hst : step s = .next t) :
    t = txSync { s with tx := { s.tx with synced := true } } ∨
    (∃ b bs, s.tx.bits = b :: bs ∧ t = txBit b { s with tx := { s.tx with bits := bs } }) ∨
    t = txEop s := by
  cases hy : s.tx.synced with
  | false =>
    have hd : decode (fetch s) = .ok .sync := by simp only [fetch, hp, hc, hy]; rfl
    have ha : advance s = { s with tx := { s.tx with synced := true } } := by simp [advance, hp, hc, hy]
    rw [step_of_decode ⟨hr, hh, by simp [hp]⟩ hd, ha, exec_sync, if_pos (by exact hp)] at hst
    cases hst
    exact .inl rfl
  | true =>
    cases hb : s.tx.bits with
    | nil =>
      cases (step_txEop hr hh hp hc hy hb).symm.trans hst
      exact .inr (.inr rfl)
    | cons b bs =>
      cases (step_txBit hr hh hp hc hy hb).symm.trans hst
      exact .inr (.inl ⟨b, bs, rfl, rfl⟩)

/-- A step of a transmission in progress drives symbols. -/
theorem putsOut_driving {s t : State} (hr : s.io.rst = false) (hh : s.halted = false) (hp : s.rxPhase = .transmit)
    (hc : s.tx.cmd = none) (hoe : s.tx.oe = true) (hst : step s = .next t) : PutsOut s t := by
  obtain rfl | ⟨b, bs, -, rfl⟩ | rfl := step_driving_cases hr hh hp hc hst
  · obtain ⟨syms, hout⟩ := txBits_out (byteBits 0x80#8) { s with tx := { s.tx with synced := true } }
    exact .driven hoe syms false (hout.trans (by simp))
  · exact .driven hoe (nrziEncode s.tx.level (stuff s.tx.ones [b])) false ((txBit_out ..).trans (by simp))
  · exact .driven hoe eopSymbols s.tx.boot (by rw [txEop_eq]; exact List.append_assoc ..)

/-- Taking up a `send` puts out the gap and nothing else. -/
theorem putsOut_send {s t : State} {i : Instr} {c : SendCmd} (hp : s.rxPhase = .transmit) (hc : s.tx.cmd = some c)
    (hoe : s.tx.oe = false) (hd : decode (fetch s) = .ok i) (he : exec i (advance s) = .next t) :
    PutsOut s t := by
  rw [show advance s = { s with tx := { s.tx with cmd := none } } by simp [advance, hp, hc]] at he
  rw [fetch_waiting hp hc] at hd
  obtain ⟨hlen, rfl | rfl⟩ := decodeSend_ok hd
  · cases (exec_sendNoCrc _ _ _ hlen).symm.trans he
    exact .gap hoe rfl _ rfl
  · cases (exec_sendCrc16 _ _ _ hlen).symm.trans he
    exact .gap hoe rfl _ rfl

/-! ## Reception and the handlers -/

theorem advance_out (s : State) : (advance s).io.out = s.io.out := by
  obtain h | ⟨_, h⟩ := advance_io s <;> rw [h]

@[simp] theorem withCallback_io (endp : BitVec 4) (s : State) : (withCallback endp s).io = s.io := by
  obtain ⟨_, _, h, _, _⟩ := withCallback_eq endp s; rw [h]

/-- No handler but the keepalive's puts anything out. -/
theorem handler_out {i : Instr} {s t : State} (hi : lineOrSend i = false) (hk : i ≠ .keepalive) (h : exec i s = .next t) :
    t.io.out = s.io.out := by
  cases exec_effect h with
  | line hl => exact absurd hl (by simp [hi])
  | keepalive => exact absurd rfl hk
  | silent | answers => simp
  | dropped | ack | duplicate | request | payload | accept | setup | out | fires | drains => rfl

theorem ne_keepalive_of_dispatch {s : State} {i : Instr} (hp : s.rxPhase = .dispatch) (hd : decode (fetch s) = .ok i) :
    i ≠ .keepalive := by
  rintro rfl
  simp only [fetch, hp] at hd
  split at hd
  · simpa using decodePacket_ok hd
  · simpa using decodeUrb_ok hd
  · simpa using decodePayload_ok hd

theorem rxBit_out {b : Bool} {s t : State} (h : rxBit b s = .next t) : t.io.out = s.io.out := by
  obtain rfl | ⟨-, -, rfl⟩ | ⟨-, -, rfl⟩ := rxBit_next h <;> rfl

theorem rxEop_out {s t : State} (h : rxEop s = .next t) : t.io.out = s.io.out := by
  obtain rfl | ⟨-, -, rfl⟩ := rxEop_next h <;> rfl

/-- Outside transmission only a trim step is put out, while the preamble is looked for. -/
theorem putsOut_receiving {s t : State} {i : Instr} (hi : s.rxPhase ≠ .idle) (hp : s.rxPhase ≠ .transmit)
    (hd : decode (fetch s) = .ok i) (he : exec i (advance s) = .next t) : PutsOut s t := by
  have hnt : (advance s).rxPhase ≠ .transmit := by rwa [advance_rxPhase]
  have hquiet (hout : t.io.out = (advance s).io.out) : PutsOut s t := .nothing (hout.trans (advance_out s))
  cases hph : s.rxPhase with
  | idle => exact absurd hph hi
  | transmit => exact absurd hph hp
  | dispatch => exact hquiet (handler_out (lineOrSend_of_dispatch hph hd) (ne_keepalive_of_dispatch hph hd) he)
  | preamble =>
    simp only [fetch, hph] at hd
    obtain rfl | rfl := matchPreamble_ok hd
    · rw [exec_sync, if_neg hnt] at he
      cases he
      exact hquiet rfl
    · obtain ⟨-, heq⟩ | ⟨dir, -, heq⟩ := execKeepalive_cases (advance s) <;> cases heq.symm.trans he
      · exact hquiet rfl
      · exact .trim hph (by rw [← advance_out s]; rfl)
  | data =>
    simp only [fetch, hph] at hd
    have hbit (b : Bool) (hb : exec (bitInstr b) (advance s) = .next t) : t.io.out = (advance s).io.out := by
      rw [exec_bitInstr, if_neg hnt] at hb
      exact rxBit_out hb
    obtain rfl | rfl | rfl := decodeLine_ok hd
    · rw [exec_eop, if_neg hnt] at he
      exact hquiet (rxEop_out he)
    · exact hquiet (hbit false he)
    · exact hquiet (hbit true he)

/-! ## The step -/

theorem idleStep_out (s : State) : (idleStep s).io.out = s.io.out := by
  rw [idleStep]; split <;> rfl

/-- Under the invariant every step puts out one of the four. -/
theorem step_putsOut {s t : State} (h : Inv s) (hst : step s = .next t) : PutsOut s t := by
  obtain ⟨-, rfl⟩ | ⟨-, -, rfl⟩ | ⟨-, -, -, rfl⟩ | ⟨-, -, -, c, -, rfl⟩ | ⟨hr, hh, hi, i, hd, he⟩ := step_cases hst
  · exact .nothing rfl
  · exact .nothing rfl
  · exact .nothing (idleStep_out s)
  · exact .nothing (advance_out s)
  · by_cases hp : s.rxPhase = .transmit
    · cases hc : s.tx.cmd with
      | some c => exact putsOut_send hp hc (by simpa [hc] using h.driver) hd he
      | none => exact putsOut_driving hr hh hp hc (h.driver.2 ⟨hp, hc⟩) hst
    · exact putsOut_receiving hi hp hd he

/-- Settles O57, by what a step from the invariant can put out. -/
theorem driverIsOnOnlyWhileTransmitting : Obligations.DriverIsOnOnlyWhileTransmitting := by
  refine fun s h => ⟨h.oe_of_not_transmit, fun t hst => ?_⟩
  cases step_putsOut h hst with
  | nothing hout => exact ⟨[], by simp [hout]⟩
  | driven hoe syms boot hout => exact ⟨_, hout, by cases boot <;> simp [hoe]⟩
  | gap hoff hon n hout => exact ⟨_, hout, by simp [hoff, hon, List.mem_replicate]⟩
  | trim hp hout => exact ⟨_, hout, by simp [hp]⟩

end Sys2Proof.Machine
end

section
/-! PROOFS. The calls of `send` the engine makes by itself. -/

namespace Sys2Proof.Machine

open Config

/-- A call the engine makes by itself: ACK without payload, the empty response, or one to eight bytes of the drain
(spec/40_transmit.md R133, spec/60_exceptions.md R334). -/
def EngineCall (s : State) (c : SendCmd) : Prop :=
  c.token ∈ [0xD2#8, 0xC3#8, 0x4B#8] ∧
    ((c.poly = 0 ∧ c.len = 0) ∨ (c.poly = 0 ∧ c.len = 2 ∧ c.ptr = s.cfg.zero2) ∨ (c.poly = 2 ∧ 1 ≤ c.len ∧ c.len ≤ 8))

theorem dataPid_mem (tg : Bool) : dataPid tg ∈ [0xD2#8, 0xC3#8, 0x4B#8] := by
  cases tg <;> decide

theorem engineCall_ack (s : State) : EngineCall s ⟨PID_ACK, 0, 0, 0#8⟩ := ⟨by decide, .inl ⟨rfl, rfl⟩⟩

theorem engineCall_empty (s : State) (tg : Bool) : EngineCall s ⟨dataPid tg, s.cfg.zero2, 2, 0#8⟩ :=
  ⟨dataPid_mem tg, .inr (.inl ⟨rfl, rfl, rfl⟩)⟩

/-- While the drain is not done it has one to eight bytes to send (spec/44_endpoint.md R247). -/
theorem drainLen_bounds {e : EpEntry} (h : drainDone e = false) : 1 ≤ drainLen e ∧ drainLen e ≤ 8 := by
  simp only [drainDone, decide_eq_false_iff_not] at h
  simp only [drainLen, ENDPOINT0_SIZE, hardware_endpoint0Size]
  omega

theorem drain_call {e : EpEntry} {tg : Bool} {s t : State} {c : SendCmd} (h : drain e (dataPid tg) s = .next t)
    (ht : t.tx.cmd = some c) : EngineCall s c := by
  rw [drain] at h
  split at h <;> cases h <;> cases ht
  · exact engineCall_empty s tg
  · next hdone => exact ⟨dataPid_mem tg, .inr (.inr ⟨rfl, drainLen_bounds (by simpa using hdone)⟩)⟩

/-- A silent callback calls no `send`. -/
theorem callUserIn_silent {endp : BitVec 4} {tok : Byte} {s t : State} (hs : s.io.userIn.action = .silent)
    (h : callUserIn endp tok s = .next t) : t.tx.cmd = s.tx.cmd := by
  rw [callUserIn_eq, hs] at h
  cases h
  simp

/-- An IN token: the latch and the drain make calls of the engine's own, and any other is the callback's. -/
theorem inTok_call {addr : BitVec 7} {endp : BitVec 4} {crc : BitVec 5} {s t : State} {c : SendCmd} (hnone : s.tx.cmd = none)
    (h : exec (.inTok addr endp crc) s = .next t) (ht : t.tx.cmd = some c) :
    EngineCall s c ∨ ∃ e, TokenGood addr endp crc s ∧ s.endpoint? endp.toNat = some e ∧ CallbackCalled endp e s ∧
      s.io.userIn.action ≠ .silent := by
  obtain rfl | ⟨e, hg, he, hh⟩ := dispatchToken_next h
  · cases hnone.symm.trans ht
  obtain ⟨-, heq⟩ | ⟨hl, hc, heq⟩ | ⟨-, -, heq⟩ := handleIn_cases endp e s
  · cases heq.symm.trans hh
    cases ht
    exact .inl (engineCall_empty s e.toggleIn)
  · refine .inr ⟨e, (tokenFault_eq_none ..).1 hg, he, callbackCalled_of_flags hl hc, fun hs => ?_⟩
    have hcmd := callUserIn_silent (by exact hs) (heq.symm.trans hh)
    cases hnone.symm.trans (hcmd.symm.trans ht)
  · have hcall := drain_call (heq.symm.trans hh) ht
    exact .inl hcall

/-- The line instructions and the `send` commands leave no new `send` waiting. -/
theorem lineOrSend_cmd {i : Instr} {s t : State} (hi : lineOrSend i = true) (h : exec i s = .next t) :
    t.tx.cmd = s.tx.cmd ∨ t.tx.cmd = none := by
  have hbit (b : Bool) (hb : exec (bitInstr b) s = .next t) : t.tx.cmd = s.tx.cmd := by
    rw [exec_bitInstr] at hb
    split at hb
    · cases hb
      obtain ⟨_, _, _, htx, -⟩ := txBit_eq b s
      rw [htx]
    · obtain rfl | ⟨-, -, rfl⟩ | ⟨-, -, rfl⟩ := rxBit_next hb <;> rfl
  cases i with
  | bit0 => exact .inl (hbit false h)
  | bit1 => exact .inl (hbit true h)
  | sync =>
    cases (exec_sync s).symm.trans h
    split
    · obtain ⟨_, _, _, htx, -⟩ := txBits_eq (byteBits 0x80#8) s
      exact .inl (by rw [txSync, htx])
    · exact .inl rfl
  | eop =>
    rw [exec_eop] at h
    split at h
    · cases h
      exact .inl (by rw [txEop_eq])
    · obtain rfl | ⟨-, -, rfl⟩ := rxEop_next h <;> exact .inl rfl
  | sendNoCrc token ptr len =>
    simp only [exec, execSendNoCrc] at h
    split at h <;> cases h
    exact .inr rfl
  | sendCrc16 token ptr len =>
    simp only [exec, execSendCrc16] at h
    split at h <;> cases h
    exact .inr rfl
  | _ => cases hi

/-- Settles O58, by the effect of the instruction: only ACK and the handlers of IN call `send`. -/
theorem engineSendsOnlyAckAndDataInContract : Obligations.EngineSendsOnlyAckAndDataInContract := by
  intro i s t c hnone h ht
  have hkept (hcmd : t.tx.cmd = s.tx.cmd) : False := by cases hnone.symm.trans (hcmd.symm.trans ht)
  cases exec_effect h with
  | line hl =>
    obtain hcmd | hcmd := lineOrSend_cmd hl h
    · exact (hkept hcmd).elim
    · cases hcmd.symm.trans ht
  | keepalive _ _ htx =>
    have hcmd := congrArg Tx.cmd htx
    exact (hkept hcmd).elim
  | dropped | ack | request | payload | setup | out => exact (hkept rfl).elim
  | duplicate | accept => cases ht; exact .inl (engineCall_ack s)
  | fires | silent | answers | drains => exact (inTok_call hnone h ht).imp_right fun ⟨e, he⟩ => ⟨_, _, _, e, rfl, he⟩

end Sys2Proof.Machine
end

section
/-! PROOFS. The line symbols: the sync pattern symbol by symbol, and a symbol of the data loop against the level before it. -/

namespace Sys2Proof

/-- What the first symbol that differs from the pattern gives; `first` is true for `s[0]` (spec/41_receive.md R169). -/
def preambleMismatch (first : Bool) : LineSymbol → Except Reject Instr
  | .SE0 => .ok .keepalive
  | .SE1 => .error (.drop .eSe1)
  | .J => if first then .error (.drop .eGlitch) else .error (.drop .ePreamble)
  | .K => .error (.drop .ePreamble)

/-- A symbol as the pattern has it is passed. The pattern is made of levels, and it starts with K. -/
theorem matchPreamble_agree {e : LineSymbol} {syms : List LineSymbol} {first : Bool} (hlevel : e = .J ∨ e = .K)
    (hfirst : first = true → e = .K) (h : syms.headD .J = e) (es : List LineSymbol) :
    matchPreamble (e :: es) first syms = matchPreamble es false syms.tail := by
  rw [matchPreamble, h]
  obtain rfl | rfl := hlevel
  · cases first with
    | false => rfl
    | true => cases hfirst rfl
  · rfl

theorem matchPreamble_differ {e : LineSymbol} {syms : List LineSymbol} {first : Bool} (h : syms.headD .J ≠ e)
    (es : List LineSymbol) : matchPreamble (e :: es) first syms = preambleMismatch first (syms.headD .J) := by
  rw [matchPreamble]
  cases hx : syms.headD .J with
  | SE0 | SE1 => rfl
  | J => simp [preambleMismatch, show e ≠ .J from fun he => h (hx.trans he.symm)]
  | K => simp [preambleMismatch, show e ≠ .K from fun he => h (hx.trans he.symm)]

/-- After `k` symbols that agree, the rest of the pattern is matched with the rest of the line (spec/41_receive.md R151). -/
theorem matchPreamble_drop {expected : List LineSymbol} (hlevel : ∀ e ∈ expected, e = .J ∨ e = .K) :
    ∀ {first : Bool} {syms : List LineSymbol} {k : Nat}, (first = true → expected.headD .K = .K) → k ≤ expected.length →
      (∀ j, j < k → syms.getD j .J = expected.getD j .J) →
      matchPreamble expected first syms = matchPreamble (expected.drop k) (first && k == 0) (syms.drop k) := by
  induction expected with
  | nil => intro first syms k _ _ _; simp [matchPreamble]
  | cons e es ih =>
    intro first syms k hfirst hk h
    cases k with
    | zero => simp
    | succ k =>
      have hhead : syms.headD .J = e := by simpa [List.headD_eq_head?_getD, List.head?_eq_getElem?] using h 0 (Nat.zero_lt_succ k)
      rw [matchPreamble_agree (hlevel e List.mem_cons_self) hfirst hhead,
        ih (fun x hx => hlevel x (List.mem_cons_of_mem _ hx)) (first := false) (syms := syms.tail) (by simp)
          (Nat.le_of_succ_le_succ hk) (fun j hj => by simpa using h (j + 1) (Nat.succ_lt_succ hj))]
      simp

/-- The pattern after `k` symbols that agree. -/
theorem decode_preamble_drop {syms : List LineSymbol} {k : Nat} (hk : k ≤ 8)
    (h : ∀ j, j < k → syms.getD j .J = syncPattern.getD j .J) :
    decode (.preamble syms) = matchPreamble (syncPattern.drop k) (k == 0) (syms.drop k) :=
  matchPreamble_drop (by decide) (fun _ => rfl) hk h

theorem decodeLine_sym (l : LineLevel) : decodeLine l l.sym = .ok .bit1 := decodeLine_nrziSymbol l true

theorem decodeLine_flip_sym (l : LineLevel) : decodeLine l l.flip.sym = .ok .bit0 := decodeLine_nrziSymbol l false

/-- Settles O11: the symbols that agree are passed, and the first that differs decides. -/
theorem lineSymbolsDecode : Obligations.LineSymbolsDecode := by
  refine ⟨fun syms => ⟨fun h => ?_, fun k hk hagree hdiffer => ?_⟩,
    fun prev => ⟨rfl, rfl, decodeLine_sym prev, decodeLine_flip_sym prev⟩⟩
  · rw [decode_preamble_drop le_rfl h]; rfl
  · have hpat : syncPattern.drop k = syncPattern.getD k .J :: syncPattern.drop (k + 1) := by
      rw [List.drop_eq_getElem_cons (show k < syncPattern.length from hk), List.getD_eq_getElem]
    have hhead : (syms.drop k).headD .J = syms.getD k .J := by
      rw [List.headD_eq_head?_getD, List.head?_drop, List.getD_eq_getElem?_getD]
    rw [decode_preamble_drop hk.le hagree, hpat, matchPreamble_differ (hhead ▸ hdiffer), hhead]
    cases syms.getD k .J with
    | SE0 | SE1 | K => rfl
    | J => simp [preambleMismatch]

end Sys2Proof
end

section
/-! PROOFS. The receive unit: a bit stored, a bit that is not, the end of packet, and a whole frame. -/

namespace Sys2Proof.Machine

open Config

/-! ## The running register -/

/-- A step of the register by whether the bit differs from its lowest (spec/42_crc.md R191). -/
theorem crcStep_eq {w : Nat} (poly reg : BitVec w) (b : Bool) :
    crcStep poly reg b = if reg.getLsbD 0 ≠ b then (reg >>> 1) ^^^ poly else reg >>> 1 := by
  simp [crcStep]

theorem selectPoly_token {pid : Byte} (h : pid ∈ [PID_IN, PID_OUT, PID_SETUP]) : selectPoly pid = .crc5 :=
  if_pos (by simpa using h)

theorem selectPoly_data {pid : Byte} (h : pid ∈ [PID_DATA0, PID_DATA1]) : selectPoly pid = .crc16 := by
  have hpid : pid = PID_DATA0 ∨ pid = PID_DATA1 := by simpa using h
  obtain rfl | rfl := hpid <;> rfl

theorem selectPoly_other {pid : Byte} (h : pid ∉ [PID_IN, PID_OUT, PID_SETUP, PID_DATA0, PID_DATA1]) : selectPoly pid = .none := by
  simp only [List.mem_cons, List.not_mem_nil, or_false, not_or] at h
  simp only [selectPoly, h, or_self, if_false]

theorem pktPush_crc_before_pid {p : Pkt} (h : p.nbits < 7) (b : Bool) : (pktPush p b).crc = p.crc := by
  rw [pktPush_crc, if_neg (by omega), if_neg (by omega)]

theorem pktPush_crc_after_pid {p : Pkt} (h : 8 ≤ p.nbits) (b : Bool) : (pktPush p b).crc = stepCrc p.poly p.crc b := by
  rw [pktPush_crc, if_neg (by omega), if_pos h]

/-- The bit that completes the PID selects the polynomial and the start of the register (spec/41_receive.md R167). -/
theorem pktPush_selects {p : Pkt} (h : p.nbits + 1 = 8) (b : Bool) {poly : Poly} (hp : selectPoly (pktPush p b).pid = poly) :
    (pktPush p b).poly = poly ∧ (pktPush p b).crc = initCrc poly p.crc := by
  have hpoly : (pktPush p b).poly = poly := by rw [pktPush_poly, if_pos h, hp]
  exact ⟨hpoly, by rw [pktPush_crc, if_pos h, hpoly]⟩

/-- What sixteen zero bits make of the complement's ones is the residual (spec/42_crc.md R193). -/
theorem crc16_ones_zeros : (List.replicate 16 false).foldl (crcStep CRC16_POLY) 0xFFFF#16 = CRC16_RESIDUAL := by
  simp [List.replicate_succ, crcStep, CRC16_POLY, CRC16_RESIDUAL]

/-- The residual is good exactly for the CRC16 of the payload (spec/42_crc.md R194). -/
theorem crc16Reg_payload_field (payload : List Byte) (c : BitVec 16) :
    crc16Reg (bitsLsb (payload ++ [lo8 c, hi8 c])) = CRC16_RESIDUAL ↔ c = crc16 payload := by
  have hres := crcReg_residual CRC16_POLY 0xFFFF#16 CRC16_RESIDUAL (by decide) crc16_ones_zeros (crc16Reg (bitsLsb payload))
    ((List.range 16).map c.getLsbD) (by simp)
  rw [bitsLsb_append, bits_lo_hi, crc16Reg, crcReg_append]
  exact hres.trans ⟨bits_injective _ _, fun h => by rw [h, crc16]⟩

/-- The bytes of the packet that the dispatcher decodes are those of the instruction. -/
theorem encode_of_decode_fetch {s : State} (hp : s.rxPhase = .dispatch) (hs : s.stage = .packet) {i : Instr}
    (h : decode (fetch s) = .ok i) : encode i = .packet s.pkt.buf := by
  simp only [fetch, hp, hs] at h
  exact encode_of_decodePacket h

/-- The register of a packet in the dispatcher, in terms of its bytes (spec/41_receive.md R166). -/
theorem Inv.packet_crc {s : State} (hi : Inv s) (hp : s.rxPhase = .dispatch) {pid : Byte} {rest : List Byte}
    (hb : s.pkt.buf = pid :: rest) : (selectPoly pid = .crc16 → s.pkt.crc = crc16Reg (bitsLsb rest)) ∧
      (selectPoly pid = .crc5 → s.pkt.crc.setWidth 5 = crc5Reg (bitsLsb rest)) := by
  obtain ⟨-, htracks, hwhole, hpos⟩ := hi.rxPacket hp
  exact (Machine.packet_crc htracks hwhole (by omega) pid rest hb).2.2

theorem encode_dataInstr (tg : Bool) (payload : List Byte) (crc : BitVec 16) :
    encode (dataInstr tg payload crc) = .packet (dataPid tg :: (payload ++ [lo8 crc, hi8 crc])) := by
  cases tg <;> rfl

theorem selectPoly_dataPid (tg : Bool) : selectPoly (dataPid tg) = .crc16 := by cases tg <;> rfl

theorem encode_tokenInstr (k : TokenKind) (addr : BitVec 7) (endp : BitVec 4) (crc : BitVec 5) :
    ∃ pid, selectPoly pid = .crc5 ∧
      encode (k.instr addr endp crc) = .packet [pid, lo8 (tokenField addr endp crc), hi8 (tokenField addr endp crc)] := by
  cases k with
  | inTok => exact ⟨PID_IN, rfl, rfl⟩
  | outTok => exact ⟨PID_OUT, rfl, rfl⟩
  | setup => exact ⟨PID_SETUP, rfl, rfl⟩

/-- Settles O15: the register is that of the bytes after the PID, and those are the encoding's. -/
theorem runningRegisterDecidesAsTheFieldsDo : Obligations.RunningRegisterDecidesAsTheFieldsDo := by
  intro s hi hp hs
  refine ⟨fun tg payload crc h => ?_, fun k addr endp crc h => ?_⟩
  · have hbuf := Code.packet.inj ((encode_of_decode_fetch hp hs h).symm.trans (encode_dataInstr ..))
    rw [crc16Good_eq_true, (hi.packet_crc hp hbuf).1 (selectPoly_dataPid tg)]
    exact crc16Reg_payload_field payload crc
  · obtain ⟨pid, hpid, henc⟩ := encode_tokenInstr k addr endp crc
    have hbuf := Code.packet.inj ((encode_of_decode_fetch hp hs h).symm.trans henc)
    rw [(hi.packet_crc hp hbuf).2 hpid, bits_lo_hi]
    rfl

/-! ## One symbol -/

theorem endInvocation_returned (s : State) : Returned s (endInvocation s) := ⟨rfl, rfl, rfl⟩

theorem exec_bitInstr_received {s : State} (hp : s.rxPhase ≠ .transmit) (b : Bool) : exec (bitInstr b) s = rxBit b s := by
  rw [exec_bitInstr, if_neg hp]

/-- A data bit is stored while the run is no stuffing run and the packet has room (spec/41_receive.md R158, R159, R165). -/
theorem exec_bitInstr_stored {s : State} (hp : s.rxPhase ≠ .transmit) (ho : s.rx.ones ≠ 6) (hn : s.pkt.nbits < 96) (b : Bool) :
    exec (bitInstr b) s = .next { s with
      rx := { prev := levelAfter s.rx.prev b, ones := if b then s.rx.ones + 1 else 0 }
      pkt := pktPush s.pkt b } :=
  (exec_bitInstr_received hp b).trans (rxBit_stored b ho hn.ne)

theorem rxBit_violation {s : State} (h : s.rx.ones = STUFF_RUN) : rxBit true s = .next (endInvocation s) := by
  simp [rxBit, h]

theorem rxBit_overlong {s : State} (ho : s.rx.ones ≠ STUFF_RUN) (hn : s.pkt.nbits = 8 * PACKET_BUF_CAP) (b : Bool) :
    rxBit b s = .next (endInvocation s) := by
  simp [rxBit, ho, hn]

/-- Settles O16, from the definition of the receive unit's start. -/
theorem syncStartsTheDataLoop : Obligations.SyncStartsTheDataLoop := by
  intro s hp
  have hsync : exec .sync s = .next (rxSync s) := by rw [exec_sync, if_neg hp]
  exact ⟨_, hsync, rfl, rfl, rfl, rfl, rfl, rfl, rfl, rfl, rfl, rfl, rfl, sync_frame hsync⟩

/-- Settles O17: the byte being assembled gets the bit, and is stored when it is full. -/
theorem dataBitIsStored : Obligations.DataBitIsStored := by
  intro s b hp ho hn
  have hbit := exec_bitInstr_stored hp ho hn b
  have hk : s.pkt.nbits % 8 < 8 := Nat.mod_lt _ (by decide)
  refine ⟨_, setBit s.pkt.cur (s.pkt.nbits % 8) b, hbit, rfl, rfl, pktPush_nbits .., ?_, fun k hk8 hne => ?_,
    pktPush_buf_full s.pkt b, pktPush_buf_part s.pkt b, pktPush_pid .., rfl, rfl, rfl, rfl, bitInstr_frame hbit⟩
  · rw [setBit_getLsbD _ _ _ _ hk, if_pos rfl]
  · rw [setBit_getLsbD _ _ _ _ hk8, if_neg hne]

/-- Settles O18, by whether the bit comes before, completes or comes after the PID. -/
theorem pidSelectsTheCrcAndLaterBitsEnterIt : Obligations.PidSelectsTheCrcAndLaterBitsEnterIt := by
  intro s b hp ho hn
  refine ⟨_, exec_bitInstr_stored hp ho hn b, fun hne => ?_, fun h7 => pktPush_crc_before_pid h7 b,
    fun h8 => ⟨fun hpid => pktPush_selects h8 b (selectPoly_token hpid), fun hpid => pktPush_selects h8 b (selectPoly_data hpid),
      fun hpid => (pktPush_selects h8 b (selectPoly_other hpid)).1⟩,
    fun h8 hpoly => ?_, fun h8 hpoly => ?_, fun h8 hpoly => ?_⟩
  · exact (pktPush_poly ..).trans (if_neg hne)
  · rw [pktPush_crc_after_pid h8, hpoly]
    exact crcStep_eq ..
  · rw [pktPush_crc_after_pid h8, hpoly, stepCrc, BitVec.setWidth_setWidth_of_le _ (by decide), BitVec.setWidth_eq]
    exact crcStep_eq ..
  · rw [pktPush_crc_after_pid h8, hpoly]
    rfl

/-- Settles O19: the stuffed 0, the seventh 1, the bit beyond the capacity, and the bit that is stored. -/
theorem bitsThatAreNotStored : Obligations.BitsThatAreNotStored := by
  intro s hp
  refine ⟨fun ho => ?_, fun ho => ?_, fun ho hn b => ?_, fun ho hn b => ?_⟩
  · have hbit := (exec_bitInstr_received hp false).trans (rxBit_unstuffed ho)
    exact ⟨_, hbit, rfl, rfl, rfl, rfl, rfl, rfl, rfl, bitInstr_frame hbit⟩
  · have hbit := (exec_bitInstr_received hp true).trans (rxBit_violation ho)
    exact ⟨_, hbit, endInvocation_returned s, rfl, rfl, rfl, rfl⟩
  · have hbit := (exec_bitInstr_received hp b).trans (rxBit_overlong ho hn b)
    exact ⟨_, hbit, endInvocation_returned s, rfl, rfl, rfl, rfl⟩
  · exact ⟨_, exec_bitInstr_stored hp ho hn b, pktPush_nbits .., rfl⟩

/-- Settles O20, by whether the packet is a whole number of bytes. -/
theorem endOfPacketChecksAlignment : Obligations.EndOfPacketChecksAlignment := by
  intro s hp
  have heop : exec .eop s = rxEop s := by rw [exec_eop, if_neg hp]
  by_cases h : s.pkt.nbits = 0 ∨ s.pkt.nbits % 8 ≠ 0
  · rw [rxEop, if_pos h, drop_eq] at heop
    exact ⟨_, heop, fun _ => endInvocation_returned s, fun hn => absurd h hn, rfl, rfl, rfl, rfl, eop_frame heop⟩
  · rw [rxEop, if_neg h] at heop
    exact ⟨_, heop, fun hn => absurd hn h, fun _ => ⟨rfl, rfl, rfl⟩, rfl, rfl, rfl, rfl, eop_frame heop⟩

/-! ## A whole frame -/

/-- A packet record that tracks its bytes has the first as the PID, and the register of those after it
(spec/41_receive.md R159, R166). -/
theorem CrcTracks.of_bytes {p : Pkt} (hc : CrcTracks p) {bytes : List Byte} (hpos : 1 ≤ bytes.length)
    (hn : p.nbits = 8 * bytes.length) (hb : p.buf = bytes) : p.pid = bytes.headD 0 ∧
      (p.pid ∈ [PID_DATA0, PID_DATA1] → p.crc = crc16Reg (bitsLsb bytes.tail)) ∧
      (p.pid ∈ [PID_IN, PID_OUT, PID_SETUP] → p.crc.setWidth 5 = crc5Reg (bitsLsb bytes.tail)) := by
  cases bytes with
  | nil => cases hpos
  | cons pid rest =>
    rw [List.length_cons] at hn
    obtain ⟨rfl, -, hcrc16, hcrc5⟩ := packet_crc hc (by omega) (by omega) pid rest hb
    exact ⟨rfl, fun h => hcrc16 (selectPoly_data h), fun h => hcrc5 (selectPoly_token h)⟩

/-- Settles O21: the step of SYNC, the steps of the bits with those stuffed taken out again, and the step of EOP. -/
theorem receivingAFrameGivesItsBytes : Obligations.ReceivingAFrameGivesItsBytes := by
  intro s bytes rest hpos hcap hr hh hp hline
  rw [frame_eq, List.append_assoc, List.append_assoc] at hline
  obtain ⟨-, htracks, hnbits, hbuf⟩ := pktPush_bytes s.pkt bytes hcap
  obtain ⟨hpid, hcrc16, hcrc5⟩ := htracks.of_bytes hpos hnbits hbuf
  have hsync := Steps.one (step_rxSync hr hh hp hline)
  obtain ⟨m, level, ones, hbits⟩ := rx_run (bitsLsb bytes)
    (rxSync { s with io := { s.io with lineIn := nrziEncode .K (stuff 1 (bitsLsb bytes)) ++ (eopSymbols ++ rest) } })
    (eopSymbols ++ rest) hr hh rfl (by decide : 1 < STUFF_RUN)
    (by rw [bitsLsb_length]; show 0 + _ ≤ 8 * 12; omega) rfl
  have heop := Steps.one (step_rxEop (s := { s with
    rxPhase := .data
    rx := { prev := level, ones := ones }
    pkt := (bitsLsb bytes).foldl pktPush (pktStart s.pkt)
    io := { s.io with lineIn := eopSymbols ++ rest } }) hr hh rfl rfl (by rw [hnbits]; omega) (by rw [hnbits]; omega))
  exact ⟨_, _, (hsync.trans hbits).trans heop, rfl, rfl, hbuf, hnbits, hpid, hcrc16, hcrc5, rfl, rfl, rfl, rfl, rfl⟩

end Sys2Proof.Machine
end

section
/-! PROOFS. The two CRC checks and the fields they stand for (spec/42_crc.md). -/

namespace Sys2Proof.Machine

/-- A whole token field passes the normalised check exactly if its CRC5 is that of its address and endpoint
(spec/42_crc.md R197). -/
theorem crc5Norm_eq_zero (t : BitVec 16) : crc5Norm t = 0#5 ↔ crc5 (tokenAddr t) (tokenEndp t) = tokenCrc t := by
  have hparts := crc5Norm_tokenField (tokenAddr t) (tokenEndp t) (tokenCrc t)
  rw [tokenField_parts] at hparts
  exact hparts.trans eq_comm

/-- Settles O14: either residual is what the complement's ones leave, so it is reached exactly by the register's own complement. -/
theorem crcChecksMeanRightFields : Obligations.CrcChecksMeanRightFields :=
  ⟨crc16Reg_payload_field, crc5Norm_eq_zero⟩

end Sys2Proof.Machine
end

section
/-! PROOFS. The dispatcher (spec/43_dispatch.md): the classification of a packet, the tests of a token, what is discarded, and a halted
engine. -/

namespace Sys2Proof.Machine

open Config

/-! ## The bits of a token field -/

/-- The low byte is bits 7:0, the high byte bits 15:8 (spec/20_memory.md R68). -/
theorem le16_getLsbD (lo hi : Byte) (k : Nat) :
    (le16 lo hi).getLsbD k = if k < 8 then lo.getLsbD k else hi.getLsbD (k - 8) := by
  simp only [le16, BitVec.getLsbD_or, BitVec.getLsbD_shiftLeft, BitVec.getLsbD_setWidth]
  split
  case isTrue hk => simp [hk, show k < 16 by omega]
  case isFalse hk =>
    have hlo : lo.getLsbD k = false := BitVec.getLsbD_of_ge lo k (by omega)
    cases hbit : hi.getLsbD (k - 8) with
    | false => simp [hlo]
    | true =>
      have hlt := BitVec.lt_of_getLsbD hbit
      simp [hk, show k < 16 by omega, show k - 8 < 16 by omega]

theorem tokenAddr_le16_getLsbD (b1 b2 : Byte) {k : Nat} (hk : k < 7) :
    (tokenAddr (le16 b1 b2)).getLsbD k = b1.getLsbD k := by
  simp [tokenAddr, le16_getLsbD, hk, show k < 8 by omega]

theorem tokenEndp_le16_getLsbD_zero (b1 b2 : Byte) : (tokenEndp (le16 b1 b2)).getLsbD 0 = b1.getLsbD 7 := by
  rw [tokenEndp, BitVec.getLsbD_extractLsb', le16_getLsbD]
  rfl

theorem tokenEndp_le16_getLsbD_succ (b1 b2 : Byte) {k : Nat} (hk : k < 3) :
    (tokenEndp (le16 b1 b2)).getLsbD (k + 1) = b2.getLsbD k := by
  simp [tokenEndp, le16_getLsbD, show k + 1 < 4 by omega, show ¬ 7 + (k + 1) < 8 by omega, show 7 + (k + 1) - 8 = k by omega]

theorem tokenCrc_le16_getLsbD (b1 b2 : Byte) {k : Nat} (hk : k < 5) :
    (tokenCrc (le16 b1 b2)).getLsbD k = b2.getLsbD (k + 3) := by
  simp [tokenCrc, le16_getLsbD, hk, show ¬ 11 + k < 8 by omega, show 11 + k - 8 = k + 3 by omega]

/-! ## The classification by the PID byte -/

/-- The PID byte of a token (spec/30_encoding.md R87). -/
def TokenKind.pid : TokenKind → Byte
  | .inTok => PID_IN
  | .outTok => PID_OUT
  | .setup => PID_SETUP

theorem TokenKind.eq_iff_pid_eq (k l : TokenKind) : k = l ↔ k.pid = l.pid := by
  cases k <;> cases l <;> decide

theorem decodePacket_tokenPid (k : TokenKind) (rest : List Byte) : decodePacket (k.pid :: rest) = decodeToken k.instr rest := by
  cases k <;> rfl

theorem decodePacket_dataPid (tg : Bool) (rest : List Byte) : decodePacket (dataPid tg :: rest) = decodeData (dataInstr tg) rest := by
  cases tg <;> rfl

theorem exists_tokenPid {pid : Byte} (h : pid = 0x69#8 ∨ pid = 0xE1#8 ∨ pid = 0x2D#8) : ∃ k : TokenKind, k.pid = pid := by
  obtain rfl | rfl | rfl := h
  exacts [⟨.inTok, rfl⟩, ⟨.outTok, rfl⟩, ⟨.setup, rfl⟩]

theorem exists_dataPid {pid : Byte} (h : pid = 0xC3#8 ∨ pid = 0x4B#8) : ∃ tg, dataPid tg = pid := by
  obtain rfl | rfl := h
  exacts [⟨false, rfl⟩, ⟨true, rfl⟩]

theorem dataPid_beq_data1 (tg : Bool) : (dataPid tg == 0x4B#8) = tg := by cases tg <;> rfl

/-- A token of another byte count (spec/43_dispatch.md R213). -/
theorem decodeToken_eLength (mk : BitVec 7 → BitVec 4 → BitVec 5 → Instr) {rest : List Byte} (h : rest.length ≠ 2) :
    decodeToken mk rest = .error (.drop .eLength) := by
  unfold decodeToken
  split
  · exact absurd rfl h
  · rfl

/-- A data packet of another byte count (spec/43_dispatch.md R219). -/
theorem decodeData_eLength (mk : List Byte → BitVec 16 → Instr) {rest : List Byte} (h : rest.length < 2 ∨ 10 < rest.length) :
    decodeData mk rest = .error (.drop .eLength) :=
  if_pos (h.imp_right fun hlong => show 8 < rest.length - 2 by omega)

/-- Settles O12, by the class of the PID byte: each class has its format, and every count of bytes outside the format is E_LENGTH. -/
theorem packetsAreClassifiedByThePidByte : Obligations.PacketsAreClassifiedByThePidByte := by
  intro pid rest hlen
  refine ⟨?ack, fun htok => ?token, fun hdata => ?data, fun hother => ?unknown, fun b1 b2 => ?fields⟩
  case ack =>
    rintro rfl
    exact (decodePacket_ack rest).trans (by simp)
  case token =>
    obtain ⟨k, rfl⟩ := exists_tokenPid htok
    simp only [decode, decodePacket_tokenPid]
    refine ⟨fun hcount => decodeToken_eLength _ (by omega), ?_⟩
    rintro b1 b2 rfl
    exact ⟨k, rfl, k.eq_iff_pid_eq .inTok, k.eq_iff_pid_eq .outTok, k.eq_iff_pid_eq .setup⟩
  case data =>
    obtain ⟨tg, rfl⟩ := exists_dataPid hdata
    simp only [decode, decodePacket_dataPid, dataPid_beq_data1]
    refine ⟨fun hcount => decodeData_eLength _ (by omega), ?_⟩
    rintro payload lo hi rfl hpayload
    exact decodeData_append _ payload lo hi hpayload
  case unknown =>
    have hpid : isKnownPid pid = false := by
      simp only [List.mem_cons, List.not_mem_nil, or_false, not_or] at hother
      simp [isKnownPid, PID_ACK, PID_DATA0, PID_DATA1, PID_IN, PID_OUT, PID_SETUP, hother]
    exact (decodePacket_unknownPid hpid rest).trans (if_pos hlen)
  case fields =>
    exact ⟨fun _ => tokenAddr_le16_getLsbD b1 b2, tokenEndp_le16_getLsbD_zero b1 b2, fun _ => tokenEndp_le16_getLsbD_succ b1 b2,
      fun _ => tokenCrc_le16_getLsbD b1 b2⟩

/-! ## The tests of a token, in their order (spec/43_dispatch.md R213) -/

theorem tokenFault_eCrc5 {addr : BitVec 7} {endp : BitVec 4} {crc : BitVec 5} (s : State) (hcrc : crc ≠ crc5 addr endp) :
    tokenFault addr endp crc s = some .eCrc5 :=
  if_pos (mt (crc5Norm_tokenField addr endp crc).1 hcrc)

/-- With the right CRC5 the address filter is next (R214), and then the bound of the endpoint (R215). -/
theorem tokenFault_crc5 (addr : BitVec 7) (endp : BitVec 4) (s : State) : tokenFault addr endp (crc5 addr endp) s =
    if addrIgnored addr s.dev.myAddress then some .eAddr else if s.ep.length ≤ endp.toNat then some .eEndp else none :=
  if_neg (not_not_intro ((crc5Norm_tokenField addr endp _).2 rfl))

theorem addrIgnored_eq_true {addr : BitVec 7} {mine : BitVec 16} (hzero : addr ≠ 0) (hmine : addr.setWidth 16 ≠ mine) :
    addrIgnored addr mine = true :=
  Bool.eq_true_of_not_eq_false fun h => ((addrIgnored_eq_false addr mine).1 h).elim hzero hmine

/-! ## What is discarded -/

theorem endInvocation_handlerFrame (s : State) : HandlerFrame s (endInvocation s) :=
  ⟨fun _ => rfl, rfl, rfl, rfl, rfl, rfl, rfl, rfl, rfl, rfl, rfl⟩

/-- An instruction that only ends the invocation is discarded in silence (spec/60_exceptions.md R330). -/
theorem discarded_of_exec {i : Instr} {s : State} (h : exec i s = .next (endInvocation s)) :
    ∃ t, exec i s = .next t ∧ Returned s t ∧ t.registers = s.registers ∧ t.pkt = s.pkt ∧ HandlerFrame s t :=
  ⟨_, h, endInvocation_returned s, rfl, rfl, endInvocation_handlerFrame s⟩

theorem exec_tokenInstr (k : TokenKind) (addr : BitVec 7) (endp : BitVec 4) (crc : BitVec 5) (s : State) :
    ∃ handler, exec (k.instr addr endp crc) s = dispatchToken addr endp crc s handler := by
  cases k <;> exact ⟨_, rfl⟩

theorem dispatchToken_of_not_good {addr : BitVec 7} {endp : BitVec 4} {crc : BitVec 5} {s : State}
    (h : ¬ TokenGood addr endp crc s) (handler : EpEntry → State → Out) :
    dispatchToken addr endp crc s handler = .next (endInvocation s) := by
  obtain ⟨c, hc⟩ := Option.ne_none_iff_exists'.1 (mt (tokenFault_eq_none addr endp crc s).1 h)
  simp only [dispatchToken, hc, drop_eq]

/-- Settles O33: each test passes exactly if its part of a good token holds, and the first that fails drops the token. -/
theorem tokenTestsPassExactlyGoodTokens : Obligations.TokenTestsPassExactlyGoodTokens := by
  intro addr endp crc s
  refine ⟨tokenFault_eq_none addr endp crc s, tokenFault_eCrc5 s, ?_, ?_, fun k hbad => ?_⟩
  · rintro rfl hzero hmine
    rw [tokenFault_crc5, if_pos (addrIgnored_eq_true hzero hmine)]
  · rintro rfl hours hbound
    rw [tokenFault_crc5, (addrIgnored_eq_false _ _).2 hours, if_neg Bool.false_ne_true, if_pos hbound]
  · obtain ⟨handler, hexec⟩ := exec_tokenInstr k addr endp crc s
    exact discarded_of_exec (hexec.trans (dispatchToken_of_not_good hbad handler))

/-- A wrong residual ends the invocation before anything else is looked at (spec/43_dispatch.md R219). -/
theorem handleData_bad_crc {s : State} (h : s.pkt.crc ≠ 0xB001#16) (pid : Byte) (n : Nat) :
    handleData pid n s = .next (endInvocation s) :=
  if_neg (mt (crc16Good_eq_true s.pkt).1 h)

/-- Settles O40: either packet only ends the invocation. -/
theorem packetsThatAreDiscarded : Obligations.PacketsThatAreDiscarded := fun _ =>
  ⟨fun tg payload crc hbad => discarded_of_exec ((exec_dataInstr tg payload crc _).trans (handleData_bad_crc hbad _ _)),
    fun _ _ => discarded_of_exec rfl⟩

/-! ## A halted engine -/

theorem step_of_halted {s : State} (hrst : s.io.rst = false) (hhalted : s.halted = true) : step s = .next (haltedStep s) := by
  simp [step, stepWith, hrst, hhalted]

/-- Settles O4: the halted step moves the list of bus events and nothing else. -/
theorem haltedEngineTakesNoStep : Obligations.HaltedEngineTakesNoStep := fun s hrst hhalted =>
  ⟨_, step_of_halted hrst hhalted, rfl, rfl, rfl, rfl, rfl, rfl, List.drop_one (l := s.io.events)⟩

end Sys2Proof.Machine
end

section
/-! PROOFS. The tokens (spec/44_endpoint.md R241 to R247): what each handler leaves after a good token. -/

namespace Sys2Proof.Machine

open Config

/-! ## A good token and the frame of its handler -/

/-- A good token goes to its handler with the entry it names (spec/43_dispatch.md R213, R215). -/
theorem dispatchToken_of_good {addr : BitVec 7} {endp : BitVec 4} {crc : BitVec 5} {s : State} {e : EpEntry}
    (hg : TokenGood addr endp crc s) (he : s.endpoint? endp.toNat = some e) (handler : EpEntry → State → Out) :
    dispatchToken addr endp crc s handler = handler e s := by
  simp only [dispatchToken, (tokenFault_eq_none addr endp crc s).2 hg, he]

/-- A good token names an entry (R215). -/
theorem TokenGood.exists_entry {addr : BitVec 7} {endp : BitVec 4} {crc : BitVec 5} {s : State} (hg : TokenGood addr endp crc s) :
    ∃ e, s.endpoint? endp.toNat = some e :=
  ⟨_, List.getElem?_eq_getElem hg.2.2⟩

/-- The entries, the device state, the packet record, the transmit unit, the phase and the rest of the line are what a handler may
move. -/
theorem handlerFrame_update (s : State) {ep : List EpEntry} (dev : Dev) (pkt : Pkt) (tx : Tx) (phase : RxPhase) (stage : Stage)
    (line : List LineSymbol) (hep : ep.length = s.ep.length) : HandlerFrame s { s with
      ep := ep, dev := dev, pkt := pkt, tx := tx, rxPhase := phase, stage := stage, io := { s.io with lineIn := line } } :=
  ⟨fun _ => rfl, rfl, rfl, rfl, rfl, rfl, rfl, rfl, rfl, rfl, hep⟩

theorem HandlerFrame.trans {s t u : State} (h : HandlerFrame s t) (g : HandlerFrame t u) : HandlerFrame s u where
  memory a := (g.memory a).trans (h.memory a)
  chip := g.chip.trans h.chip
  halted := g.halted.trans h.halted
  rx := g.rx.trans h.rx
  cfg := g.cfg.trans h.cfg
  out := g.out.trans h.out
  events := g.events.trans h.events
  userIn := g.userIn.trans h.userIn
  gap := g.gap.trans h.gap
  rst := g.rst.trans h.rst
  entries := g.entries.trans h.entries

theorem endpoint?_setEp_same {s : State} {i : Nat} (h : i < s.ep.length) (e : EpEntry) : (setEp s i e).endpoint? i = some e :=
  List.getElem?_set_self h

theorem setEp_otherEntriesKept (s : State) (i : Nat) (e : EpEntry) : OtherEntriesKept i s (setEp s i e) := fun _ hj =>
  List.getElem?_set_ne (Ne.symm hj)

/-! ## SETUP and OUT -/

/-- Settles O34: the state the handler leaves, read field by field. -/
theorem setupTokenTearsDownTheTransfer : Obligations.SetupTokenTearsDownTheTransfer := fun s _ endp _ e hg he =>
  ⟨_, dispatchToken_of_good hg he (handleSetup endp), ⟨rfl, rfl, rfl⟩, rfl, endpoint?_setEp_same hg.2.2 (setupEntry e),
    setEp_otherEntriesKept s endp.toNat (setupEntry e), rfl, handlerFrame_update s _ _ _ _ _ _ (List.length_set ..)⟩

/-- Settles O35: the handler writes `current_endpoint` and returns. -/
theorem outTokenRecordsTheEndpoint : Obligations.OutTokenRecordsTheEndpoint := by
  intro s addr endp crc hg
  obtain ⟨e, he⟩ := hg.exists_entry
  exact ⟨_, dispatchToken_of_good hg he (handleOut endp), ⟨rfl, rfl, rfl⟩, rfl, rfl, rfl, handlerFrame_update s _ _ _ _ _ _ rfl⟩

/-! ## The three answers to IN -/

/-- The latch comes before the callback and the drain (R243, R244). -/
theorem handleIn_of_latch {endp : BitVec 4} (e : EpEntry) {s : State} (h : latchFires s.dev endp = true) :
    handleIn endp e s = .next (sendEmpty (dataPid e.toggleIn) { selectEndpoint endp s with tx := { s.tx with boot := true } }) :=
  if_pos h

/-- Without the latch, another endpoint than 0 or `custom` goes to the callback (R246). -/
theorem handleIn_of_callback {endp : BitVec 4} {e : EpEntry} {s : State} (h : CallbackCalled endp e s) :
    handleIn endp e s = callUserIn endp (dataPid e.toggleIn) (selectEndpoint endp s) := by
  obtain ⟨hcallback, hlatch⟩ := h
  have hflag : isCallback endp e = true := by simpa [isCallback] using hcallback
  exact (if_neg (mt (latchFires_eq_true s.dev endp).1 hlatch)).trans (if_pos hflag)

/-- Without the latch and without `custom`, endpoint 0 is served by the drain (R247). -/
theorem handleIn_zero_of_drain {e : EpEntry} {s : State} (hcustom : e.custom = false) (hlatch : s.dev.rebootArmed ≠ 2#2) :
    handleIn 0#4 e s = drain e (dataPid e.toggleIn) (selectEndpoint 0#4 s) := by
  have hflag : ¬ isCallback 0#4 e = true := by simp [isCallback, hcustom]
  exact (if_neg fun h => hlatch ((latchFires_eq_true s.dev 0#4).1 h).1).trans (if_neg hflag)

/-- Settles O36: the latch fires, so the empty response is called with `boot_reset()` behind it. -/
theorem inTokenFiresTheLatch : Obligations.InTokenFiresTheLatch := fun s _ _ e hg he hl =>
  have hin := handleIn_of_latch e ((latchFires_eq_true s.dev 0#4).2 ⟨hl, rfl⟩)
  ⟨_, (dispatchToken_of_good hg he (handleIn 0#4)).trans hin, rfl, rfl, rfl, rfl, rfl, handlerFrame_update s _ _ _ _ _ _ rfl⟩

/-! ## The drain -/

/-- The offset is the count times 8 modulo 2^32 (R247). -/
theorem drainOffset_toNat (e : EpEntry) : (drainOffset e).toNat = e.count.toNat * 8 % 2 ^ 32 :=
  BitVec.toNat_mul ..

theorem drain_of_done {e : EpEntry} (h : e.maxLen.toNat ≤ (drainOffset e).toNat) (tok : Byte) (s : State) :
    drain e tok s = .next (sendEmpty tok s) :=
  if_pos (decide_eq_true h)

theorem drain_of_left {e : EpEntry} (h : (drainOffset e).toNat < e.maxLen.toNat) (tok : Byte) (s : State) :
    drain e tok s = .next (callSend ⟨tok, e.source + drainOffset e, drainLen e, 2#8⟩ s) :=
  if_neg (by simpa [drainDone] using h)

/-- Settles O37, by whether the offset has reached the armed length. -/
theorem inTokenDrainsTheBuffer : Obligations.InTokenDrainsTheBuffer := by
  intro s addr crc e hg he hcustom hlatch
  have hin := (dispatchToken_of_good hg he (handleIn 0#4)).trans (handleIn_zero_of_drain hcustom hlatch)
  rw [← drainOffset_toNat, BitVec.ofNat_toNat, BitVec.setWidth_eq]
  by_cases hdone : e.maxLen.toNat ≤ (drainOffset e).toNat
  · refine ⟨_, hin.trans (drain_of_done hdone ..), rfl, rfl, rfl, handlerFrame_update s _ _ _ _ _ _ rfl, fun _ => ⟨rfl, rfl⟩, ?_⟩
    exact fun hleft => absurd hdone (Nat.not_le.2 hleft)
  · have hleft := Nat.not_le.1 hdone
    exact ⟨_, hin.trans (drain_of_left hleft ..), rfl, rfl, rfl, handlerFrame_update s _ _ _ _ _ _ rfl,
      fun hdone' => absurd hdone' hdone, fun _ => ⟨rfl, rfl⟩⟩

/-! ## The callback -/

/-- The callback's action comes after its writes: it returns in silence or calls one `send` (R262). -/
theorem callUserIn_action (endp : BitVec 4) (tok : Byte) (s : State) : ∃ t, callUserIn endp tok s = .next t ∧
    t.ep = (withCallback endp s).ep ∧ t.dev = s.dev ∧ t.pkt = (withCallback endp s).pkt ∧
    t.freeCount = (withCallback endp s).freeCount ∧ HandlerFrame (withCallback endp s) t ∧
    (s.io.userIn.action = .silent → Returned s t) ∧
    (∀ token ptr len poly, s.io.userIn.action = .send token ptr len poly → CallsSend ⟨token.getD tok, ptr, len, poly⟩ s t) ∧
    (∀ token, s.io.userIn.action = .empty token → CallsSend ⟨token.getD tok, s.cfg.zero2, 2, 0#8⟩ s t) := by
  rw [callUserIn_eq]
  cases s.io.userIn.action with
  | silent =>
    exact ⟨_, rfl, rfl, withCallback_dev .., rfl, rfl, handlerFrame_update _ _ _ _ _ _ _ rfl, fun _ => ⟨rfl, by simp, rfl⟩,
      nofun, nofun⟩
  | send token ptr len poly =>
    refine ⟨_, rfl, rfl, withCallback_dev .., rfl, rfl, handlerFrame_update _ _ _ _ _ _ _ rfl, nofun, ?_, nofun⟩
    rintro _ _ _ _ ⟨⟩
    exact ⟨rfl, by simp⟩
  | empty token =>
    refine ⟨_, rfl, rfl, withCallback_dev .., rfl, rfl, handlerFrame_update _ _ _ _ _ _ _ rfl, nofun, nofun, ?_⟩
    rintro _ ⟨⟩
    exact ⟨rfl, by simp⟩

/-- The callback's writes leave alone what no handler touches. -/
theorem withCallback_handlerFrame (endp : BitVec 4) (s : State) : HandlerFrame s (withCallback endp s) := by
  have hlen := withCallback_ep_length endp s
  obtain ⟨ep, buf, h, -, -⟩ := withCallback_eq endp s
  rw [h] at hlen ⊢
  exact handlerFrame_update s _ _ _ _ _ _ hlen

theorem withCallback_endpoint?_same {endp : BitVec 4} {s : State} {e : EpEntry} (he : s.endpoint? endp.toNat = some e) :
    (withCallback endp s).ep[endp.toNat]? = some (s.io.userIn.entry.getD e) := by
  obtain ⟨hlt, -⟩ := List.getElem?_eq_some_iff.1 he
  rw [withCallback_ep]
  cases s.io.userIn.entry with
  | none => exact he
  | some e' => exact List.getElem?_set_self hlt

theorem withCallback_endpoint?_other {endp : BitVec 4} (s : State) {j : Nat} (hj : j ≠ endp.toNat) :
    (withCallback endp s).ep[j]? = s.ep[j]? := by
  rw [withCallback_ep]
  cases s.io.userIn.entry with
  | none => rfl
  | some e' => exact List.getElem?_set_ne (Ne.symm hj)

/-- A byte of the packet buffer is read from the buffer, and free where it holds none (spec/10_state.md R40). -/
theorem scratchByte_congr {s t : State} (hbuf : t.pkt.buf = s.pkt.buf) (hfree : t.freeCount = s.freeCount) (k : Nat) :
    scratchByte t k = scratchByte s k := by
  simp only [scratchByte, hbuf, hfree]

theorem withCallback_pkt (endp : BitVec 4) (s : State) :
    (withCallback endp s).pkt = { s.pkt with buf := (writesScratch s s.io.userIn.scratch).pkt.buf } := by
  obtain ⟨_, _, h, -, rfl⟩ := withCallback_eq endp s; rw [h]

theorem withCallback_freeCount (endp : BitVec 4) (s : State) : (withCallback endp s).freeCount = s.freeCount := by
  obtain ⟨_, _, h, -, -⟩ := withCallback_eq endp s; rw [h]

theorem writesScratch_freeCount (s : State) (ws : List (Fin PACKET_BUF_CAP × Byte)) : (writesScratch s ws).freeCount = s.freeCount := by
  obtain ⟨_, h⟩ := writesScratch_eq s ws; rw [h]

/-- The callback's writes to the buffer are read in their order (spec/20_memory.md R64). -/
theorem scratchByte_of_callback {endp : BitVec 4} {s t : State} (hpkt : t.pkt = (withCallback endp s).pkt)
    (hfree : t.freeCount = (withCallback endp s).freeCount) (k : Nat) :
    scratchByte t k = scratchByte (writesScratch s s.io.userIn.scratch) k :=
  scratchByte_congr (by rw [hpkt, withCallback_pkt]) (by rw [hfree, withCallback_freeCount, writesScratch_freeCount]) k

/-- Settles O38: the callback's writes come first, and then its action. -/
theorem inTokenCallsTheCallback : Obligations.InTokenCallsTheCallback := by
  intro s addr endp crc e hg he hc
  obtain ⟨t, ht, hep, hdev, hpkt, hfree, hframe, hsilent, hsend, hempty⟩ :=
    callUserIn_action endp (dataPid e.toggleIn) (selectEndpoint endp s)
  have hin := (dispatchToken_of_good hg he (handleIn endp)).trans (handleIn_of_callback hc)
  have hselect : HandlerFrame s (selectEndpoint endp s) := handlerFrame_update s _ _ _ _ _ _ rfl
  have hscratch := scratchByte_of_callback hpkt hfree
  have hrecord := hpkt.trans (withCallback_pkt endp (selectEndpoint endp s))
  refine ⟨t, hin.trans ht, hdev, ?_, fun j hj => ?_, (hselect.trans (withCallback_handlerFrame ..)).trans hframe,
    by rw [hrecord]; rfl, fun hnone => ?_, fun k hk => ?_, fun before k v later hw hlater => ?_, hsilent, hsend, hempty⟩
  · rw [State.endpoint?, hep]
    exact withCallback_endpoint?_same (s := selectEndpoint endp s) he
  · rw [State.endpoint?, hep]
    exact withCallback_endpoint?_other (selectEndpoint endp s) hj
  · rw [hrecord, show (selectEndpoint endp s).io.userIn.scratch = [] from hnone]
    rfl
  · exact (hscratch k).trans (scratchByte_writesScratch_other _ k _ hk)
  · rw [hscratch, show (selectEndpoint endp s).io.userIn.scratch = before ++ (k, v) :: later from hw]
    exact scratchByte_writesScratch_last _ before later k v hlater

end Sys2Proof.Machine
end

section
/-! PROOFS. ACK, the data packets, the requests and the OUT payloads (spec/44_endpoint.md R248 to R259), and the latch over all
instructions. -/

namespace Sys2Proof.Machine

open Config

/-! ## ACK -/

theorem exec_ack {s : State} {e : EpEntry} (h : s.currentEp? = some e) :
    exec .ack s = .next (endInvocation (setCurrentEp s (ackEntry e))) := by
  simp only [exec, execAck, h]

/-- Settles O39: the handler writes the two fields of the current entry and returns. -/
theorem hostAckTogglesAndCounts : Obligations.HostAckTogglesAndCounts := by
  intro s e he
  obtain ⟨hlt, -⟩ := List.getElem?_eq_some_iff.1 he
  exact ⟨_, ackEntry e, exec_ack he, ⟨rfl, rfl, rfl⟩, endpoint?_setEp_same hlt (ackEntry e), rfl, BitVec.toNat_add .., rfl, rfl, rfl, rfl,
    setEp_otherEntriesKept s _ (ackEntry e), rfl, rfl, handlerFrame_update s _ _ _ _ _ _ (List.length_set ..)⟩

/-! ## Data packets -/

/-- A data packet is a duplicate exactly if its sequence bit is not the one `toggle_out` holds (R250). -/
theorem isDuplicate_dataPid (tg : Bool) (e : EpEntry) : isDuplicate (dataPid tg) e = true ↔ e.toggleOut ≠ tg := by
  simp only [isDuplicate]
  cases tg <;> cases e.toggleOut <;> decide

/-- A good data packet with the other sequence bit is acknowledged (R250). -/
theorem exec_dataInstr_duplicate {s : State} {tg : Bool} {e : EpEntry} (hcrc : crc16Good s.pkt = true) (he : s.currentEp? = some e)
    (htg : e.toggleOut ≠ tg) (payload : List Byte) (crc : BitVec 16) : exec (dataInstr tg payload crc) s = .next (sendAck s) := by
  rw [exec_dataInstr, handleData, if_pos hcrc, he]
  exact if_pos ((isDuplicate_dataPid tg e).2 htg)

/-- What becomes of a good data packet with the expected sequence bit (R249, R251, R252). -/
theorem exec_dataInstr_expected {s : State} {e : EpEntry} (hcrc : crc16Good s.pkt = true) (he : s.currentEp? = some e)
    (payload : List Byte) (crc : BitVec 16) : exec (dataInstr e.toggleOut payload crc) s =
      if s.dev.setupRequest then
        if payload.length = 8 then
          .next { setDev s { s.dev with setupRequest := false } with rxPhase := .dispatch, stage := .request }
        else .next (endInvocation s)
      else .next { s with rxPhase := .dispatch, stage := .payload } := by
  rw [exec_dataInstr, handleData, if_pos hcrc, he]
  exact if_neg fun h => (isDuplicate_dataPid _ e).1 h rfl

/-- Settles O41: a duplicate calls `send_ack` and nothing else. -/
theorem duplicateDataIsReAcknowledged : Obligations.DuplicateDataIsReAcknowledged := fun s _ payload crc _ hcrc he htg =>
  ⟨_, exec_dataInstr_duplicate ((crc16Good_eq_true s.pkt).2 hcrc) he htg payload crc, ⟨rfl, rfl⟩, rfl, rfl, rfl,
    handlerFrame_update s _ _ _ _ _ _ rfl⟩

/-- Settles O42: the URB, the URB of a wrong length, and the ordinary payload. -/
theorem expectedDataIsTakenAsUrbOrPayload : Obligations.ExpectedDataIsTakenAsUrbOrPayload := by
  intro s payload crc e hcrc he
  rw [exec_dataInstr_expected ((crc16Good_eq_true s.pkt).2 hcrc) he]
  cases hsetup : s.dev.setupRequest with
  | false =>
    exact ⟨_, rfl, rfl, rfl, handlerFrame_update s _ _ _ _ _ _ rfl, nofun, nofun, fun _ => ⟨rfl, rfl, rfl, rfl⟩⟩
  | true =>
    by_cases hlen : payload.length = 8
    · rw [if_pos rfl, if_pos hlen]
      exact ⟨_, rfl, rfl, rfl, handlerFrame_update s _ _ _ _ _ _ rfl, fun _ _ => ⟨rfl, rfl, rfl, rfl⟩, fun _ h => absurd hlen h, nofun⟩
    · rw [if_pos rfl, if_neg hlen]
      exact ⟨_, rfl, rfl, rfl, handlerFrame_update s _ _ _ _ _ _ rfl, fun _ h => absurd h hlen,
        fun _ _ => ⟨rfl, endInvocation_returned s⟩, nofun⟩

/-! ## Requests and OUT payloads -/

/-- A request or an OUT payload for an endpoint that exists is accepted (R253). -/
theorem exec_accepts {i : Instr} {s : State} {write : EpEntry → EpEntry} {addr : BitVec 16} {latch : BitVec 2} {e : EpEntry}
    (ha : acceptArgs s i = some (write, addr, latch)) (he : s.currentEp? = some e) : ∃ t, exec i s = .next t ∧
      Accepts { write e with toggleOut := !(write e).toggleOut } { s.dev with myAddress := addr, rebootArmed := latch } s t := by
  rw [exec_eq_acceptData ha]
  exact acceptData_accepts he

/-- A packet accepted that arms nothing inverts `toggle_out` of the current entry and writes nothing else there (R253). -/
theorem exec_accepts_toggle {i : Instr} {s : State} {addr : BitVec 16} {latch : BitVec 2} {e : EpEntry}
    (ha : acceptArgs s i = some (id, addr, latch)) (he : s.currentEp? = some e) : ∃ t, exec i s = .next t ∧
      Accepts { e with toggleOut := !e.toggleOut } { s.dev with myAddress := addr, rebootArmed := latch } s t :=
  exec_accepts ha he

/-- Arming writes the transfer's three fields at most (R255). -/
theorem armEntry_kept (answer : Option (Word × Word)) (wLength : BitVec 16) (e : EpEntry) :
    (armEntry answer wLength e).toggleOut = e.toggleOut ∧ (armEntry answer wLength e).toggleIn = e.toggleIn ∧
      (armEntry answer wLength e).custom = e.custom := by
  cases answer <;> exact ⟨rfl, rfl, rfl⟩

/-- Settles O43: the entry accepted is the one armed by what the lookup answers. -/
theorem getDescriptorArmsTheTransfer : Obligations.GetDescriptorArmsTheTransfer := by
  intro s r wValue wIndex wLength e he
  obtain ⟨t, ht, hacc⟩ := exec_accepts (i := .getDescriptor r wValue wIndex wLength) rfl he
  obtain ⟨hout, hin, hcustom⟩ := armEntry_kept (descLookup s.cfg (selector wValue wIndex)) wLength e
  refine ⟨t, _, ht, hacc, congrArg Bool.not hout, hin, hcustom, fun ptr len hhit => ?_, fun hmiss => ?_⟩
  · rw [hhit]
    exact ⟨rfl, armEntry_maxLen ptr len wLength e, rfl⟩
  · rw [hmiss]
    exact ⟨rfl, rfl, rfl⟩

/-- Settles O45: each request is accepted with its address and its latch. -/
theorem otherRequestsWriteAddressAndLatchOnly : Obligations.OtherRequestsWriteAddressAndLatchOnly := fun _ _ he =>
  ⟨fun _ _ _ _ => exec_accepts_toggle rfl he, fun _ _ => exec_accepts_toggle rfl he, fun _ _ _ _ _ => exec_accepts_toggle rfl he⟩

/-- Settles O46: either payload is accepted with its latch. -/
theorem outPayloadMovesTheLatch : Obligations.OutPayloadMovesTheLatch := fun _ _ _ he =>
  ⟨exec_accepts_toggle rfl he, exec_accepts_toggle rfl he⟩

/-! ## The latch -/

/-- The latch after an instruction is the one a request or an OUT payload brings, and else as before (R259). -/
theorem exec_latch {i : Instr} {s t : State} (h : exec i s = .next t) :
    t.dev.rebootArmed = ((acceptArgs s i).map fun args => args.2.2).getD s.dev.rebootArmed := by
  cases ha : acceptArgs s i with
  | some args =>
    rw [exec_eq_acceptData ha] at h
    obtain ⟨e, -, rfl⟩ := acceptData_next h
    rfl
  | none =>
    obtain hd | ⟨-, _, _, _, hd⟩ | ⟨_, _, _, ha', -⟩ | ⟨_, _, _, -, -, -, hd⟩ | ⟨_, _, _, _, -, -, hd⟩ := (exec_effect h).dev_cases
    · rw [hd]; rfl
    · rw [hd]; rfl
    · cases ha.symm.trans ha'
    · rw [hd]; rfl
    · rw [hd]; rfl

/-- Settles O51, each row of the table by what the instruction brings. -/
theorem latchMovesOnlyAsTheTableSays : Obligations.LatchMovesOnlyAsTheTableSays := by
  intro i s t h
  rw [exec_latch h]
  cases i <;> rfl

end Sys2Proof.Machine
end

section
/-! PROOFS. BOOT_RESET (spec/44_endpoint.md R244, R268): which step puts it out, and what stands before it. -/

namespace Sys2Proof.Machine

open Config

/-! ## What puts out no BOOT_RESET -/

/-- From `s` to `t` the engine is not halted and BOOT_RESET is not put out. -/
structure NoBootReset (s t : State) : Prop where
  halted : t.halted = true → s.halted = true
  out : ∃ more, t.io.out = s.io.out ++ more ∧ Output.bootReset ∉ more

theorem NoBootReset.of_eq {s t : State} (hh : t.halted = s.halted) (hout : t.io.out = s.io.out) : NoBootReset s t :=
  ⟨fun h => hh ▸ h, [], by simp [hout]⟩

theorem noBootReset_bit {b : Bool} {s t : State} (h : exec (bitInstr b) s = .next t) : NoBootReset s t := by
  rw [exec_bitInstr] at h
  split at h
  · cases h
    obtain ⟨_, _, more, htx, -, hmore⟩ := txBit_eq b s
    rw [htx]
    exact ⟨id, more, rfl, hmore⟩
  · obtain rfl | ⟨-, -, rfl⟩ | ⟨-, -, rfl⟩ := rxBit_next h <;> exact .of_eq rfl rfl

theorem noBootReset_sync {s t : State} (h : exec .sync s = .next t) : NoBootReset s t := by
  cases (exec_sync s).symm.trans h
  split
  · obtain ⟨_, _, more, htx, -, hmore⟩ := txBits_eq (byteBits 0x80#8) s
    rw [txSync, htx]
    exact ⟨id, more, rfl, hmore⟩
  · exact .of_eq rfl rfl

theorem noBootReset_loadTx (bytes : List Byte) (s : State) : NoBootReset s (loadTx bytes s) :=
  ⟨id, _, rfl, by simp [List.mem_replicate]⟩

theorem noBootReset_keepalive {s t : State} (h : exec .keepalive s = .next t) : NoBootReset s t := by
  obtain ⟨-, heq⟩ | ⟨dir, -, heq⟩ := execKeepalive_cases s <;> cases heq.symm.trans h
  · exact .of_eq rfl rfl
  · exact ⟨id, _, rfl, by simp⟩

/-- Of the line instructions and the `send` commands the end of a transmission alone can put out BOOT_RESET. -/
theorem lineOrSend_noBootReset {i : Instr} {s t : State} (hi : lineOrSend i = true) (h : exec i s = .next t) :
    NoBootReset s t ∨ (i = .eop ∧ s.rxPhase = .transmit) := by
  cases i with
  | sync => exact .inl (noBootReset_sync h)
  | bit0 => exact .inl (noBootReset_bit (b := false) h)
  | bit1 => exact .inl (noBootReset_bit (b := true) h)
  | eop =>
    rw [exec_eop] at h
    split at h
    · exact .inr ⟨rfl, by assumption⟩
    · obtain rfl | ⟨-, -, rfl⟩ := rxEop_next h <;> exact .inl (.of_eq rfl rfl)
  | sendNoCrc token ptr len =>
    simp only [exec, execSendNoCrc] at h
    split at h <;> cases h
    exact .inl (noBootReset_loadTx _ s)
  | sendCrc16 token ptr len =>
    simp only [exec, execSendCrc16] at h
    split at h <;> cases h
    exact .inl (noBootReset_loadTx _ s)
  | _ => cases hi

/-- The end of a transmission alone can put out BOOT_RESET. -/
theorem exec_noBootReset {i : Instr} {s t : State} (h : exec i s = .next t) :
    NoBootReset s t ∨ (i = .eop ∧ s.rxPhase = .transmit) := by
  cases exec_effect h with
  | line hl => exact lineOrSend_noBootReset hl h
  | keepalive => exact .inl (noBootReset_keepalive h)
  | silent | answers => exact .inl (.of_eq (by simp) (by simp))
  | dropped | ack | duplicate | request | payload | accept | setup | out | fires | drains => exact .inl (.of_eq rfl rfl)

/-! ## The end of a transmission -/

/-- The place where the end of packet is driven: every bit of the `send` has been (spec/40_transmit.md R125). -/
def AtFrameEnd (s : State) : Prop := s.rxPhase = .transmit ∧ s.tx.cmd = none ∧ s.tx.synced = true ∧ s.tx.bits = []

/-- The transmit unit fetches EOP at the end of the frame only. -/
theorem atFrameEnd_of_decode_eop {s : State} (hp : s.rxPhase = .transmit) (hd : decode (fetch s) = .ok .eop) : AtFrameEnd s := by
  simp only [fetch, hp] at hd
  split at hd
  · next c _ =>
    obtain ⟨-, h | h⟩ := decodeSend_ok hd <;> cases h
  · next hc =>
    split at hd
    · next hy =>
      split at hd
      · next b _ _ =>
        rw [decode, decodeLine_nrziSymbol] at hd
        cases b <;> cases hd
      · next hb => exact ⟨hp, hc, hy, hb⟩
    · cases hd

theorem noBootReset_advance {s t : State} (h : NoBootReset (advance s) t) : NoBootReset s t := by
  obtain ⟨hhalted, more, hout, hmore⟩ := h
  obtain ⟨_, _, _, _, ha⟩ := advance_eq s
  rw [ha] at hhalted hout
  exact ⟨hhalted, more, hout, hmore⟩

/-- A step drives the end of a frame, or puts out no BOOT_RESET. -/
theorem step_noBootReset {s t : State} (hst : step s = .next t) :
    NoBootReset s t ∨ (s.halted = false ∧ AtFrameEnd s ∧ t = txEop s) := by
  obtain ⟨-, rfl⟩ | ⟨-, -, rfl⟩ | ⟨-, hh, -, rfl⟩ | ⟨-, -, -, c, -, rfl⟩ | ⟨hr, hh, -, i, hd, he⟩ := step_cases hst
  · exact .inl ⟨nofun, [], by simp⟩
  · exact .inl (.of_eq rfl rfl)
  · exact .inl (.of_eq (by rw [idleStep]; split <;> rfl) (idleStep_out s))
  · exact .inl (noBootReset_advance (.of_eq rfl rfl))
  · obtain hq | ⟨rfl, hp⟩ := exec_noBootReset he
    · exact .inl (noBootReset_advance hq)
    · have hend := atFrameEnd_of_decode_eop (by simpa using hp) hd
      have ⟨hp, hc, hy, hb⟩ := hend
      cases (step_txEop hr hh hp hc hy hb).symm.trans hst
      exact .inr ⟨hh, hend, rfl⟩

/-- Settles O52: at the end of the frame the pending `boot_reset()` is put out, and the invariant says when one is pending. -/
theorem bootResetIsGuarded : Obligations.BootResetIsGuarded := by
  intro s t h hst
  obtain ⟨hhalted, more, hout, hmore⟩ | ⟨hh, ⟨hp, hc, hy, hb⟩, rfl⟩ := step_noBootReset hst
  · refine ⟨fun hs ht => ?_, fun hcount => ?_⟩
    · rw [hhalted ht] at hs; cases hs
    · rw [hout, List.count_append, List.count_eq_zero.2 hmore] at hcount
      exact absurd rfl hcount
  · rw [txEop_eq]
    cases hboot : s.tx.boot with
    | false => simp [hh, List.count_append, eopSymbols_eq]
    | true =>
      obtain ⟨-, hlatch, hcur, -⟩ := h.boot hboot
      refine ⟨fun _ _ => ⟨hp, hc, hy, hb, hlatch, hcur, rfl, ?_⟩, fun _ => ⟨hh, by simp⟩⟩
      simp [eopSymbols_eq]

/-! ## A `send` from the call to the end of its frame -/

/-- Where a `send` without CRC waits: the gap, the frame of its bytes, and the pending `boot_reset()` (spec/40_transmit.md R126,
spec/70_reset_and_hazards.md R381). -/
theorem sendNoCrc_run {s : State} {token : Byte} {ptr : Word} {len : Nat} (hr : s.io.rst = false) (hh : s.halted = false)
    (hp : s.rxPhase = .transmit) (hc : s.tx.cmd = some ⟨token, ptr, len, 0#8⟩) (hlen : len ≤ MAX_PAYLOAD) :
    ∃ t, Steps (8 * len + 11) s t ∧ t.rxPhase = .idle ∧ t.tx.oe = false ∧ t.tx.boot = false ∧
      t.io.out = s.io.out ++ List.replicate s.io.gap Output.idle ++ (frame (token :: sourceReadN s ptr len)).map Output.sym ++
        (if s.tx.boot then [Output.bootReset] else []) ∧
      t.registers = { s.registers with halted := s.tx.boot } ∧ t.io.events = s.io.events ∧ t.io.rst = false := by
  have hd : decode (fetch s) = .ok (.sendNoCrc token ptr len) := by rw [fetch_waiting hp hc]; exact if_pos hlen
  have hload := step_of_decode ⟨hr, hh, by simp [hp]⟩ hd
  rw [exec_sendNoCrc token ptr _ hlen, show advance s = { s with tx := { s.tx with cmd := none } } by simp [advance, hp, hc]] at hload
  obtain ⟨t, hrun, hidle, hoe, hout, -, hregs, -, hev, hrst, -, hboot⟩ :=
    transmittingDrivesTheFrame _ _ (by exact hr) (by exact hh) (loadTx_atFrameStart (token :: sourceReadN s ptr len)
      { s with tx := { s.tx with cmd := none } })
  rw [List.length_cons, sourceReadN_length] at hrun
  exact ⟨t, .succ hload hrun, hidle, hoe, hboot, hout, hregs, hev, hrst⟩

/-- Settles O53: the invariant says that the empty response waits, and its payload reads as two zero bytes. -/
theorem firingDrivesTheEmptyResponseThenBootReset : Obligations.FiringDrivesTheEmptyResponseThenBootReset := by
  intro s c h hr hc hboot
  obtain ⟨hp, -, -, tg, hq | ⟨hq, -⟩⟩ := h.boot hboot
  · obtain rfl := Option.some.inj (hc.symm.trans hq)
    have hh : s.halted = false := Bool.eq_false_iff.2 fun hh => by cases hp.symm.trans (h.halted hh)
    obtain ⟨t, hrun, hidle, hoe, -, hout, hregs, hev, -⟩ := sendNoCrc_run hr hh hp hc (by decide)
    rw [sourceReadN_zero2, hboot] at hout
    rw [hboot] at hregs
    exact ⟨tg, t, rfl, hrun, hout, congrArg Registers.halted hregs, hidle, hoe, hregs, hev⟩
  · cases hc.symm.trans hq

end Sys2Proof.Machine
end

section
/-! PROOFS. A data packet delivered twice (spec/44_endpoint.md R269). -/

namespace Sys2Proof.Machine

open Config

/-! ## The delivery -/

/-- What the invocation of an event finds of the chip: `OSC_CTL` as another agent may have left it, and its counter value. -/
def BusEvent.chip (ev : BusEvent) (c : Chip) : Chip := { oscCtl := ev.oscCtl.getD c.oscCtl, cycCnt := ev.cycCnt }

/-- The same event finds the same once more. -/
theorem BusEvent.chip_chip (ev : BusEvent) (c : Chip) : ev.chip (ev.chip c) = ev.chip c := by
  cases h : ev.oscCtl <;> simp [BusEvent.chip, h]

/-- The dispatcher stands at the bytes of a data packet of the bus event `ev`, delivered to the idle state `s`. -/
structure Delivered (ev : BusEvent) (later : List BusEvent) (tg : Bool) (payload : List Byte) (s u : State) : Prop where
  running : u.io.rst = false ∧ u.halted = false
  place : u.rxPhase = .dispatch ∧ u.stage = .packet
  buf : u.pkt.buf = dataBytes tg payload
  crc : crc16Good u.pkt = true
  boot : u.tx.boot = s.tx.boot
  registers : u.registers = { s.registers with chip := ev.chip s.chip }
  out : u.io.out = s.io.out
  events : u.io.events = later
  gap : u.io.gap = ev.gap

section Delivery

variable {ev : BusEvent} {later : List BusEvent} {tg : Bool} {payload : List Byte} {s u : State}

theorem Delivered.ep (h : Delivered ev later tg payload s u) : u.ep = s.ep :=
  congrArg Registers.ep h.registers

theorem Delivered.dev (h : Delivered ev later tg payload s u) : u.dev = s.dev :=
  congrArg Registers.dev h.registers

theorem Delivered.currentEp? (h : Delivered ev later tg payload s u) : u.currentEp? = s.currentEp? := by
  rw [State.currentEp?, State.endpoint?, h.ep, h.dev]
  rfl

/-- A frame taken from the line leaves the packet record of its bytes; the interfaces but the line are as before
(spec/41_receive.md R172). -/
theorem receive_run {s : State} {bytes : List Byte} {rest : List LineSymbol} (hpos : 1 ≤ bytes.length)
    (hcap : bytes.length ≤ PACKET_BUF_CAP) (hr : s.io.rst = false) (hh : s.halted = false) (hp : s.rxPhase = .preamble)
    (hline : s.io.lineIn = frame bytes ++ rest) : ∃ k rx line, Steps k s { s with
      rxPhase := .dispatch, stage := .packet, rx := rx, pkt := (bitsLsb bytes).foldl pktPush (pktStart s.pkt)
      io := { s.io with lineIn := line } } := by
  obtain ⟨-, -, hnbits, -⟩ := pktPush_bytes s.pkt bytes hcap
  rw [frame_eq, List.append_assoc, List.append_assoc] at hline
  have hsync := Steps.one (step_rxSync hr hh hp hline)
  obtain ⟨m, level, ones, hbits⟩ := rx_run (bitsLsb bytes)
    (rxSync { s with io := { s.io with lineIn := nrziEncode .K (stuff 1 (bitsLsb bytes)) ++ (eopSymbols ++ rest) } })
    (eopSymbols ++ rest) hr hh rfl (by decide : 1 < STUFF_RUN)
    (by rw [bitsLsb_length]; exact (Nat.zero_add _).le.trans (Nat.mul_le_mul_left 8 hcap)) rfl
  have heop := Steps.one (step_rxEop (s := { s with
    rxPhase := .data
    rx := { prev := level, ones := ones }
    pkt := (bitsLsb bytes).foldl pktPush (pktStart s.pkt)
    io := { s.io with lineIn := eopSymbols ++ rest } }) hr hh rfl rfl (by rw [hnbits]; omega) (by rw [hnbits]; omega))
  exact ⟨_, _, _, (hsync.trans hbits).trans heop⟩

theorem step_of_event {s : State} {ev : BusEvent} {later : List BusEvent} (hr : s.io.rst = false) (hh : s.halted = false)
    (hp : s.rxPhase = .idle) (hev : s.io.events = ev :: later) : step s = .next (enterInvocation ev later s) := by
  simp [step, stepWith, hr, hh, hp, idleStep, hev]

theorem dataBytes_length (tg : Bool) (payload : List Byte) : (dataBytes tg payload).length = payload.length + 3 := by
  simp [dataBytes]

/-- A data packet with a right CRC16 waiting on the line is received (spec/41_receive.md R172, spec/42_crc.md R194). -/
theorem deliver {s : State} {ev : BusEvent} {later : List BusEvent} {tg : Bool} {payload : List Byte} {rest : List LineSymbol}
    (hr : s.io.rst = false) (hh : s.halted = false) (hp : s.rxPhase = .idle) (hev : s.io.events = ev :: later)
    (hmem : ev.memWrites = []) (hlen : payload.length ≤ 8) (hline : ev.line = frame (dataBytes tg payload) ++ rest) :
    ∃ k u, Steps k s u ∧ Delivered ev later tg payload s u := by
  have hcount := dataBytes_length tg payload
  have hcap : (dataBytes tg payload).length ≤ PACKET_BUF_CAP := by show _ ≤ 12; omega
  obtain ⟨-, htracks, hnbits, hbuf⟩ := pktPush_bytes (freePkt s.freeCount) (dataBytes tg payload) hcap
  obtain ⟨k, rx, line, hrun⟩ := receive_run (s := enterInvocation ev later s) (by omega) hcap hr hh rfl hline
  obtain ⟨-, -, hcrc, -⟩ := packet_crc htracks (by omega) (by omega) _ _ hbuf
  refine ⟨_, _, .succ (step_of_event hr hh hp hev) hrun, ⟨hr, hh⟩, ⟨rfl, rfl⟩, hbuf, ?_, rfl, ?_, rfl, rfl, rfl⟩
  · refine (crc16Good_eq_true _).2 ((hcrc (selectPoly_dataPid tg)).trans ?_)
    exact (crc16Reg_payload_field payload _).2 rfl
  · simp [State.registers, hmem, memWrites, BusEvent.chip]

/-! ## What the dispatcher makes of it -/

/-- At the delivered packet the step runs its data instruction. -/
theorem Delivered.step (h : Delivered ev later tg payload s u) (hlen : payload.length ≤ 8) :
    step u = exec (dataInstr tg payload (crc16 payload)) u := by
  obtain ⟨hr, hh⟩ := h.running
  obtain ⟨hp, hs⟩ := h.place
  have hd : decode (fetch u) = .ok (dataInstr tg payload (crc16 payload)) := by
    simp only [fetch, hp, hs, h.buf, dataBytes, decode, decodePacket_dataPid]
    rw [decodeData_append _ _ _ _ hlen, le16_lo8_hi8]
  rw [step_of_decode ⟨hr, hh, by simp [hp]⟩ hd, show advance u = u by simp [advance, hp]]

/-- No request and no OUT payload writes `toggle_out` but by the acceptance itself (spec/44_endpoint.md R253). -/
theorem acceptArgs_toggleOut {s : State} {i : Instr} {write : EpEntry → EpEntry} {addr : BitVec 16} {latch : BitVec 2}
    (h : acceptArgs s i = some (write, addr, latch)) (e : EpEntry) : (write e).toggleOut = e.toggleOut := by
  cases i <;> cases h
  case getDescriptor => exact (armEntry_kept ..).1
  all_goals rfl

/-- Eight bytes are a URB, and every URB is accepted. -/
theorem decode_urb_accepted {payload : List Byte} (h : payload.length = 8) :
    ∃ i, decode (.urb payload) = .ok i ∧ ∀ s, ∃ args, acceptArgs s i = some args := by
  obtain ⟨i, hd⟩ : ∃ i, decodeUrb payload = .ok i := by
    match payload, h with
    | [_, _, _, _, _, _, _, _], _ => exact ⟨_, rfl⟩
  obtain ⟨_, _, _, _, rfl⟩ | ⟨_, _, _, _, rfl⟩ | ⟨_, _, rfl⟩ | ⟨_, _, _, _, _, rfl⟩ := decodeUrb_ok hd <;>
    exact ⟨_, hd, fun _ => ⟨_, rfl⟩⟩

/-- Up to eight bytes are an OUT payload, and every OUT payload is accepted. -/
theorem decode_payload_accepted {payload : List Byte} (h : payload.length ≤ 8) :
    ∃ i, decode (.payload payload) = .ok i ∧ ∀ s, ∃ args, acceptArgs s i = some args := by
  by_cases hcookie : payload = BOOT_COOKIE
  · exact ⟨_, if_pos hcookie, fun _ => ⟨_, rfl⟩⟩
  · exact ⟨_, (if_neg hcookie).trans (if_pos h), fun _ => ⟨_, rfl⟩⟩

theorem pktPayload_of_dataBytes {p : Pkt} {tg : Bool} {payload : List Byte} (h : p.buf = dataBytes tg payload) :
    pktPayload p = payload := by
  simp [pktPayload, h, dataBytes]

/-- From `u` the handlers have come to `v`, where the ACK of the packet waits. -/
structure Acknowledging (u v : State) : Prop where
  frame : HandlerFrame u v
  ack : v.rxPhase = .transmit ∧ v.tx.cmd = some ⟨PID_ACK, 0, 0, 0#8⟩
  boot : v.tx.boot = u.tx.boot

/-- The packet delivered in `u` has led to `v`, where its payload is looked at; it is accepted by the instruction fetched there. -/
theorem accept_run {u v : State} {e : EpEntry} {i : Instr} (hfirst : step u = .next v) (hr : v.io.rst = false) (hh : v.halted = false)
    (hp : v.rxPhase = .dispatch) (hframe : HandlerFrame u v) (htx : v.tx = u.tx)
    (hcur : v.dev.currentEndpoint = u.dev.currentEndpoint) (he : v.currentEp? = some e)
    (hd : decode (fetch v) = .ok i) (ha : ∃ args, acceptArgs v i = some args) : ∃ w, Steps 2 u w ∧ Acknowledging u w ∧
      w.dev.currentEndpoint = u.dev.currentEndpoint ∧
      (w.endpoint? u.dev.currentEndpoint.toNat).map EpEntry.toggleOut = some (!e.toggleOut) := by
  obtain ⟨⟨write, addr, latch⟩, ha⟩ := ha
  obtain ⟨w, hw, hacc⟩ := exec_accepts ha he
  have hsecond := step_of_decode ⟨hr, hh, by simp [hp]⟩ hd
  rw [show advance v = v by simp [advance, hp], hw] at hsecond
  obtain ⟨hphase, hcmd⟩ := hacc.ack
  refine ⟨w, .succ hfirst (.one hsecond), ⟨hframe.trans hacc.frame, ⟨hphase, by rw [hcmd]⟩, by rw [hcmd, htx]⟩,
    by rw [hacc.dev]; exact hcur, ?_⟩
  rw [← hcur, hacc.entry]
  exact congrArg (fun b => some !b) (acceptArgs_toggleOut ha e)

/-- The expected packet is accepted in two steps: the packet, then its payload (R249 to R253). -/
theorem Delivered.accepted {e : EpEntry}
    (h : Delivered ev later e.toggleOut payload s u) (he : s.currentEp? = some e) (hlen : payload.length ≤ 8)
    (hurb : s.dev.setupRequest = true → payload.length = 8) : ∃ v, Steps 2 u v ∧ Acknowledging u v ∧
      v.dev.currentEndpoint = u.dev.currentEndpoint ∧
      (v.endpoint? u.dev.currentEndpoint.toNat).map EpEntry.toggleOut = some (!e.toggleOut) := by
  obtain ⟨hr, hh⟩ := h.running
  have hcur := h.currentEp?.trans he
  have hpayload := pktPayload_of_dataBytes h.buf
  have hfirst := (h.step hlen).trans (exec_dataInstr_expected h.crc hcur payload _)
  cases hsetup : u.dev.setupRequest with
  | true =>
    have h8 := hurb (h.dev ▸ hsetup)
    obtain ⟨i, hd, ha⟩ := decode_urb_accepted h8
    rw [hsetup, if_pos rfl, if_pos h8] at hfirst
    exact accept_run hfirst hr hh rfl (handlerFrame_update u _ _ _ _ _ _ rfl) rfl rfl hcur (by simpa [fetch, hpayload] using hd) (ha _)
  | false =>
    obtain ⟨i, hd, ha⟩ := decode_payload_accepted hlen
    rw [hsetup, if_neg Bool.false_ne_true] at hfirst
    exact accept_run hfirst hr hh rfl (handlerFrame_update u _ _ _ _ _ _ rfl) rfl rfl hcur (by simpa [fetch, hpayload] using hd) (ha _)

/-- The packet with the other sequence bit is acknowledged in one step that writes no register (R250). -/
theorem Delivered.duplicate {e : EpEntry}
    (h : Delivered ev later tg payload s u) (he : s.currentEp? = some e) (hlen : payload.length ≤ 8) (htg : e.toggleOut ≠ tg) :
    Steps 1 u (sendAck u) ∧ Acknowledging u (sendAck u) :=
  ⟨.one ((h.step hlen).trans (exec_dataInstr_duplicate h.crc (h.currentEp?.trans he) htg payload _)),
    handlerFrame_update u _ _ _ _ _ _ rfl, ⟨rfl, rfl⟩, rfl⟩

/-- The waiting ACK is driven behind the gap of the event, and no register is written (spec/40_transmit.md R131). -/
theorem Delivered.acknowledged {v : State}
    (h : Delivered ev later tg payload s u) (hv : Acknowledging u v) (hboot : s.tx.boot = false) : ∃ t, Steps 11 v t ∧
      t.rxPhase = .idle ∧ t.tx.boot = false ∧ t.io.rst = false ∧ t.registers = v.registers ∧ t.io.events = later ∧
      t.io.out = s.io.out ++ List.replicate ev.gap Output.idle ++ (frame [PID_ACK]).map Output.sym := by
  obtain ⟨hr, hh⟩ := h.running
  have hh' := hv.frame.halted.trans hh
  have hboot' : v.tx.boot = false := hv.boot.trans (h.boot.trans hboot)
  obtain ⟨t, hrun, hidle, -, htboot, hout, hregs, hev, hrst⟩ :=
    sendNoCrc_run (hv.frame.rst.trans hr) hh' hv.ack.1 hv.ack.2 (Nat.zero_le _)
  refine ⟨t, hrun, hidle, htboot, hrst, ?_, hev.trans (hv.frame.events.trans h.events), ?_⟩
  · rw [hregs, hboot', ← hh']
    rfl
  · rw [hout, hboot', hv.frame.out, h.out, hv.frame.gap, h.gap]
    exact List.append_nil _

end Delivery

/-- Settles O60: the first delivery inverts the sequence bit, so the second is a duplicate. -/
theorem repeatedDataPacketIsIdempotent : Obligations.RepeatedDataPacketIsIdempotent := by
  intro s ev later rest payload e h hr hh hp hev hmem he hlen hurb hline
  have hboot := h.boot_of_not_transmit (by simp [hp])
  obtain ⟨k1, u1, hrecv1, hdel1⟩ := deliver hr hh hp hev hmem hlen hline
  obtain ⟨v1, hacc, hack1, hcur, htoggle⟩ := hdel1.accepted he hlen hurb
  obtain ⟨t1, hsend1, hidle1, hboot1, hrst1, hregs1, hev1, hout1⟩ := hdel1.acknowledged hack1 hboot
  have hhalted1 : t1.halted = false := (congrArg Registers.halted hregs1).trans (hack1.frame.halted.trans hdel1.running.2)
  have hep1 : t1.ep = v1.ep := congrArg Registers.ep hregs1
  have hcur1 : t1.dev.currentEndpoint = u1.dev.currentEndpoint := (congrArg (fun r => r.dev.currentEndpoint) hregs1).trans hcur
  have htoggle1 : (t1.endpoint? u1.dev.currentEndpoint.toNat).map EpEntry.toggleOut = some (!e.toggleOut) := by
    rw [State.endpoint?, hep1]; exact htoggle
  obtain ⟨e1, he1, hinverted⟩ := Option.map_eq_some_iff.1 htoggle1
  have hchip1 : t1.chip = ev.chip s.chip :=
    (congrArg Registers.chip hregs1).trans (hack1.frame.chip.trans (congrArg Registers.chip hdel1.registers))
  obtain ⟨k2, u2, hrecv2, hdel2⟩ := deliver hrst1 hhalted1 hidle1 hev1 hmem hlen hline
  obtain ⟨hdup, hack2⟩ := hdel2.duplicate (by rw [State.currentEp?, hcur1, he1]) hlen (by rw [hinverted]; exact Bool.not_ne_self _)
  obtain ⟨t2, hsend2, hidle2, -, -, hregs2, hev2, hout2⟩ := hdel2.acknowledged hack2 hboot1
  refine ⟨_, _, t1, t2, (hrecv1.trans hacc).trans hsend1, (hrecv2.trans hdup).trans hsend2, hidle1, hev1, hout1, ?_, hidle2, hev2,
    hout2, ?_⟩
  · rw [← hdel1.dev]; exact htoggle1
  · calc t2.registers = u2.registers := hregs2
      _ = { t1.registers with chip := ev.chip t1.chip } := hdel2.registers
      _ = { t1.registers with chip := t1.chip } := by rw [hchip1, ev.chip_chip]
      _ = t1.registers := rfl

end Sys2Proof.Machine
end

section
/-! PROOFS. The keepalive handler (spec/45_se0_trim.md): the trim field, the servo's accumulation, and its isolation from every other
instruction. -/

namespace Sys2Proof.Machine

open Config

/-! ## The trim field -/

/-- The trim field lies inside the register (spec/45_se0_trim.md R311). -/
theorem trimField_fits {p : Params} (h : p.wf = true) : p.trimW + p.trimShift ≤ 32 := by
  simp only [Params.wf, Bool.and_eq_true, decide_eq_true_eq] at h
  tauto

/-- The mask has every bit of the field. -/
theorem trimMask_getLsbD_inside {p : Params} (h : p.wf = true) {k : Nat} (hk : k < p.trimW) :
    (trimMask p).getLsbD (p.trimShift + k) = true := by
  have hfits := trimField_fits h
  rw [trimMask, BitVec.getLsbD_shiftLeft, Nat.add_sub_cancel_left, BitVec.getLsbD_ofNat, Nat.testBit_two_pow_sub_one]
  simp [hk, show p.trimShift + k < 32 by omega, show k < 32 by omega]

/-- The trim code is the field's bits, lowest first (spec/45_se0_trim.md R307). -/
theorem trimCode_testBit {p : Params} (h : p.wf = true) (v : Word) {k : Nat} (hk : k < p.trimW) :
    (trimCode p v).testBit k = v.getLsbD (p.trimShift + k) := by
  rw [trimCode, BitVec.testBit_toNat, BitVec.getLsbD_ushiftRight, BitVec.getLsbD_and, trimMask_getLsbD_inside h hk, Bool.and_true]

/-- Inside the field a trim step writes the next code. -/
theorem applyTrim_getLsbD_inside {p : Params} (h : p.wf = true) (dir : TrimDir) (v : Word) {k : Nat} (hk : k < p.trimW) :
    (applyTrim p dir v).getLsbD (p.trimShift + k) = (trimNext p dir (trimCode p v)).testBit k := by
  have hfits := trimField_fits h
  rw [applyTrim, BitVec.getLsbD_or, BitVec.getLsbD_and, BitVec.getLsbD_not, trimMask_getLsbD_inside h hk, BitVec.getLsbD_shiftLeft,
    Nat.add_sub_cancel_left, BitVec.getLsbD_ofNat]
  simp [show p.trimShift + k < 32 by omega, show k < 32 by omega]

/-- The code after a trim step. -/
theorem trimCode_applyTrim {p : Params} (h : p.wf = true) (dir : TrimDir) (v : Word) :
    trimCode p (applyTrim p dir v) = trimNext p dir (trimCode p v) := by
  refine Nat.eq_of_testBit_eq fun k => ?_
  by_cases hk : k < p.trimW
  · rw [trimCode_testBit h _ hk, applyTrim_getLsbD_inside h dir v hk]
  · have hle : 2 ^ p.trimW ≤ 2 ^ k := Nat.pow_le_pow_right (by decide) (Nat.not_lt.1 hk)
    rw [Nat.testBit_lt_two_pow ((trimCode_lt p _).trans_le hle),
      Nat.testBit_lt_two_pow ((trimNext_lt p dir (trimCode_lt p v)).trans_le hle)]

/-- The direction in which the code goes up (spec/45_se0_trim.md R306). -/
theorem trimNext_up {p : Params} {dir : TrimDir} (hup : dir = .tooSlow ↔ p.trimUpIsFaster = true) (f : Nat) :
    trimNext p dir f = min (f + 1) (2 ^ p.trimW - 1) :=
  if_pos (Bool.eq_iff_iff.2 (beq_iff_eq.trans hup))

/-- The other direction (R306). -/
theorem trimNext_down {p : Params} {dir : TrimDir} (hdown : ¬ (dir = .tooSlow ↔ p.trimUpIsFaster = true)) (f : Nat) :
    trimNext p dir f = f - 1 :=
  if_neg fun heq => hdown (beq_iff_eq.symm.trans (Bool.eq_iff_iff.1 heq))

/-- Settles O31: the code after a step is `trimNext` of the code before, and the bits outside the field are as read. -/
theorem trimStepMovesTheFieldByOne : Obligations.TrimStepMovesTheFieldByOne := by
  intro p dir v h
  have hlt := trimCode_lt p v
  refine ⟨fun k hk => applyTrim_getLsbD_outside p dir v hk, hlt, fun k hk => trimCode_testBit h v hk, fun hup => ?_, fun hdown => ?_⟩
  · rw [trimCode_applyTrim h, trimNext_up hup]
    split <;> omega
  · rw [trimCode_applyTrim h, trimNext_down hdown]
    split <;> omega

/-! ## The servo -/

/-- The constraint that keeps the accumulation from wrapping (spec/45_se0_trim.md R311). -/
theorem trimBand_add_trimThreshold_lt {p : Params} (h : p.wf = true) : p.trimBand + p.trimThreshold < 2 ^ 31 := by
  simp only [Params.wf, Bool.and_eq_true, decide_eq_true_eq] at h
  tauto

/-- An error in the band added to a windup below the threshold does not wrap (R311). -/
theorem windup_add_toInt {p : Params} {w : Word} {err : Int} (h : p.wf = true) (hband : inBand p err = true)
    (hw : -(p.trimThreshold : Int) < w.toInt ∧ w.toInt < p.trimThreshold) : (w + BitVec.ofInt 32 err).toInt = w.toInt + err := by
  have hsum := trimBand_add_trimThreshold_lt h
  simp only [inBand, Bool.and_eq_true, decide_eq_true_eq] at hband
  rw [BitVec.toInt_add, BitVec.toInt_ofInt, Int.add_bmod_bmod]
  exact Int.bmod_eq_of_le (by omega) (by omega)

section Servo

variable {p : Params} {now : Word} {d : Dev}

/-- Outside the band only the interval registers are written (R303, R304). -/
theorem servo_of_not_inBand (osc : Word) (h : ¬ inBand p (keepaliveErr (now - d.lastSe0)) = true) :
    servo p now d osc = ({ d with lastSe0 := now, deltaSe0 := now - d.lastSe0 }, none) := by
  simp only [servo, if_neg h]

/-- In the band, with the exact sum of windup and error: one trim step at either threshold, and the windup starts again at 0; below the
thresholds the sum is kept (R305). -/
theorem servo_of_inBand (osc : Word) (hp : p.wf = true)
    (hw : -(p.trimThreshold : Int) < d.se0Windup.toInt ∧ d.se0Windup.toInt < p.trimThreshold) {err : Int}
    (herr : err = keepaliveErr (now - d.lastSe0)) (hband : inBand p err = true) :
    ((p.trimThreshold : Int) ≤ d.se0Windup.toInt + err →
      (servo p now d osc).1.se0Windup = 0 ∧ (servo p now d osc).2 = some (applyTrim p .tooFast osc)) ∧
    (d.se0Windup.toInt + err ≤ -(p.trimThreshold : Int) →
      (servo p now d osc).1.se0Windup = 0 ∧ (servo p now d osc).2 = some (applyTrim p .tooSlow osc)) ∧
    (-(p.trimThreshold : Int) < d.se0Windup.toInt + err → d.se0Windup.toInt + err < p.trimThreshold →
      (servo p now d osc).1.se0Windup.toInt = d.se0Windup.toInt + err ∧ (servo p now d osc).2 = none) := by
  have hpos := trimThreshold_pos hp
  have hsum := windup_add_toInt hp hband hw
  subst herr
  simp only [servo, if_pos hband, hsum]
  refine ⟨fun hfast => ?_, fun hslow => ?_, fun hlow hhigh => ?_⟩
  · rw [if_pos hfast]
    exact ⟨rfl, rfl⟩
  · rw [if_neg (by omega), if_pos hslow]
    exact ⟨rfl, rfl⟩
  · rw [if_neg (by omega), if_neg (by omega)]
    exact ⟨hsum, rfl⟩

end Servo

/-! ## KEEPALIVE -/

/-- The invocation has returned, the servo having answered `r`: the device state, and what is written to `OSC_CTL` if anything is. -/
def afterServo (r : Dev × Option Word) (s : State) : State :=
  { endInvocation s with
    dev := r.1
    chip := { s.chip with oscCtl := r.2.getD s.chip.oscCtl }
    io := { s.io with lineIn := [], out := s.io.out ++ r.2.toList.map Output.oscCtl } }

/-- What KEEPALIVE leaves (spec/45_se0_trim.md R302). -/
theorem exec_keepalive (s : State) :
    exec .keepalive s = .next (afterServo (servo s.cfg s.chip.cycCnt s.dev s.chip.oscCtl) s) := by
  simp only [exec, execKeepalive, afterServo]
  cases (servo s.cfg s.chip.cycCnt s.dev s.chip.oscCtl).2 with
  | none => simp [endInvocation, setDev]
  | some v => rfl

theorem afterServo_none (d : Dev) (s : State) : (afterServo (d, none) s).chip = s.chip ∧ (afterServo (d, none) s).io.out = s.io.out :=
  ⟨rfl, List.append_nil _⟩

/-- The band as the statements write it (R304). -/
theorem inBand_iff (p : Params) (err : Int) : inBand p err = true ↔ -(p.trimBand : Int) < err ∧ err < p.trimBand := by
  simp only [inBand, Bool.and_eq_true, decide_eq_true_eq]

/-- Settles O29: what KEEPALIVE leaves, the servo's writes of the device state, and the servo outside the band. -/
theorem keepaliveMeasuresTheInterval : Obligations.KeepaliveMeasuresTheInterval := by
  intro s
  refine ⟨_, exec_keepalive s, ⟨rfl, rfl, rfl⟩, servo_dev .., rfl, rfl, rfl, rfl, rfl, rfl, rfl, ⟨_, rfl, fun o ho => ?_⟩,
    fun _ => rfl, fun hout => ?_⟩
  · obtain ⟨v, -, rfl⟩ := List.mem_map.1 ho
    exact ⟨v, rfl⟩
  · rw [servo_of_not_inBand s.chip.oscCtl (mt (inBand_iff ..).1 hout)]
    obtain ⟨hchip, hio⟩ := afterServo_none { s.dev with lastSe0 := s.chip.cycCnt, deltaSe0 := s.chip.cycCnt - s.dev.lastSe0 } s
    exact ⟨rfl, congrArg Chip.oscCtl hchip, hio⟩

/-- Settles O30: the three cases of the servo in the band, under the invariant's bound on the windup. -/
theorem keepaliveTrimsAtTheThreshold : Obligations.KeepaliveTrimsAtTheThreshold := by
  intro s hinv err herr hlow hhigh
  obtain ⟨hfast, hslow, hbetween⟩ :=
    servo_of_inBand s.chip.oscCtl hinv.params hinv.windup herr ((inBand_iff ..).2 ⟨hlow, hhigh⟩)
  refine ⟨_, exec_keepalive s, fun hge => ?_, fun hle => ?_, fun hgt hlt => ?_⟩
  · obtain ⟨hw, hosc⟩ := hfast hge
    simp [afterServo, hw, hosc]
  · obtain ⟨hw, hosc⟩ := hslow hle
    simp [afterServo, hw, hosc]
  · obtain ⟨hw, hosc⟩ := hbetween hgt hlt
    simp [afterServo, hw, hosc]

/-! ## Isolation
An operation other than KEEPALIVE is built from choices and updates. What a choice tests is a field outside the servo's registers, the
same in both states by definition, so a choice between free meanings is free; a single update of other fields is free by `rfl`. -/

/-- The update neither reads nor writes the servo's registers. -/
def ServoFreeUpdate (f : State → State) : Prop :=
  ∀ (last delta windup osc : Word) (s : State), f (withServo last delta windup osc s) = withServo last delta windup osc (f s)

/-- The meaning neither reads nor writes the servo's registers. -/
def ServoFree (h : State → Out) : Prop :=
  ∀ (last delta windup osc : Word) (s : State), h (withServo last delta windup osc s) = Out.map (withServo last delta windup osc) (h s)

theorem ServoFreeUpdate.comp {f g : State → State} (hf : ServoFreeUpdate f) (hg : ServoFreeUpdate g) : ServoFreeUpdate fun s => f (g s) :=
  fun last delta windup osc s => (congrArg f (hg last delta windup osc s)).trans (hf last delta windup osc (g s))

theorem ServoFreeUpdate.next {f : State → State} (hf : ServoFreeUpdate f) : ServoFree fun s => .next (f s) :=
  fun last delta windup osc s => congrArg Host.Outcome.next (hf last delta windup osc s)

/-- A choice between two meanings whose condition does not look at the servo's registers. -/
theorem ServoFree.ite {c : State → Prop} [DecidablePred c] {a b : State → Out} (ha : ServoFree a) (hb : ServoFree b)
    (hc : ∀ last delta windup osc s, c (withServo last delta windup osc s) ↔ c s := by exact fun _ _ _ _ _ => Iff.rfl) :
    ServoFree fun s => if c s then a s else b s := by
  intro last delta windup osc s
  simp only [hc]
  split
  · exact ha ..
  · exact hb ..

/-- A choice by an entry of the endpoint file. -/
theorem ServoFree.onEntry {look : State → Option EpEntry} {a : State → Out} {b : EpEntry → State → Out}
    (ha : ServoFree a) (hb : ∀ e, ServoFree (b e))
    (hlook : ∀ last delta windup osc s, look (withServo last delta windup osc s) = look s := by exact fun _ _ _ _ _ => rfl) :
    ServoFree fun s => match look s with | none => a s | some e => b e s := by
  intro last delta windup osc s
  simp only [hlook]
  cases look s with
  | none => exact ha ..
  | some e => exact hb e ..

theorem ServoFree.comp {h : State → Out} {f : State → State} (hh : ServoFree h) (hf : ServoFreeUpdate f) : ServoFree fun s => h (f s) :=
  fun last delta windup osc s => (congrArg h (hf last delta windup osc s)).trans (hh last delta windup osc (f s))

/-- A run of updates. -/
theorem ServoFreeUpdate.foldl {α : Type} {f : α → State → State} (hf : ∀ x, ServoFreeUpdate (f x)) (xs : List α) :
    ServoFreeUpdate fun s => xs.foldl (fun s x => f x s) s := by
  induction xs with
  | nil => exact fun _ _ _ _ _ => rfl
  | cons x xs ih => exact ih.comp (hf x)

/-! ### The line -/

theorem txBit_servoFree (b : Bool) : ServoFreeUpdate (txBit b) := by
  intro last delta windup osc s
  simp only [txBit, apply_ite (withServo last delta windup osc)]
  rfl

theorem txEop_servoFree : ServoFreeUpdate txEop := by
  intro last delta windup osc s
  have hboot : (withServo last delta windup osc s).tx.boot = s.tx.boot := rfl
  simp only [txEop, hboot]
  split <;> rfl

theorem rxBit_servoFree (b : Bool) : ServoFree (rxBit b) := by
  intro last delta windup osc s
  simp only [rxBit, apply_ite (Out.map _)]
  rfl

theorem rxEop_servoFree : ServoFree rxEop := by
  intro last delta windup osc s
  simp only [rxEop, apply_ite (Out.map _)]
  rfl

theorem execBit_servoFree (b : Bool) : ServoFree (exec (bitInstr b)) := by
  simp only [funext (exec_bitInstr b)]
  exact .ite (txBit_servoFree b).next (rxBit_servoFree b)

theorem execSync_servoFree : ServoFree execSync :=
  .ite (ServoFreeUpdate.foldl txBit_servoFree _).next fun _ _ _ _ _ => rfl

theorem execEop_servoFree : ServoFree execEop := .ite txEop_servoFree.next rxEop_servoFree

/-! ### The handlers -/

theorem withCallback_servoFree (endp : BitVec 4) : ServoFreeUpdate (withCallback endp) := by
  intro last delta windup osc s
  have hu : (withServo last delta windup osc s).io.userIn = s.io.userIn := rfl
  have hscratch := ServoFreeUpdate.foldl (f := fun w s => writeScratch s w) (fun _ _ _ _ _ _ => rfl) s.io.userIn.scratch
    last delta windup osc
  simp only [withCallback, hu]
  cases s.io.userIn.entry with
  | none => exact hscratch s
  | some e => exact hscratch (setEp s endp.toNat e)

theorem callUserIn_servoFree (endp : BitVec 4) (tok : Byte) : ServoFree (callUserIn endp tok) := by
  intro last delta windup osc s
  have hu : (withServo last delta windup osc s).io.userIn = s.io.userIn := rfl
  simp only [callUserIn_eq, hu, withCallback_servoFree endp last delta windup osc s]
  cases s.io.userIn.action <;> rfl

theorem drain_servoFree (e : EpEntry) (tok : Byte) : ServoFree (drain e tok) :=
  .ite (fun _ _ _ _ _ => rfl) fun _ _ _ _ _ => rfl

theorem handleIn_servoFree (endp : BitVec 4) (e : EpEntry) : ServoFree (handleIn endp e) :=
  have hselect : ServoFreeUpdate (selectEndpoint endp) := fun _ _ _ _ _ => rfl
  .ite (fun _ _ _ _ _ => rfl)
    (.ite ((callUserIn_servoFree endp _).comp hselect) ((drain_servoFree e _).comp hselect))

theorem dispatchToken_servoFree (addr : BitVec 7) (endp : BitVec 4) (crc : BitVec 5) {handler : EpEntry → State → Out}
    (hh : ∀ e, ServoFree (handler e)) : ServoFree fun s => dispatchToken addr endp crc s handler := by
  intro last delta windup osc s
  have hf : tokenFault addr endp crc (withServo last delta windup osc s) = tokenFault addr endp crc s := rfl
  have he : (withServo last delta windup osc s).endpoint? endp.toNat = s.endpoint? endp.toNat := rfl
  simp only [dispatchToken, hf, he]
  cases tokenFault addr endp crc s with
  | some c => rfl
  | none =>
    cases s.endpoint? endp.toNat with
    | none => rfl
    | some e => exact hh e last delta windup osc s

theorem execAck_servoFree : ServoFree execAck :=
  .onEntry (b := fun e s => .next (endInvocation (setCurrentEp s (ackEntry e)))) (fun _ _ _ _ _ => rfl) fun _ _ _ _ _ _ => rfl

theorem handleData_servoFree (pid : Byte) (n : Nat) : ServoFree (handleData pid n) :=
  .ite
    (.onEntry (fun _ _ _ _ _ => rfl) fun _ =>
      .ite (fun _ _ _ _ _ => rfl)
        (.ite
          (.ite (fun _ _ _ _ _ => rfl) fun _ _ _ _ _ => rfl)
          fun _ _ _ _ _ => rfl))
    fun _ _ _ _ _ => rfl

theorem acceptData_servoFree (write : EpEntry → EpEntry) (addr : BitVec 16) (latch : BitVec 2) :
    ServoFree (acceptData write addr latch) :=
  .onEntry (fun _ _ _ _ _ => rfl) fun _ _ _ _ _ _ => rfl

/-! ### The meanings -/

/-- Settles O32, instruction by instruction. -/
theorem servoIsIsolated : Obligations.ServoIsIsolated := by
  intro i s last delta windup osc hi
  suffices h : ServoFree (exec i) from h last delta windup osc s
  cases i with
  | ack => exact execAck_servoFree
  | data0 | data1 => exact handleData_servoFree _ _
  | inTok addr endp crc => exact dispatchToken_servoFree addr endp crc (handleIn_servoFree endp)
  | outTok addr endp crc => exact dispatchToken_servoFree addr endp crc (handler := handleOut endp) fun _ _ _ _ _ _ => rfl
  | setup addr endp crc => exact dispatchToken_servoFree addr endp crc (handler := handleSetup endp) fun _ _ _ _ _ _ => rfl
  | unknownPid => exact fun _ _ _ _ _ => rfl
  | getDescriptor | setAddress | setReportBoot | unrecognisedRequest | outPayloadCookie | outPayloadOther =>
    exact fun _ _ _ _ _ => acceptData_servoFree ..
  | sendNoCrc | sendCrc16 => exact .ite (fun _ _ _ _ _ => rfl) fun _ _ _ _ _ => rfl
  | sync => exact execSync_servoFree
  | eop => exact execEop_servoFree
  | keepalive => exact absurd rfl hi
  | bit0 => exact execBit_servoFree false
  | bit1 => exact execBit_servoFree true

end Sys2Proof.Machine
end

section
/-! PROOFS. The interrupt and the silent drop (spec/60_exceptions.md R321 to R330). -/

namespace Sys2Proof.Machine

/-! ## The interrupt -/

/-- With no event waiting the engine stays as it is (R324). -/
theorem step_of_no_event {s : State} (hrst : s.io.rst = false) (hhalted : s.halted = false) (hidle : s.rxPhase = .idle)
    (hev : s.io.events = []) : step s = .next s := by
  simp [step, stepWith, hrst, hhalted, hidle, idleStep, hev]

/-- Settles O5: the state the entry leaves, read field by field, and in memory the last of the application's writes. -/
theorem interruptEntry : Obligations.InterruptEntry := by
  intro s hrst hhalted hidle
  refine ⟨step_of_no_event hrst hhalted hidle, fun ev later hev => ?_⟩
  refine ⟨_, step_of_event hrst hhalted hidle hev, rfl, rfl, rfl, rfl, hhalted, rfl, rfl, rfl, rfl, rfl, rfl, rfl, rfl, ?_, ?_⟩
  · exact memRead_memWrites_other s.mem ev.memWrites
  · intro before a v after hws hlast
    rw [enterInvocation_mem, hws]
    exact memRead_memWrites_last s.mem before after a v hlast

/-! ## A drop -/

/-- Moving past what was fetched writes no register. -/
theorem advance_registers (s : State) : (advance s).registers = s.registers := by
  obtain ⟨_, _, _, _, ha⟩ := advance_eq s
  rw [ha]
  rfl

theorem advance_events (s : State) : (advance s).io.events = s.io.events := by
  obtain h | ⟨_, h⟩ := advance_io s <;> rw [h]

/-- Settles O6: a drop only ends the invocation, and the state it leaves does not depend on the cause. -/
theorem dropIsSilent : Obligations.DropIsSilent := fun s c hrun hdrop =>
  ⟨endInvocation (advance s), (step_of_reject hrun hdrop).trans (drop_eq c _), advance_registers s, advance_out s, rfl, rfl, rfl,
    advance_events s, fun c' => drop_eq c' _⟩

end Sys2Proof.Machine
end

section
/-! PROOFS. Reset and the end of an invocation (spec/70_reset_and_hazards.md R360, R382): `rst` from any state, and a measure that every
step of an invocation makes smaller while the callback keeps to its contract. -/

namespace Sys2Proof.Machine

open Config

/-! ## Reset -/

theorem step_of_rst {s : State} (h : s.io.rst = true) : step s = .next (resetEngine s) := by
  simp [step, stepWith, h]

/-- Settles O3: a step with `rst` is the reset, whose fields are read off. -/
theorem resetInputFromAnyState : Obligations.ResetInputFromAnyState := by
  intro s h
  refine ⟨_, step_of_rst h, ?_, fun i hi => ?_, rfl, rfl, rfl, rfl, rfl, rfl, fun _ => rfl, rfl, rfl, rfl⟩
  · simp [initEndpoints]
  · simp [State.endpoint?, initEndpoints, hi, EpEntry.reset]

/-! ## What an invocation does not change of its inputs -/

theorem keepalive_inputs {s t : State} (h : exec .keepalive s = .next t) : t.io.userIn = s.io.userIn ∧ t.io.rst = s.io.rst := by
  cases (exec_keepalive s).symm.trans h
  exact ⟨rfl, rfl⟩

/-- No instruction changes the callback's answer or `rst`. -/
theorem exec_inputs {i : Instr} {s t : State} (h : exec i s = .next t) : t.io.userIn = s.io.userIn ∧ t.io.rst = s.io.rst := by
  cases exec_effect h with
  | line hl => exact ⟨(lineOrSend_frame hl h).userIn, (lineOrSend_frame hl h).rst⟩
  | keepalive => exact keepalive_inputs h
  | silent | answers => simp
  | dropped | ack | duplicate | request | payload | accept | setup | out | fires | drains => exact ⟨rfl, rfl⟩

theorem advance_inputs (s : State) : (advance s).io.userIn = s.io.userIn ∧ (advance s).io.rst = s.io.rst := by
  obtain ⟨_, _, _, _, ha⟩ := advance_eq s
  rw [ha]
  exact ⟨rfl, rfl⟩

/-! ## The contract of `send` (spec/40_transmit.md R133) -/

theorem EngineCall.inContract {s : State} {c : SendCmd} (h : EngineCall s c) : SendInContract c := by
  obtain ⟨-, ⟨hpoly, hlen⟩ | ⟨hpoly, hlen, -⟩ | ⟨hpoly, -, hlen⟩⟩ := h
  · exact ⟨.inl hpoly, by rw [hlen]; decide⟩
  · exact ⟨.inl hpoly, by rw [hlen]; decide⟩
  · exact ⟨.inr hpoly, hlen⟩

/-- The contract is kept where the callback's answer is the same and the `send` that waits, if any, is inside it. -/
theorem ContractKept.of_cmd {s t : State} (hk : ContractKept s) (hu : t.io.userIn = s.io.userIn)
    (hc : ∀ c, t.tx.cmd = some c → SendInContract c) : ContractKept t :=
  ⟨by rw [hu]; exact hk.1, hc⟩

/-- Moving on, the transmit unit takes the waiting `send` or leaves it. -/
theorem advance_cmd (s : State) : (advance s).tx.cmd = s.tx.cmd ∨ (advance s).tx.cmd = none := by
  by_cases hp : s.rxPhase = .transmit
  · cases hc : s.tx.cmd with
    | some c => exact .inr (by simp [advance, hp, hc])
    | none => exact .inr (by simp only [advance, hp, hc]; split <;> rfl)
  · obtain ⟨io, ha⟩ := advance_of_not_transmit hp
    exact .inl (by rw [ha])

theorem ContractKept.advance {s : State} (hk : ContractKept s) : ContractKept (advance s) := by
  refine hk.of_cmd (advance_inputs s).1 fun c hc => ?_
  obtain h | h := advance_cmd s
  · exact hk.2 c (h ▸ hc)
  · cases h.symm.trans hc

/-- The callback calls what its answer says, or `send_empty`. -/
theorem callUserIn_inContract {endp : BitVec 4} {tok : Byte} {s t : State} (hk : ContractKept s)
    (h : callUserIn endp tok s = .next t) : ∀ c, t.tx.cmd = some c → SendInContract c := by
  intro c hc
  rw [callUserIn_eq] at h
  split at h
  · cases h
    exact hk.2 c (by simpa using hc)
  · next tok' ptr len poly hact =>
    cases h
    cases hc
    exact hk.1 tok' ptr len poly hact
  · cases h
    cases hc
    exact ⟨.inl rfl, (by decide : 2 ≤ MAX_PAYLOAD)⟩

theorem inTok_inContract {addr : BitVec 7} {endp : BitVec 4} {crc : BitVec 5} {s t : State} (hk : ContractKept s)
    (h : exec (.inTok addr endp crc) s = .next t) : ∀ c, t.tx.cmd = some c → SendInContract c := by
  intro c hc
  obtain rfl | ⟨e, -, -, hh⟩ := dispatchToken_next h
  · exact hk.2 c hc
  obtain ⟨-, heq⟩ | ⟨-, -, heq⟩ | ⟨-, -, heq⟩ := handleIn_cases endp e s
  · cases heq.symm.trans hh
    cases hc
    exact (engineCall_empty s e.toggleIn).inContract
  · exact callUserIn_inContract (s := selectEndpoint endp s) hk (heq.symm.trans hh) c hc
  · exact (drain_call (heq.symm.trans hh) hc).inContract

/-- An instruction that completes leaves no `send` waiting outside the contract. -/
theorem ContractKept.exec {i : Instr} {s t : State} (hk : ContractKept s) (h : exec i s = .next t) : ContractKept t := by
  refine hk.of_cmd (exec_inputs h).1 ?_
  cases exec_effect h with
  | line hl =>
    intro c hc
    obtain hcmd | hcmd := lineOrSend_cmd hl h
    · exact hk.2 c (hcmd ▸ hc)
    · cases hcmd.symm.trans hc
  | keepalive _ _ htx => exact fun c hc => hk.2 c ((congrArg Tx.cmd htx).symm.trans hc)
  | dropped | ack | request | payload | setup | out => exact hk.2
  | duplicate | accept => rintro c ⟨⟩; exact (engineCall_ack s).inContract
  | fires | silent | answers | drains => exact inTok_inContract hk h

/-! ## A step of an invocation is a next state -/

theorem handleData_total {s : State} {e : EpEntry} (he : s.currentEp? = some e) (pid : Byte) (n : Nat) :
    ∃ t, handleData pid n s = .next t := by
  simp only [handleData, he]
  split
  · split
    · exact ⟨_, rfl⟩
    split
    · split <;> exact ⟨_, rfl⟩
    · exact ⟨_, rfl⟩
  · exact ⟨_, rfl⟩

theorem exec_bitInstr_total (b : Bool) (s : State) : ∃ t, exec (bitInstr b) s = .next t := by
  rw [exec_bitInstr]
  split
  · exact ⟨_, rfl⟩
  · exact rxBit_total b s

/-- While the current entry exists every well-formed instruction completes. -/
theorem exec_total {i : Instr} {s : State} {e : EpEntry} (he : s.currentEp? = some e) (hi : i.wf = true) :
    ∃ t, exec i s = .next t := by
  have accept {i args} (ha : acceptArgs s i = some args) : ∃ t, exec i s = .next t := (exec_accepts ha he).imp fun _ h => h.1
  cases i with
  | ack => exact ⟨_, exec_ack he⟩
  | data0 payload crc => exact handleData_total he _ _
  | data1 payload crc => exact handleData_total he _ _
  | inTok addr endp crc => exact dispatchToken_total _ _ _ _ _ fun e s => handleIn_total endp e s
  | outTok addr endp crc => exact dispatchToken_total _ _ _ _ _ fun e s => ⟨_, rfl⟩
  | setup addr endp crc => exact dispatchToken_total _ _ _ _ _ fun e s => ⟨_, rfl⟩
  | unknownPid pid rest => exact ⟨_, rfl⟩
  | getDescriptor r v x l => exact accept rfl
  | setAddress r v x l => exact accept rfl
  | setReportBoot r l => exact accept rfl
  | unrecognisedRequest rt rq v x l => exact accept rfl
  | outPayloadCookie => exact accept rfl
  | outPayloadOther p => exact accept rfl
  | sendNoCrc token ptr len => exact ⟨_, exec_sendNoCrc token ptr s (of_decide_eq_true hi)⟩
  | sendCrc16 token ptr len => exact ⟨_, exec_sendCrc16 token ptr s (of_decide_eq_true hi)⟩
  | sync => exact ⟨_, exec_sync s⟩
  | eop =>
    rw [exec_eop]
    split
    · exact ⟨_, rfl⟩
    · exact rxEop_total s
  | keepalive => exact ⟨_, rfl⟩
  | bit0 => exact exec_bitInstr_total false s
  | bit1 => exact exec_bitInstr_total true s

theorem matchPreamble_error : ∀ {expected : List LineSymbol} {first : Bool} {syms : List LineSymbol} {r : Reject},
    matchPreamble expected first syms = .error r → ∃ c, r = .drop c
  | [], _, _, _, h => by cases h
  | e :: es, first, syms, r, h => by
    simp only [matchPreamble] at h
    split at h
    · cases h
    · cases h; exact ⟨_, rfl⟩
    · split at h
      · cases h; exact ⟨_, rfl⟩
      split at h
      · exact matchPreamble_error h
      · cases h; exact ⟨_, rfl⟩
    · split at h
      · exact matchPreamble_error h
      · cases h; exact ⟨_, rfl⟩

theorem decodeToken_error {mk : BitVec 7 → BitVec 4 → BitVec 5 → Instr} {rest : List Byte} {r : Reject}
    (h : decodeToken mk rest = .error r) : ∃ c, r = .drop c := by
  simp only [decodeToken] at h
  split at h <;> cases h
  exact ⟨_, rfl⟩

theorem decodeData_error {mk : List Byte → BitVec 16 → Instr} {rest : List Byte} {r : Reject} (h : decodeData mk rest = .error r) :
    ∃ c, r = .drop c := by
  simp only [decodeData] at h
  split at h <;> cases h
  exact ⟨_, rfl⟩

theorem decodePacket_error {bytes : List Byte} {r : Reject} (h : decodePacket bytes = .error r) : ∃ c, r = .drop c := by
  cases bytes with
  | nil => cases h; exact ⟨_, rfl⟩
  | cons pid rest =>
    simp only [decodePacket] at h
    split at h
    · split at h <;> cases h
      exact ⟨_, rfl⟩
    iterate 3
      split at h
      · exact decodeToken_error h
    iterate 2
      split at h
      · exact decodeData_error h
    split at h <;> cases h
    exact ⟨_, rfl⟩

/-- What the decoder rejects it drops, but for a `send` (spec/60_exceptions.md R330, spec/40_transmit.md R133). -/
theorem decode_error {c : Code} {r : Reject} (h : decode c = .error r) : (∃ cause, r = .drop cause) ∨ ∃ cmd, c = .send cmd := by
  cases c with
  | preamble syms => exact .inl (matchPreamble_error h)
  | line prev sym => cases sym <;> cases h; exact .inl ⟨_, rfl⟩
  | packet bytes => exact .inl (decodePacket_error h)
  | urb bytes =>
    simp only [decode, decodeUrb] at h
    split at h <;> cases h
    exact .inl ⟨_, rfl⟩
  | payload bytes =>
    simp only [decode, decodePayload] at h
    split at h
    · cases h
    split at h <;> cases h
    exact .inl ⟨_, rfl⟩
  | send cmd => exact .inr ⟨cmd, rfl⟩

/-- A `send` is fetched where one waits in a transmission, and nowhere else. -/
theorem cmd_of_fetch_send {s : State} {c : SendCmd} (h : fetch s = .send c) : s.rxPhase = .transmit ∧ s.tx.cmd = some c := by
  simp only [fetch] at h
  split at h
  · cases h
  · cases h
  · cases h
  · split at h <;> cases h
  · next hp =>
    split at h
    · next hc => cases h; exact ⟨hp, hc⟩
    · split at h
      · split at h <;> cases h
      · cases h

theorem RegistersOk.exists_currentEp {s : State} (h : RegistersOk s) : ∃ e, s.currentEp? = some e :=
  ⟨_, List.getElem?_eq_getElem h.current⟩

/-- Under the invariant and the contract no step of an invocation faults or is refused. -/
theorem Inv.step_next {s : State} (h : Inv s) (hr : Running s) (hk : ContractKept s) : ∃ t, step s = .next t := by
  cases hd : decode (fetch s) with
  | ok i =>
    obtain ⟨e, he⟩ := h.registersOk.advance.exists_currentEp
    obtain ⟨hwf, -⟩ := decoderAcceptsOnlyEncodings _ _ hd
    exact (exec_total he hwf).imp fun _ => (step_of_decode hr hd).trans
  | error r =>
    obtain ⟨c, rfl⟩ | ⟨c, hsend⟩ := decode_error hd
    · exact ⟨_, step_of_reject hr hd⟩
    · obtain ⟨hp, hc⟩ := cmd_of_fetch_send hsend
      obtain ⟨completes, -⟩ := sendOutsideTheContractIsRefused s c hr hp hc
      exact completes (hk.2 c hc)

/-! ## The measure by the phase -/

theorem measure_idle {s : State} (h : s.rxPhase = .idle) : invocationMeasure s = 0 := by simp [invocationMeasure, h]

theorem measure_preamble {s : State} (h : s.rxPhase = .preamble) : invocationMeasure s = 400 := by simp [invocationMeasure, h]

theorem measure_data {s : State} (h : s.rxPhase = .data) :
    invocationMeasure s = 103 + 2 * (97 - s.pkt.nbits) + (if s.rx.ones = STUFF_RUN then 1 else 0) := by
  simp [invocationMeasure, h]

theorem measure_dispatch {s : State} (h : s.rxPhase = .dispatch) : invocationMeasure s = if s.stage = .packet then 102 else 101 := by
  simp [invocationMeasure, h]

theorem measure_waiting {s : State} {c : SendCmd} (hp : s.rxPhase = .transmit) (hc : s.tx.cmd = some c) : invocationMeasure s = 100 := by
  simp [invocationMeasure, hp, hc]

theorem measure_driving {s : State} (hp : s.rxPhase = .transmit) (hc : s.tx.cmd = none) :
    invocationMeasure s = if s.tx.synced then 1 + s.tx.bits.length else 2 + s.tx.bits.length := by
  simp [invocationMeasure, hp, hc]

theorem measure_pos {s : State} (h : s.rxPhase ≠ .idle) : 0 < invocationMeasure s := by
  cases hp : s.rxPhase with
  | idle => exact absurd hp h
  | preamble => rw [measure_preamble hp]; omega
  | data => rw [measure_data hp]; omega
  | dispatch => rw [measure_dispatch hp]; split <;> omega
  | transmit =>
    cases hc : s.tx.cmd with
    | some c => rw [measure_waiting hp hc]; omega
    | none => rw [measure_driving hp hc]; split <;> omega

/-- A packet being driven has at most 88 bits left, so a transmission is at most 90 steps. -/
theorem Inv.measure_driving_le {s : State} (h : Inv s) (hp : s.rxPhase = .transmit) (hc : s.tx.cmd = none) :
    invocationMeasure s ≤ 90 := by
  have hbits := h.txBits (h.driver.2 ⟨hp, hc⟩)
  rw [measure_driving hp hc]
  split <;> omega

theorem Inv.measure_le {s : State} (h : Inv s) : invocationMeasure s ≤ 400 := by
  cases hp : s.rxPhase with
  | idle => rw [measure_idle hp]; omega
  | preamble => rw [measure_preamble hp]
  | data => rw [measure_data hp]; split <;> omega
  | dispatch => rw [measure_dispatch hp]; split <;> omega
  | transmit =>
    cases hc : s.tx.cmd with
    | some c => rw [measure_waiting hp hc]; omega
    | none => have := h.measure_driving_le hp hc; omega

/-! ## Every step makes the measure smaller -/

theorem measure_preamble_step {s t : State} {i : Instr} (hp : s.rxPhase = .preamble) (hd : decode (fetch s) = .ok i)
    (he : exec i (advance s) = .next t) : invocationMeasure t < invocationMeasure s := by
  rw [measure_preamble hp]
  simp only [fetch, hp] at hd
  obtain rfl | rfl := matchPreamble_ok hd
  · rw [exec_sync, if_neg (by simp [hp])] at he
    cases he
    rw [measure_data rfl]
    split <;> omega
  · cases (exec_keepalive _).symm.trans he
    rw [measure_idle rfl]
    omega

/-- A bit stored takes the next place of the packet, and a stuffed bit ends the run. -/
theorem measure_rxBit {b : Bool} {s t : State} (hp : s.rxPhase = .data) (hcap : s.pkt.nbits ≤ 8 * PACKET_BUF_CAP)
    (h : rxBit b s = .next t) : invocationMeasure t < invocationMeasure s := by
  rw [measure_data hp]
  obtain rfl | ⟨hrun, -, rfl⟩ | ⟨hrun, hroom, rfl⟩ := rxBit_next h
  · rw [measure_idle rfl]; omega
  · rw [measure_data (by exact hp), if_pos hrun, if_neg (by decide : 0 ≠ STUFF_RUN)]
    exact Nat.lt_succ_self _
  · have hroom : s.pkt.nbits < 96 := Nat.lt_of_le_of_ne hcap hroom
    rw [measure_data (by exact hp), if_neg hrun]
    simp only [pktPush_nbits]
    split <;> split <;> omega

theorem measure_rxEop {s t : State} (hp : s.rxPhase = .data) (h : rxEop s = .next t) : invocationMeasure t < invocationMeasure s := by
  rw [measure_data hp]
  obtain rfl | ⟨-, -, rfl⟩ := rxEop_next h
  · rw [measure_idle rfl]; omega
  · rw [measure_dispatch rfl, if_pos rfl]; omega

theorem measure_data_step {s t : State} {i : Instr} (h : Inv s) (hp : s.rxPhase = .data) (hd : decode (fetch s) = .ok i)
    (he : exec i (advance s) = .next t) : invocationMeasure t < invocationMeasure s := by
  obtain ⟨io, ha⟩ := advance_of_not_transmit (s := s) (by simp [hp])
  obtain ⟨hrx, -⟩ := h.rxData hp
  rw [ha] at he
  have hbit (b : Bool) (hb : exec (bitInstr b) { s with io := io } = .next t) : invocationMeasure t < invocationMeasure s := by
    rw [exec_bitInstr_received (by simp [hp])] at hb
    exact measure_rxBit (s := { s with io := io }) hp hrx.cap hb
  simp only [fetch, hp] at hd
  obtain rfl | rfl | rfl := decodeLine_ok hd
  · rw [exec_eop, if_neg (by simp [hp])] at he
    exact measure_rxEop (s := { s with io := io }) hp he
  · exact hbit false he
  · exact hbit true he

/-- A data packet is dispatched once: its payload decodes to a request or an OUT payload. -/
theorem stage_of_dataInstr {s : State} {tg : Bool} {payload : List Byte} {crc : BitVec 16} (hp : s.rxPhase = .dispatch)
    (hd : decode (fetch s) = .ok (dataInstr tg payload crc)) : s.stage = .packet := by
  cases hs : s.stage with
  | packet => rfl
  | request =>
    simp only [fetch, hp, hs] at hd
    cases tg <;> simpa [dataInstr] using decodeUrb_ok hd
  | payload =>
    simp only [fetch, hp, hs] at hd
    cases tg <;> simpa [dataInstr] using decodePayload_ok hd

/-- The dispatcher returns, calls `send`, or goes on to the payload of a data packet. -/
theorem measure_dispatch_step {s t : State} {i : Instr} (hp : s.rxPhase = .dispatch) (hd : decode (fetch s) = .ok i)
    (he : exec i (advance s) = .next t) : invocationMeasure t < invocationMeasure s := by
  have hreturn (ht : t.rxPhase = .idle) : invocationMeasure t < invocationMeasure s := by
    rw [measure_idle ht]; exact measure_pos (by simp [hp])
  have hsend {c : SendCmd} (ht : t.rxPhase = .transmit) (hc : t.tx.cmd = some c) : invocationMeasure t < invocationMeasure s := by
    rw [measure_waiting ht hc, measure_dispatch hp]; split <;> omega
  have hpayload (hs : s.stage = .packet) (ht : t.rxPhase = .dispatch) (hst : t.stage ≠ .packet) :
      invocationMeasure t < invocationMeasure s := by
    rw [measure_dispatch hp, if_pos hs, measure_dispatch ht, if_neg hst]; omega
  have hi := lineOrSend_of_dispatch hp hd
  cases exec_effect he with
  | line hl => exact absurd hl (by simp [hi])
  | dropped | keepalive | ack | setup | out | silent => exact hreturn rfl
  | duplicate | accept | fires | answers | drains => exact hsend rfl rfl
  | request | payload => exact hpayload (stage_of_dataInstr hp hd) rfl (by simp)

/-- The `send` taken up is a packet of at most 88 bits. -/
theorem measure_send_step {s t : State} {i : Instr} {c : SendCmd} (h : Inv t) (hp : s.rxPhase = .transmit) (hc : s.tx.cmd = some c)
    (hd : decode (fetch s) = .ok i) (he : exec i (advance s) = .next t) : invocationMeasure t < invocationMeasure s := by
  have hload : t.rxPhase = .transmit ∧ t.tx.cmd = none := by
    rw [fetch_waiting hp hc] at hd
    obtain ⟨hlen, rfl | rfl⟩ := decodeSend_ok hd
    · cases (exec_sendNoCrc _ _ _ hlen).symm.trans he
      exact ⟨rfl, rfl⟩
    · cases (exec_sendCrc16 _ _ _ hlen).symm.trans he
      exact ⟨rfl, rfl⟩
  have hle := h.measure_driving_le hload.1 hload.2
  rw [measure_waiting hp hc]
  omega

theorem step_of_unsynced {s : State} (hr : Running s) (hp : s.rxPhase = .transmit) (hc : s.tx.cmd = none) (hy : s.tx.synced = false) :
    step s = .next (txSync { s with tx := { s.tx with synced := true } }) := by
  have hd : decode (fetch s) = .ok .sync := by simp only [fetch, hp, hc, hy]; rfl
  rw [step_of_decode hr hd, show advance s = { s with tx := { s.tx with synced := true } } by simp [advance, hp, hc, hy], exec_sync,
    if_pos (by exact hp)]

/-- A step of a transmission drives the sync pattern, a bit, or the end of packet. -/
theorem measure_driving_step {s t : State} (hr : Running s) (hp : s.rxPhase = .transmit) (hc : s.tx.cmd = none)
    (hst : step s = .next t) : invocationMeasure t < invocationMeasure s := by
  obtain ⟨hrst, hh, hi⟩ := hr
  cases hy : s.tx.synced with
  | false =>
    cases (step_of_unsynced ⟨hrst, hh, hi⟩ hp hc hy).symm.trans hst
    obtain ⟨_, _, _, htx, -⟩ := txBits_eq (byteBits 0x80#8) { s with tx := { s.tx with synced := true } }
    rw [txSync, htx, measure_driving (s := s) hp hc, measure_driving (by exact hp) (by exact hc), hy]
    simp
  | true =>
    cases hb : s.tx.bits with
    | nil =>
      cases (step_txEop hrst hh hp hc hy hb).symm.trans hst
      rw [measure_idle (by rw [txEop_eq])]
      exact measure_pos hi
    | cons b bs =>
      cases (step_txBit hrst hh hp hc hy hb).symm.trans hst
      obtain ⟨_, _, _, htx, -⟩ := txBit_eq b { s with tx := { s.tx with bits := bs } }
      rw [htx, measure_driving (s := s) hp hc, measure_driving (by exact hp) (by exact hc), hy, hb]
      simp

/-- Every step of an invocation makes the measure smaller (spec/41_receive.md R173). -/
theorem Inv.measure_step {s t : State} (h : Inv s) (hr : Running s) (hst : step s = .next t) :
    invocationMeasure t < invocationMeasure s := by
  obtain ⟨hrst, hh, hi⟩ := hr
  obtain ⟨hrst', -⟩ | ⟨-, hh', -⟩ | ⟨-, -, hi', -⟩ | ⟨-, -, -, c, -, rfl⟩ | ⟨-, -, -, i, hd, he⟩ := step_cases hst
  · cases hrst.symm.trans hrst'
  · cases hh.symm.trans hh'
  · exact absurd hi' hi
  · rw [measure_idle rfl]; exact measure_pos hi
  · cases hp : s.rxPhase with
    | idle => exact absurd hp hi
    | preamble => exact measure_preamble_step hp hd he
    | data => exact measure_data_step h hp hd he
    | dispatch => exact measure_dispatch_step hp hd he
    | transmit =>
      cases hc : s.tx.cmd with
      | some c => exact measure_send_step (stepKeepsTheInvariant s t h hst) hp hc hd he
      | none => exact measure_driving_step ⟨hrst, hh, hi⟩ hp hc hst

/-! ## The run to the end of the invocation -/

/-- What an invocation needs to end: the invariant, `rst` not asserted, and the contract. -/
structure Ending (s : State) : Prop where
  inv : Inv s
  rst : s.io.rst = false
  contract : ContractKept s

theorem Ending.running {s : State} (h : Ending s) (hi : s.rxPhase ≠ .idle) : Running s :=
  ⟨h.rst, Bool.eq_false_iff.2 fun hh => hi (h.inv.halted hh), hi⟩

/-- A step of an invocation keeps what it needs to end. -/
theorem Ending.step {s t : State} (h : Ending s) (hr : Running s) (hst : step s = .next t) : Ending t := by
  have hinv := stepKeepsTheInvariant s t h.inv hst
  obtain ⟨hrst, hh, hi⟩ := hr
  obtain ⟨-, hrst'⟩ := advance_inputs s
  obtain ⟨hrst'', -⟩ | ⟨-, hh', -⟩ | ⟨-, -, hi', -⟩ | ⟨-, -, -, c, -, rfl⟩ | ⟨-, -, -, i, hd, he⟩ := step_cases hst
  · cases hrst.symm.trans hrst''
  · cases hh.symm.trans hh'
  · exact absurd hi' hi
  · exact ⟨hinv, hrst'.trans hrst, h.contract.advance⟩
  · exact ⟨hinv, (exec_inputs he).2.trans (hrst'.trans hrst), h.contract.advance.exec he⟩

/-- The measure bounds the steps to the end of the invocation. -/
theorem Ending.run {s : State} (h : Ending s) : ∃ k t, k ≤ invocationMeasure s ∧ Steps k s t ∧ t.rxPhase = .idle ∧ Inv t := by
  induction hm : invocationMeasure s using Nat.strong_induction_on generalizing s with
  | _ m ih =>
    by_cases hi : s.rxPhase = .idle
    · exact ⟨0, s, Nat.zero_le _, .zero s, hi, h.inv⟩
    · have hr := h.running hi
      obtain ⟨u, hst⟩ := h.inv.step_next hr h.contract
      have hlt := h.inv.measure_step hr hst
      obtain ⟨k, t, hk, hrun, ht⟩ := ih _ (hm ▸ hlt) (h.step hr hst) rfl
      exact ⟨k + 1, t, by omega, .succ hst hrun, ht⟩

/-- Settles O50: every step makes the measure smaller, and it starts at 400 or less. -/
theorem everyInvocationEnds : Obligations.EveryInvocationEnds := by
  intro s h hr hk
  obtain ⟨k, t, hle, hrun⟩ := Ending.run ⟨h, hr, hk⟩
  exact ⟨k, t, hle.trans h.measure_le, hrun⟩

end Sys2Proof.Machine
end
